-- ==== Sys2Proof/Word.lean ====
section
/-! DEFINITION. The bit-vector types of QRCORE: a byte, a 32-bit word (a result, a penalty register), a command word. -/

namespace Sys2Proof

/-- Eight bits: a byte of `DMEM` or `BITBUF`, an element of GF(256), a status code (spec/00_scope.md R8, R9). -/
abbrev Byte := BitVec 8

/-- Thirty-two bits: a response's result, a control register, the value BBAPP appends (R85, R36, R88). -/
abbrev Word := BitVec 32

/-- A command word, transferred as one unit of 64 bits (R85, R86). -/
abbrev Cmd := BitVec 64

end Sys2Proof
end

