-- ==== Sys2Proof/Syntax.lean ====
section
/-! DEFINITION. The 22 commands of spec/30_encoding.md R89 as syntax, operands read as R88 says. -/

namespace Sys2Proof

/-- MXSEL's operand (R88 exception 1, R266): −1 asks for automatic selection, any other pattern is an unsigned number. -/
inductive MaskRequest where
  | auto
  | forced (m : Nat)
deriving DecidableEq, Repr

/-- One constructor per row of spec/opcode_table.json. Addresses, counts, indices and other numbers are unbounded
naturals (R88), coordinates are signed (R88 exceptions 2 and 3); STB's byte and BBAPP's value are bits. -/
inductive Instr where
  /-- RESET (R120). -/
  | reset
  /-- RDCR n (R122). -/
  | rdcr (n : Nat)
  /-- LDB addr (R124). -/
  | ldb (addr : Nat)
  /-- STB addr, v (R126). -/
  | stb (addr : Nat) (v : Byte)
  /-- GFMUL x, y (R163). -/
  | gfmul (x y : Nat)
  /-- RSINIT degree (R177). -/
  | rsinit (degree : Nat)
  /-- RSRDC i (R180). -/
  | rsrdc (i : Nat)
  /-- RSREM src, len, dst (R182). -/
  | rsrem (src len dst : Nat)
  /-- BBNEW (R143). -/
  | bbnew
  /-- BBLEN (R144). -/
  | bblen
  /-- BBAPP width, value (R145). -/
  | bbapp (width : Nat) (value : Word)
  /-- BBAPPM src, nbits (R147). -/
  | bbappm (src nbits : Nat)
  /-- BBTOB dst (R149). -/
  | bbtob (dst : Nat)
  /-- MXNEW version, level (R201). -/
  | mxnew (version level : Nat)
  /-- MXFUNC (R203). -/
  | mxfunc
  /-- MXCW src, count (R220). -/
  | mxcw (src count : Nat)
  /-- MXFMT m (R214). -/
  | mxfmt (m : Nat)
  /-- MXMASK m (R252). -/
  | mxmask (m : Nat)
  /-- MXPEN (R262). -/
  | mxpen
  /-- MXSEL req (R266). -/
  | mxsel (req : MaskRequest)
  /-- MXRD x, y (R270). -/
  | mxrd (x y : Int)
  /-- MXPEEK x, y (R272). -/
  | mxpeek (x y : Int)
deriving DecidableEq, Repr

end Sys2Proof
end

