-- ==== Sys2Proof/WellFormed.lean ====
section
/-! DEFINITION. When an instruction's operands fit the fields of the command word (spec/30_encoding.md R86, R88).
An operand that fits its field but lies outside the command's legal range is well formed: the command refuses it (R93). -/

namespace Sys2Proof

/-- The operand fits an unsigned field of `bits` bits. -/
def fits (bits n : Nat) : Bool := decide (n < 2 ^ bits)

/-- The coordinate fits a signed 16-bit field: −32768..32767 (R88). -/
def fitsSigned16 (x : Int) : Bool := decide (-32768 ≤ x) && decide (x ≤ 32767)

/-- MXSEL's number fits `imm` and is not the pattern that means −1 (R88 exception 1). -/
def MaskRequest.wf : MaskRequest → Bool
  | .auto => true
  | .forced m => decide (m < 0xFFFFFFFF)

/-- Every operand fits its field (R88). -/
def Instr.wf : Instr → Bool
  | .reset => true
  | .rdcr n => fits 32 n
  | .ldb addr => fits 16 addr
  | .stb addr _ => fits 16 addr
  | .gfmul x y => fits 16 x && fits 16 y
  | .rsinit degree => fits 32 degree
  | .rsrdc i => fits 32 i
  | .rsrem src len dst => fits 16 src && fits 16 len && fits 16 dst
  | .bbnew => true
  | .bblen => true
  | .bbapp width _ => fits 8 width
  | .bbappm src nbits => fits 16 src && fits 16 nbits
  | .bbtob dst => fits 16 dst
  | .mxnew version level => fits 32 version && fits 8 level
  | .mxfunc => true
  | .mxcw src count => fits 16 src && fits 16 count
  | .mxfmt m => fits 32 m
  | .mxmask m => fits 32 m
  | .mxpen => true
  | .mxsel req => req.wf
  | .mxrd x y => fitsSigned16 x && fitsSigned16 y
  | .mxpeek x y => fitsSigned16 x && fitsSigned16 y

end Sys2Proof
end

