-- ==== Sys2Proof/Decode.lean ====
section
/-! DEFINITION. Decoding a command word (spec/30_encoding.md R86 to R95), total, rejecting by name; then the encoder,
written from the same tables. -/

namespace Sys2Proof

/-- The fields of a command word (R86): `w = (op, a, b, imm)`, `imm = (hi, lo)`. -/
inductive Field where
  | a
  | b
  | imm
  | hi
deriving DecidableEq, Repr

/-- Why a word is illegal (R91): its `op` is undefined, or a field its format does not use is not zero. -/
inductive Illegal where
  | undefinedOpcode (op : Nat)
  | fieldNotZero (f : Field)
deriving DecidableEq, Repr

/-- The eight formats (R87). -/
inductive Format where
  | Z
  | I
  | P
  | H
  | AH
  | AI
  | BH
  | BP
deriving DecidableEq, Repr

/-- Whether the format uses field `a` (R87). -/
def Format.usesA : Format → Bool
  | .AH | .AI => true
  | .Z | .I | .P | .H | .BH | .BP => false

/-- Whether the format uses field `b` (R87). -/
def Format.usesB : Format → Bool
  | .BH | .BP => true
  | .Z | .I | .P | .H | .AH | .AI => false

/-- Whether the format uses any part of `imm` (R87): all but Z do. -/
def Format.usesImm : Format → Bool
  | .Z => false
  | .I | .P | .H | .AH | .AI | .BH | .BP => true

/-- Whether the format uses bits 31:16, as `imm` whole or as `hi` (R87). -/
def Format.usesHi : Format → Bool
  | .I | .P | .AI | .BP => true
  | .Z | .H | .AH | .BH => false

/-- The 22 mnemonics of R89, without operands. -/
inductive Mnemonic where
  | RESET | RDCR | LDB | STB
  | GFMUL
  | RSINIT | RSRDC | RSREM
  | BBNEW | BBLEN | BBAPP | BBAPPM | BBTOB
  | MXNEW | MXFUNC | MXCW | MXFMT | MXMASK | MXPEN | MXSEL | MXRD | MXPEEK
deriving DecidableEq, Repr

/-- One row of the opcode map (R89). -/
structure OpRow where
  op : Nat
  mnemonic : Mnemonic
  format : Format
deriving DecidableEq, Repr

/-- The opcode map (R89), in its order. -/
def opTable : List OpRow := [
  ⟨0x01, .RESET, .Z⟩,
  ⟨0x02, .RDCR, .I⟩,
  ⟨0x03, .LDB, .H⟩,
  ⟨0x04, .STB, .AH⟩,
  ⟨0x10, .GFMUL, .P⟩,
  ⟨0x20, .RSINIT, .I⟩,
  ⟨0x21, .RSRDC, .I⟩,
  ⟨0x22, .RSREM, .BP⟩,
  ⟨0x30, .BBNEW, .Z⟩,
  ⟨0x31, .BBLEN, .Z⟩,
  ⟨0x32, .BBAPP, .AI⟩,
  ⟨0x33, .BBAPPM, .BH⟩,
  ⟨0x34, .BBTOB, .H⟩,
  ⟨0x40, .MXNEW, .AI⟩,
  ⟨0x41, .MXFUNC, .Z⟩,
  ⟨0x42, .MXCW, .BH⟩,
  ⟨0x43, .MXFMT, .I⟩,
  ⟨0x44, .MXMASK, .I⟩,
  ⟨0x45, .MXPEN, .Z⟩,
  ⟨0x46, .MXSEL, .I⟩,
  ⟨0x47, .MXRD, .P⟩,
  ⟨0x48, .MXPEEK, .P⟩]

/-- `op = w[63:56]` (R86), as an unsigned number (R88). -/
def opOf (w : Cmd) : Nat := (w.extractLsb' 56 8).toNat

/-- `a = w[55:48]` (R86). -/
def aOf (w : Cmd) : Nat := (w.extractLsb' 48 8).toNat

/-- `b = w[47:32]` (R86). -/
def bOf (w : Cmd) : Nat := (w.extractLsb' 32 16).toNat

/-- `imm = w[31:0]` (R86). -/
def immOf (w : Cmd) : Nat := (w.extractLsb' 0 32).toNat

/-- `hi = imm[31:16]` (R86). -/
def hiOf (w : Cmd) : Nat := (w.extractLsb' 16 16).toNat

/-- `lo = imm[15:0]` (R86). -/
def loOf (w : Cmd) : Nat := (w.extractLsb' 0 16).toNat

/-- `sext(v) = v − 65536 if v[15] = 1 else v` for a 16-bit field (R9). -/
def sext16 (v : Nat) : Int := if v < 32768 then (v : Int) else (v : Int) - 65536

/-- The 16-bit two's complement pattern of a coordinate (R88, R96). -/
def unsext16 (x : Int) : Nat := (x % 65536).toNat

/-- MXSEL's operand from `imm`: `0xFFFFFFFF` means −1 (R88 exception 1). -/
def maskRequest (imm : Nat) : MaskRequest := if imm = 0xFFFFFFFF then .auto else .forced imm

/-- `imm` from MXSEL's operand (R96: −1 assembles to `0xFFFFFFFF`). -/
def MaskRequest.imm : MaskRequest → Nat
  | .auto => 0xFFFFFFFF
  | .forced m => m

/-- The operands of R88 for each mnemonic. -/
def operands (w : Cmd) : Mnemonic → Instr
  | .RESET => .reset
  | .RDCR => .rdcr (immOf w)
  | .LDB => .ldb (loOf w)
  | .STB => .stb (loOf w) (w.extractLsb' 48 8)
  | .GFMUL => .gfmul (loOf w) (hiOf w)
  | .RSINIT => .rsinit (immOf w)
  | .RSRDC => .rsrdc (immOf w)
  | .RSREM => .rsrem (loOf w) (bOf w) (hiOf w)
  | .BBNEW => .bbnew
  | .BBLEN => .bblen
  | .BBAPP => .bbapp (aOf w) (w.extractLsb' 0 32)
  | .BBAPPM => .bbappm (loOf w) (bOf w)
  | .BBTOB => .bbtob (loOf w)
  | .MXNEW => .mxnew (immOf w) (aOf w)
  | .MXFUNC => .mxfunc
  | .MXCW => .mxcw (loOf w) (bOf w)
  | .MXFMT => .mxfmt (immOf w)
  | .MXMASK => .mxmask (immOf w)
  | .MXPEN => .mxpen
  | .MXSEL => .mxsel (maskRequest (immOf w))
  | .MXRD => .mxrd (sext16 (loOf w)) (sext16 (hiOf w))
  | .MXPEEK => .mxpeek (sext16 (loOf w)) (sext16 (hiOf w))

/-- The row of `op` in the opcode map, if the map has one. -/
def rowOf (op : Nat) : Option OpRow := opTable.find? (fun r => r.op == op)

/-- `Decode(w)` (R95): the tests in the rule's order, then the operands. -/
def decode (w : Cmd) : Except Illegal Instr :=
  match rowOf (opOf w) with
  | none => .error (.undefinedOpcode (opOf w))
  | some r =>
    if r.format.usesA = false ∧ aOf w ≠ 0 then .error (.fieldNotZero .a)
    else if r.format.usesB = false ∧ bOf w ≠ 0 then .error (.fieldNotZero .b)
    else if r.format.usesImm = false ∧ immOf w ≠ 0 then .error (.fieldNotZero .imm)
    else if r.format.usesHi = false ∧ hiOf w ≠ 0 then .error (.fieldNotZero .hi)
    else .ok (operands w r.mnemonic)

/-- The decoder's instruction, if the word is legal. -/
def decodeSome (w : Cmd) : Option Instr :=
  match decode w with
  | .ok i => some i
  | .error _ => none

/-- The instruction of a row of spec/opcode_table.json whose `nbits` bits are `w`, bits above `nbits` zero. Every row has
64 bits and the word is one unit (R85, R94), so the number is the command word; a number of more than 64 bits is none. -/
def decodeTableWord (nbits w : Nat) : Option Instr :=
  if w % 2 ^ nbits < 2 ^ 64 then decodeSome (BitVec.ofNat 64 (w % 2 ^ nbits)) else none

/-- `w = op*2^56 + a*2^48 + b*2^32 + imm` (R86). -/
def packWord (op a b imm : Nat) : Cmd := BitVec.ofNat 64 (op * 2 ^ 56 + a * 2 ^ 48 + b * 2 ^ 32 + imm)

/-- `imm = (hi, lo)` as a number (R86). -/
def packImm (hi lo : Nat) : Nat := hi * 2 ^ 16 + lo

/-- The word of a well-formed instruction (R86 to R89, the assembly table of R96). -/
def encode : Instr → Cmd
  | .reset => packWord 0x01 0 0 0
  | .rdcr n => packWord 0x02 0 0 n
  | .ldb addr => packWord 0x03 0 0 addr
  | .stb addr v => packWord 0x04 v.toNat 0 addr
  | .gfmul x y => packWord 0x10 0 0 (packImm y x)
  | .rsinit degree => packWord 0x20 0 0 degree
  | .rsrdc i => packWord 0x21 0 0 i
  | .rsrem src len dst => packWord 0x22 0 len (packImm dst src)
  | .bbnew => packWord 0x30 0 0 0
  | .bblen => packWord 0x31 0 0 0
  | .bbapp width value => packWord 0x32 width 0 value.toNat
  | .bbappm src nbits => packWord 0x33 0 nbits src
  | .bbtob dst => packWord 0x34 0 0 dst
  | .mxnew version level => packWord 0x40 level 0 version
  | .mxfunc => packWord 0x41 0 0 0
  | .mxcw src count => packWord 0x42 0 count src
  | .mxfmt m => packWord 0x43 0 0 m
  | .mxmask m => packWord 0x44 0 0 m
  | .mxpen => packWord 0x45 0 0 0
  | .mxsel req => packWord 0x46 0 0 req.imm
  | .mxrd x y => packWord 0x47 0 0 (packImm (unsext16 y) (unsext16 x))
  | .mxpeek x y => packWord 0x48 0 0 (packImm (unsext16 y) (unsext16 x))

/-- The mnemonic an instruction stands for (R89). -/
def Instr.mnemonic : Instr → Mnemonic
  | .reset => .RESET
  | .rdcr _ => .RDCR
  | .ldb _ => .LDB
  | .stb _ _ => .STB
  | .gfmul _ _ => .GFMUL
  | .rsinit _ => .RSINIT
  | .rsrdc _ => .RSRDC
  | .rsrem _ _ _ => .RSREM
  | .bbnew => .BBNEW
  | .bblen => .BBLEN
  | .bbapp _ _ => .BBAPP
  | .bbappm _ _ => .BBAPPM
  | .bbtob _ => .BBTOB
  | .mxnew _ _ => .MXNEW
  | .mxfunc => .MXFUNC
  | .mxcw _ _ => .MXCW
  | .mxfmt _ => .MXFMT
  | .mxmask _ => .MXMASK
  | .mxpen => .MXPEN
  | .mxsel _ => .MXSEL
  | .mxrd _ _ => .MXRD
  | .mxpeek _ _ => .MXPEEK

end Sys2Proof
end

