-- ==== Sys2Proof/Config.lean ====
section
/-! DEFINITION. The parameters of spec/00_scope.md R7 and the one free value of the model. -/

namespace Sys2Proof.Config

/-- `GF_POLY = 0x11D`, the reduction polynomial of GF(2^8) (R7, R160). -/
def gfPoly : BitVec 9 := 0x11D

/-- `RS_MAX_DEGREE` (R7): the largest divisor degree, and so the length of `DIV` (R28). -/
abbrev rsMaxDegree : Nat := 255

/-- `VERSION_MIN` (R7). -/
abbrev versionMin : Nat := 1

/-- `VERSION_MAX` (R7). -/
abbrev versionMax : Nat := 40

/-- `SIZE(version) = 4*version + 17` (R7, R30). -/
abbrev sizeOf (version : Nat) : Nat := 4 * version + 17

/-- The side of the grid storage: `SIZE(40)` (R31). -/
abbrev maxSide : Nat := 177

/-- `APPEND_MAX_WIDTH` (R7): the widest single append. -/
abbrev appendMaxWidth : Nat := 32

/-- `DMEM_SIZE` at its default (R7, R60). DESIGN CHOICE (log 4): R7 allows a model to fix it there. -/
abbrev dmemSize : Nat := 8192

/-- `BB_CAP_BYTES` at its default (R7, R23). DESIGN CHOICE (log 4). -/
abbrev bbCapBytes : Nat := 4096

/-- `ECL_FORMAT_BITS` at its default `[1, 0, 3, 2]` for LOW, MEDIUM, QUARTILE, HIGH (R7, R215). DESIGN CHOICE (log 4). -/
def eclFormatBits : List Nat := [1, 0, 3, 2]

/-- The identity value control register CR0 returns (R1, R37). -/
def identity : Word := 0x51524301

/-- `N_CR` (R7): the number of control registers. -/
abbrev nCR : Nat := 10

/-- FREE VALUE (log 5): what byte `addr` of `DMEM` holds from the `epoch`-th reset until it is written.
R50, R51 and U1 leave it unspecified and say a model must not fix it: this constant has no body, so nothing can be
proved about its value. -/
opaque unwrittenByte (epoch addr : Nat) : Byte

end Sys2Proof.Config
end

