-- ==== Sys2Proof/Machine/State.lean ====
section
/-! DEFINITION. The state of QRCORE (spec/10_state.md), as plain data, and its value after reset (R50). -/

namespace Sys2Proof.Machine

/-- The bit builder (R23): the byte buffer `BITBUF` and the bit-length counter `BBLEN`. -/
structure Builder where
  /-- `BITBUF[0 .. BB_CAP_BYTES−1]` (R23). -/
  bitbuf : Vector Byte Config.bbCapBytes
  /-- `BBLEN`, 16 bits at the default capacity (R23). -/
  bblen : BitVec 16
deriving DecidableEq, Repr

/-- The Reed-Solomon generator (R27, R28). -/
structure RsGen where
  /-- `RSDEG`; 0 means that no generator has been constructed (R27). -/
  rsdeg : BitVec 8
  /-- `DIV[0 .. 254]`, highest power first, the leading 1 left out (R28). -/
  div : Vector Byte Config.rsMaxDegree
deriving DecidableEq, Repr

/-- `MXPHASE` (R32): how far the symbol under construction has got. -/
inductive Phase where
  | idle
  | alloc
  | patterns
  | data
  | final
deriving DecidableEq, Repr

/-- One grid of 177 × 177 one-bit cells (R31): `rows[y][x]`, x the column and y the row (R14). -/
structure Grid where
  rows : Vector (Vector Bool Config.maxSide) Config.maxSide
deriving DecidableEq, Repr

/-- The matrix engine (R30 to R33). -/
structure Matrix where
  /-- `MXPHASE` (R32). -/
  phase : Phase
  /-- `VERSION` (R30). -/
  version : BitVec 6
  /-- `SIZE` (R30). -/
  size : BitVec 8
  /-- `ECL`, the ordinal of the level: 0 LOW, 1 MEDIUM, 2 QUARTILE, 3 HIGH (R30). -/
  ecl : BitVec 2
  /-- `MASK`: the resolved mask 0..7, or 8 (R30). -/
  mask : BitVec 4
  /-- `TRIAL`: the trial mask applied now 0..7, or 8 (R30). -/
  trial : BitVec 4
  /-- `MODULES`, true for dark (R31, R14). -/
  modules : Grid
  /-- `ISFUNC` (R31). -/
  isfunc : Grid
  /-- `PEN_TOTAL` (R33). -/
  penTotal : Word
  /-- `PEN_N1` (R33). -/
  penN1 : Word
  /-- `PEN_N2` (R33). -/
  penN2 : Word
  /-- `PEN_N3` (R33). -/
  penN3 : Word
  /-- `PEN_N4` (R33). -/
  penN4 : Word
deriving DecidableEq, Repr

/-- `STATUS` (R35). -/
structure Status where
  /-- `LASTERR`: the code of the most recent refusal, 0 if none since reset. -/
  lasterr : Byte
  /-- `ERR`, sticky. -/
  err : Bool
  /-- `FATAL`. -/
  fatal : Bool
deriving DecidableEq, Repr

/-- The status codes (R340). Codes 7..255 are never produced. -/
inductive StatusCode where
  | ok
  | invalidArgument
  | dataTooLong
  | internalConsistencyFault
  | illegalCommand
  | sequenceError
  | boundsError
deriving DecidableEq, Repr

/-- What the response port carries for one command (R85): status code `st` and result `res`. -/
structure Response where
  st : Byte
  res : Word
deriving DecidableEq, Repr

/-- What the host can present between two commands (R381): a command word, or the hardware reset input. -/
inductive Input where
  | command (w : Cmd)
  | hardReset
deriving DecidableEq, Repr

/-- The written bytes of `DMEM`, addresses strictly rising; an address that is not listed has not been written since
reset (R51, log 6). -/
abbrev Memory := List Host.Cell

/-- The state of QRCORE: the five groups of R20, and the model's own `epoch` (log 5), `port` (log 1) and `response`
(log 2). -/
structure State where
  /-- The bit builder (R23). -/
  bb : Builder
  /-- The Reed-Solomon generator (R27, R28). -/
  rs : RsGen
  /-- The matrix engine (R30 to R33). -/
  mx : Matrix
  /-- `DMEM` (R34). -/
  dmem : Memory
  /-- `STATUS` (R35). -/
  status : Status
  /-- The model's own: the number of resets so far, which says which unspecified contents `DMEM` has (log 5). -/
  epoch : Nat
  /-- The model's own: the inputs the host has still to present, oldest first (R22, log 1). -/
  port : List Input
  /-- The response to the latest input, none after the reset input (R85, R121, log 2). -/
  response : Option Response
deriving DecidableEq, Repr

/-- Why the machine would stop with a fault: nothing. The spec gives QRCORE no event that stops it; every exceptional
event is a refused command (R343, R348), which is a next state. -/
inductive Fault where
deriving DecidableEq, Repr

/-- Why an instruction would have no meaning here. -/
inductive Refusal where
  /-- Raised by an arm of `exec` whose instruction has no meaning yet; no arm does so. Safe: the machine stops. -/
  | notModelled (mnemonic : String)
deriving DecidableEq, Repr

/-- A grid of zeros (R50, R201). -/
def Grid.blank : Grid := ⟨Vector.replicate Config.maxSide (Vector.replicate Config.maxSide false)⟩

/-- The empty builder (R50). -/
def Builder.reset : Builder := ⟨Vector.replicate Config.bbCapBytes 0, 0⟩

/-- No generator (R50). -/
def RsGen.reset : RsGen := ⟨0, Vector.replicate Config.rsMaxDegree 0⟩

/-- No symbol (R50): phase IDLE, `MASK` and `TRIAL` 8, everything else 0. -/
def Matrix.reset : Matrix where
  phase := .idle
  version := 0
  size := 0
  ecl := 0
  mask := 8
  trial := 8
  modules := Grid.blank
  isfunc := Grid.blank
  penTotal := 0
  penN1 := 0
  penN2 := 0
  penN3 := 0
  penN4 := 0

/-- The state after reset (R50). `DMEM` is unspecified: nothing is listed (R51, log 5). The model's own fields hold
DESIGN CHOICE values: epoch 0 (log 5), no input pending (log 1), no response yet (log 2). -/
def State.reset : State where
  bb := Builder.reset
  rs := RsGen.reset
  mx := Matrix.reset
  dmem := []
  status := ⟨0, false, false⟩
  epoch := 0
  port := []
  response := none

end Sys2Proof.Machine
end

