-- ==== Sys2Proof/Machine/Flags.lean ====
section
/-! DEFINITION. The status codes as numbers, what a refusal does to `STATUS`, and the control registers. -/

namespace Sys2Proof.Machine

/-- The number of a status code (R340). -/
def StatusCode.toByte : StatusCode → Byte
  | .ok => 0
  | .invalidArgument => 1
  | .dataTooLong => 2
  | .internalConsistencyFault => 3
  | .illegalCommand => 4
  | .sequenceError => 5
  | .boundsError => 6

/-- `STATUS` after a refusal with this code (R343). These are the only flags of QRCORE (R35). -/
def Status.refused (code : StatusCode) (st : Status) : Status where
  lasterr := code.toByte
  err := true
  fatal := st.fatal || decide (code = .internalConsistencyFault)

/-- The number of a phase (R32). -/
def Phase.code : Phase → Nat
  | .idle => 0
  | .alloc => 1
  | .patterns => 2
  | .data => 3
  | .final => 4

/-- One bit as a number. -/
def bit01 (b : Bool) : Nat := if b then 1 else 0

/-- CR1, `LASTERR | (ERR << 8) | (FATAL << 9)` (R37). -/
def statusWord (st : Status) : Word :=
  st.lasterr.setWidth 32 ||| (BitVec.ofNat 32 (bit01 st.err) <<< 8) ||| (BitVec.ofNat 32 (bit01 st.fatal) <<< 9)

/-- CR4, `VERSION | (ECL << 6) | (SIZE << 8) | (MASK << 16) | (TRIAL << 20) | (MXPHASE << 24)` (R37). -/
def configWord (mx : Matrix) : Word :=
  mx.version.setWidth 32 ||| (mx.ecl.setWidth 32 <<< 6) ||| (mx.size.setWidth 32 <<< 8) |||
    (mx.mask.setWidth 32 <<< 16) ||| (mx.trial.setWidth 32 <<< 20) ||| (BitVec.ofNat 32 mx.phase.code <<< 24)

/-- The control registers (R36, R37). Numbers 10 and above do not exist; RDCR refuses them before it reads (R122). -/
def controlRegister (s : State) : Nat → Word
  | 0 => Config.identity
  | 1 => statusWord s.status
  | 2 => s.bb.bblen.setWidth 32
  | 3 => s.rs.rsdeg.setWidth 32
  | 4 => configWord s.mx
  | 5 => s.mx.penTotal
  | 6 => s.mx.penN1
  | 7 => s.mx.penN2
  | 8 => s.mx.penN3
  | 9 => s.mx.penN4
  | _ => 0

end Sys2Proof.Machine
end

