-- ==== Sys2Proof/Machine/Vec.lean ====
section
/-! DEFINITION. Reading, writing and tabulating a fixed-length array by a natural index. -/

namespace Sys2Proof.Machine

/-- Entry `i` of the array; `d` where there is no entry `i` (no rule reads there: the commands test their ranges first,
log 8). -/
def readAt {α : Type} {n : Nat} (v : Vector α n) (d : α) (i : Nat) : α := if h : i < n then v[i] else d

/-- The array with entry `i` replaced; unchanged where there is no entry `i` (log 8). -/
def writeAt {α : Type} {n : Nat} (v : Vector α n) (i : Nat) (x : α) : Vector α n :=
  if h : i < n then v.set i x h else v

/-- The array whose entry `i` is `f i`. -/
def tabulate {α : Type} (n : Nat) (f : Nat → α) : Vector α n := ⟨⟨(List.range n).map f⟩, by simp⟩

end Sys2Proof.Machine
end

