-- ==== Sys2Proof/Machine/Operands.lean ====
section
/-! DEFINITION. The operand forms of the commands: byte ranges, bit sequences, widths, coordinates. -/

namespace Sys2Proof.Machine

/-- `ceil(nbits / 8)` (R8), the bytes a bit string of `nbits` bits touches (R147, R149). -/
def bytesFor (nbits : Nat) : Nat := (nbits + 7) / 8

/-- The range check of R64: the range `[p, p+n)` lies in `DMEM`, on unbounded integers, no wrap-around. -/
def rangeFits (p n : Nat) : Bool := decide (p + n ≤ Config.dmemSize)

/-- `SeqBit(B, i)` (R10): bit `i` of a byte sequence, most significant bit of a byte first. -/
def seqBit (byteAt : Nat → Byte) (i : Nat) : Bool := (byteAt (i / 8)).getLsbD (7 - i % 8)

/-- Bits `width−1` down to 0 of `value` (R145), in that order. -/
def msbFirst (width : Nat) (value : Word) : List Bool :=
  (List.range width).map (fun k => value.getLsbD (width - 1 - k))

/-- BBAPP's operand test passes (R145): the width is at most 32 and the value has no bit at a position ≥ width. -/
def appendOperandsLegal (width : Nat) (value : Word) : Bool :=
  decide (width ≤ Config.appendMaxWidth) && !(decide (width < 32) && decide (value.toNat >>> width ≠ 0))

/-- A coordinate of MXRD or MXPEEK lies in the symbol: `0 <= c < SIZE` (R270). -/
def inSymbol (size : Nat) (c : Int) : Bool := decide (0 ≤ c) && decide (c < size)

/-- A mask index that MXFMT and MXMASK accept: not above 7 (R214, R252). -/
def maskLegal (m : Nat) : Bool := decide (m ≤ 7)

/-- A request that MXSEL accepts (R266): −1, or not above 7. -/
def requestLegal : MaskRequest → Bool
  | .auto => true
  | .forced m => maskLegal m

end Sys2Proof.Machine
end

