-- ==== Sys2Proof/Machine/Ops.lean ====
section
/-! DEFINITION. The shared operations: answering and refusing a command, reset, the command port, `DMEM`, the bit
builder, the grids. -/

namespace Sys2Proof.Machine

/-- What a command's meaning answers. -/
abbrev Result := Host.Outcome State Fault Refusal

/-! ### Answering -/

/-- `respond(v)` (R12): the command succeeds with status OK and result `v`; `STATUS` does not change (R343). -/
def respond (v : Word) (s : State) : State := { s with response := some ⟨StatusCode.ok.toByte, v⟩ }

/-- `refuse(code)`, the meaning of `raise` (R343): the block's one exception. `STATUS` takes the code, the response is
(code, 0), nothing else changes. There is no handler, no saved state and so no return from it (R348). -/
def refuse (code : StatusCode) (s : State) : State :=
  { s with status := s.status.refused code, response := some ⟨code.toByte, 0⟩ }

/-- Steps 3 and 4 of the skeleton (R342) for every command but RESET and RDCR: while `FATAL` is 1 the command is
refused with `InternalConsistencyFault`, else it is `served`. -/
def unlessFatal (s served : State) : Result :=
  .next (if s.status.fatal then refuse .internalConsistencyFault s else served)

/-! ### Reset and the command port -/

/-- Every state element at its reset value (R50, R380); `DMEM` has new unspecified contents (R51: the next epoch, log 5).
The inputs the host has still to present are not the block's (log 1). -/
def resetBlock (s : State) : State := { State.reset with epoch := s.epoch + 1, port := s.port }

/-- `HardReset` (R381): the reset state, and no response (R121). -/
def hardReset (s : State) : State := resetBlock s

/-- An illegal word is refused with `IllegalCommand` before every other test, the FATAL test among them (R91, R342). -/
def illegalWord (s : State) : State := refuse .illegalCommand s

/-- The next input and the state with it taken from the port; none while the host presents nothing (log 1). -/
def takeInput (s : State) : Option (Input × State) :=
  match s.port with
  | [] => none
  | i :: rest => some (i, { s with port := rest })

/-- The state with one more word presented, ahead of everything pending (log 3). -/
def present (w : Cmd) (s : State) : State := { s with port := .command w :: s.port }

/-! ### DMEM -/

/-- The byte written at `addr` since reset, if there is one. -/
def Memory.written : Memory → Nat → Option Byte
  | [], _ => none
  | (a, v) :: rest, addr => if a = addr then some v else Memory.written rest addr

/-- `DMEM[addr] <- v` on the list of written bytes, addresses kept strictly rising. -/
def Memory.store (addr : Nat) (v : Byte) : Memory → Memory
  | [] => [(addr, v)]
  | (a, u) :: rest =>
    if addr < a then (addr, v) :: (a, u) :: rest
    else if addr = a then (addr, v) :: rest
    else (a, u) :: Memory.store addr v rest

/-- All addresses of the list are above `lo` and strictly rising. -/
def Memory.risingFrom (lo : Nat) : Memory → Bool
  | [] => true
  | (a, _) :: rest => decide (lo < a) && Memory.risingFrom a rest

/-- The canonical form (log 6): addresses strictly rising, each below `DMEM_SIZE`. Every listed byte has been written
and every written byte is listed, so equal contents are equal lists. -/
def Memory.wf : Memory → Bool
  | [] => true
  | (a, v) :: rest =>
    Memory.risingFrom a rest && ((a, v) :: rest).all (fun c => decide (c.1 < Config.dmemSize))

/-- What an address that no command has written since reset reads as: a free value of the reset and the address, the
same at every read (R51, R62, R71; log 5). -/
def unlistedByte (epoch addr : Nat) : Byte := Config.unwrittenByte epoch addr

/-- `MemRead(addr, 1)` (R11): the byte the most recent write left, or the reset value if none did (R71). The commands
check the range first (R64). -/
def readByte (s : State) (addr : Nat) : Byte := (s.dmem.written addr).getD (unlistedByte s.epoch addr)

/-- `MemWrite(addr, 1, v)` (R11). The commands check the range first (R64). -/
def writeByte (s : State) (addr : Nat) (v : Byte) : State := { s with dmem := s.dmem.store addr v }

/-- The `len` bytes from `src`, in order (R63: one byte access per byte). -/
def readRange (s : State) (src len : Nat) : List Byte := (List.range len).map (fun k => readByte s (src + k))

/-- The bytes written from `dst` on, in order (R63). -/
def writeRange (s : State) (dst : Nat) : List Byte → State
  | [] => s
  | v :: rest => writeRange (writeByte s dst v) (dst + 1) rest

/-! ### The bit builder -/

/-- `AppendBit(bit)` (R141). Its callers have tested the capacity. -/
def appendBit (bb : Builder) (bit : Bool) : Builder where
  bitbuf := writeAt bb.bitbuf (bb.bblen.toNat / 8)
    (readAt bb.bitbuf 0 (bb.bblen.toNat / 8) ||| (BitVec.ofNat 8 (bit01 bit) <<< (7 - bb.bblen.toNat % 8)))
  bblen := bb.bblen + 1

/-- The bits appended one after another (R145, R147). -/
def appendBits (bb : Builder) (bits : List Bool) : Builder := bits.foldl appendBit bb

/-- Bit `i` of the builder's content, `SeqBit(BITBUF, i)` (R23, R140). -/
def builderBit (bb : Builder) (i : Nat) : Bool := seqBit (readAt bb.bitbuf 0) i

/-- The capacity test of the appends (R145, R147): `BBLEN + n <= 8*BB_CAP_BYTES`. -/
def appendFits (bb : Builder) (n : Nat) : Bool := decide (bb.bblen.toNat + n ≤ 8 * Config.bbCapBytes)

/-! ### The grids -/

/-- The cell in column `x` and row `y` (R14, R31). Outside the 177 × 177 cells there is no cell and the answer is 0
(log 8). -/
def Grid.cell (g : Grid) (x y : Nat) : Bool := readAt (readAt g.rows (Vector.replicate Config.maxSide false) y) false x

/-- The grid with the cell in column `x` and row `y` set to `v`. -/
def Grid.put (g : Grid) (x y : Nat) (v : Bool) : Grid :=
  ⟨writeAt g.rows y (writeAt (readAt g.rows (Vector.replicate Config.maxSide false) y) x v)⟩

/-- The grid whose cell (x, y) is `f x y`. -/
def Grid.build (f : Nat → Nat → Bool) : Grid :=
  ⟨tabulate Config.maxSide (fun y => tabulate Config.maxSide (fun x => f x y))⟩

/-- The cells of the symbol, row by row. -/
def symbolCells (size : Nat) : List (Nat × Nat) :=
  (List.range size).flatMap (fun y => (List.range size).map (fun x => (x, y)))

end Sys2Proof.Machine
end

