-- ==== Sys2Proof/Machine/BitBuilder.lean ====
section
/-! DEFINITION. The bit-sequence builder: BBNEW, BBLEN, BBAPP, BBAPPM, BBTOB (spec/41_bit_builder.md). -/

namespace Sys2Proof.Machine

/-- BBNEW (R143). -/
def execBbnew (s : State) : Result := unlessFatal s (respond 0 { s with bb := Builder.reset })

/-- BBLEN (R144). -/
def execBblen (s : State) : Result := unlessFatal s (respond (s.bb.bblen.setWidth 32) s)

/-- The end of both appends: the bits appended and the new length answered (R145, R147). -/
def appendAndAnswer (bits : List Bool) (s : State) : State :=
  respond ((appendBits s.bb bits).bblen.setWidth 32) { s with bb := appendBits s.bb bits }

/-- BBAPP width, value (R145). -/
def execBbapp (width : Nat) (value : Word) (s : State) : Result :=
  unlessFatal s (
    if appendOperandsLegal width value = false then refuse .invalidArgument s
    else if appendFits s.bb width = false then refuse .boundsError s
    else appendAndAnswer (msbFirst width value) s)

/-- The first `nbits` bits of the bytes from `src` (R147). -/
def payloadBits (s : State) (src nbits : Nat) : List Bool :=
  (List.range nbits).map (seqBit (fun k => readByte s (src + k)))

/-- BBAPPM src, nbits (R147). -/
def execBbappm (src nbits : Nat) (s : State) : Result :=
  unlessFatal s (
    if rangeFits src (bytesFor nbits) = false then refuse .boundsError s
    else if appendFits s.bb nbits = false then refuse .boundsError s
    else appendAndAnswer (payloadBits s src nbits) s)

/-- The `ceil(BBLEN/8)` bytes of the content (R149). -/
def builderBytes (bb : Builder) : List Byte := (List.range (bytesFor bb.bblen.toNat)).map (readAt bb.bitbuf 0)

/-- BBTOB dst (R149). -/
def execBbtob (dst : Nat) (s : State) : Result :=
  unlessFatal s (
    if rangeFits dst (bytesFor s.bb.bblen.toNat) = false then refuse .boundsError s
    else respond (BitVec.ofNat 32 (bytesFor s.bb.bblen.toNat)) (writeRange s dst (builderBytes s.bb)))

end Sys2Proof.Machine
end

