-- ==== Sys2Proof/Machine/Patterns.lean ====
section
/-! DEFINITION. The matrix engine, part 1: MXNEW, MXFUNC, MXFMT, MXCW (spec/44_matrix_patterns.md). -/

namespace Sys2Proof.Machine

/-! ### Drawing function cells -/

/-- One `SetFunction(x, y, v)` still to be done: column, row, colour (R200). -/
abbrev CellWrite := Nat × Nat × Bool

/-- `SetFunction(x, y, v)` (R200): the one way a function cell is drawn. -/
def setFunction (mx : Matrix) (c : CellWrite) : Matrix :=
  { mx with modules := mx.modules.put c.1 c.2.1 c.2.2, isfunc := mx.isfunc.put c.1 c.2.1 true }

/-- The cells drawn one after another; the last value drawn stands (R200). -/
def drawCells (mx : Matrix) (cells : List CellWrite) : Matrix := cells.foldl setFunction mx

/-- `cheb(dx, dy)` (R15). -/
def cheb (dx dy : Int) : Nat := max dx.natAbs dy.natAbs

/-- The offsets −r .. r, in order. -/
def offsets (r : Nat) : List Int := (List.range (2 * r + 1)).map (fun k : Nat => (k : Int) - (r : Int))

/-- `DrawTiming()` (R204). -/
def timingCells (size : Nat) : List CellWrite :=
  (List.range size).flatMap (fun i => [(6, i, i % 2 == 0), (i, 6, i % 2 == 0)])

/-- `DrawFinder(cx, cy)` (R205): the 9 × 9 square clipped to the grid. -/
def finderCells (size : Nat) (cx cy : Int) : List CellWrite :=
  (offsets 4).flatMap (fun dy => (offsets 4).filterMap (fun dx =>
    if inSymbol size (cx + dx) && inSymbol size (cy + dy) then
      some ((cx + dx).toNat, (cy + dy).toNat, cheb dx dy != 2 && cheb dx dy != 4)
    else none))

/-- `step` of R206. -/
def alignStep (ver n : Nat) : Nat := if ver = 32 then 26 else ((ver * 4 + n * 2 + 1) / (2 * n - 2)) * 2

/-- `AlignPos(version)` (R206): 6, then the positions that count down from `ver*4 + 10` in `step`s, in ascending order. -/
def alignPos (ver : Nat) : List Nat :=
  if ver = 1 then []
  else
    6 :: (List.range (ver / 7 + 1)).map (fun k => ver * 4 + 10 - (ver / 7 - k) * alignStep ver (ver / 7 + 2))

/-- `DrawAlignment(cx, cy)` (R208). -/
def alignmentCells (cx cy : Nat) : List CellWrite :=
  (offsets 2).flatMap (fun dy => (offsets 2).map (fun dx =>
    (((cx : Int) + dx).toNat, ((cy : Int) + dy).toNat, cheb dx dy != 1)))

/-- The three pairs of positions that fall on a finder pattern (R208). -/
def alignSkipped (n i j : Nat) : Bool :=
  (i == 0 && j == 0) || (i == 0 && j == n - 1) || (i == n - 1 && j == 0)

/-- `DrawAlignments()` (R208). -/
def alignmentsCells (ver : Nat) : List CellWrite :=
  (List.range (alignPos ver).length).flatMap (fun i => (List.range (alignPos ver).length).flatMap (fun j =>
    if alignSkipped (alignPos ver).length i j then []
    else alignmentCells ((alignPos ver).getD i 0) ((alignPos ver).getD j 0)))

/-- `k` shift-XOR rounds of a polynomial remainder of degree `deg` (R211, R215):
`rem <- (rem << 1) ^ ((rem >> (deg−1)) * poly)`. -/
def bchRounds (deg poly : Nat) : Nat → Nat → Nat
  | 0, rem => rem
  | k + 1, rem => bchRounds deg poly k ((rem <<< 1) ^^^ ((rem >>> (deg - 1)) * poly))

/-- `VersionWord(v)` (R211). -/
def versionWord (v : Nat) : Nat := (v <<< 12) ||| bchRounds 12 0x1F25 12 v

/-- `DrawVersion()` (R210), nothing below version 7. -/
def versionCells (size ver : Nat) : List CellWrite :=
  if ver < 7 then []
  else (List.range 18).flatMap (fun i =>
    [(size - 11 + i % 3, i / 3, (versionWord ver).testBit i),
     (i / 3, size - 11 + i % 3, (versionWord ver).testBit i)])

/-- `data` of R215: `(ECL_FORMAT_BITS[ecl] << 3) | m`. -/
def formatData (ecl m : Nat) : Nat := (Config.eclFormatBits.getD ecl 0 <<< 3) ||| m

/-- `FormatWord(ecl, m)` (R215). -/
def formatWord (ecl m : Nat) : Nat :=
  ((formatData ecl m <<< 10) ||| bchRounds 10 0x537 10 (formatData ecl m)) ^^^ 0x5412

/-- `DrawFormat` of the word `w` (R217): the first copy around the top-left finder, the second copy split between the
top-right and the bottom-left corner, the always-dark cell. -/
def formatCells (size w : Nat) : List CellWrite :=
  (List.range 6).map (fun i => (8, i, w.testBit i)) ++
  [(8, 7, w.testBit 6), (8, 8, w.testBit 7), (7, 8, w.testBit 8)] ++
  (List.range 6).map (fun k => (5 - k, 8, w.testBit (9 + k))) ++
  (List.range 8).map (fun i => (size - 1 - i, 8, w.testBit i)) ++
  (List.range 7).map (fun k => (8, size - 7 + k, w.testBit (8 + k))) ++
  [(8, size - 8, true)]

/-- `DrawFormat(m)` for the symbol's level (R217). -/
def drawFormat (mx : Matrix) (m : Nat) : Matrix :=
  drawCells mx (formatCells mx.size.toNat (formatWord mx.ecl.toNat m))

/-- The seven drawing steps of MXFUNC, in the rule's order (R203). -/
def functionCells (size ver ecl : Nat) : List CellWrite :=
  timingCells size ++ finderCells size 3 3 ++ finderCells size ((size : Int) - 4) 3 ++
    finderCells size 3 ((size : Int) - 4) ++ alignmentsCells ver ++ formatCells size (formatWord ecl 0) ++
    versionCells size ver

/-- Every function pattern drawn (R203). -/
def drawFunctionPatterns (mx : Matrix) : Matrix :=
  drawCells mx (functionCells mx.size.toNat mx.version.toNat mx.ecl.toNat)

/-- `NFREE()` (R213): the cells of the symbol with `ISFUNC = 0`. -/
def nfree (mx : Matrix) : Nat := (symbolCells mx.size.toNat).countP (fun c => !mx.isfunc.cell c.1 c.2)

/-! ### The codeword scan -/

/-- The right columns of the pairs (R220, R221): from `right` down in twos while `right >= 1`, 6 replaced by 5. -/
def scanRights : Nat → Nat → List Nat
  | 0, _ => []
  | fuel + 1, right =>
    if right < 1 then []
    else if right = 6 then 5 :: scanRights fuel (5 - 2)
    else right :: scanRights fuel (right - 2)

/-- The direction of a pair (R220): `((right + 1) & 2) = 0` is upward. -/
def scanUpward (right : Nat) : Bool := (right + 1) &&& 2 == 0

/-- The cells of one pair in the order of the scan (R220): row by row, the right cell before the left. -/
def scanPair (size right : Nat) : List (Nat × Nat) :=
  (List.range size).flatMap (fun vert =>
    [(right, if scanUpward right then size - 1 - vert else vert),
     (right - 1, if scanUpward right then size - 1 - vert else vert)])

/-- All cells of the scan in order (R220, R221). -/
def scanOrder (size : Nat) : List (Nat × Nat) := (scanRights size (size - 1)).flatMap (scanPair size)

/-- The scan at one cell (R220): a free cell takes the next bit while bits are left. -/
def placeBit (isfunc : Grid) (bit : Nat → Bool) (nbits : Nat) (acc : Grid × Nat) (c : Nat × Nat) : Grid × Nat :=
  if isfunc.cell c.1 c.2 = false ∧ acc.2 < nbits then (acc.1.put c.1 c.2 (bit acc.2), acc.2 + 1) else acc

/-- The grid after the scan and the number of bits placed (R220). -/
def placeBits (mx : Matrix) (bit : Nat → Bool) (nbits : Nat) : Grid × Nat :=
  (scanOrder mx.size.toNat).foldl (placeBit mx.isfunc bit nbits) (mx.modules, 0)

/-! ### The commands -/

/-- The matrix state after MXNEW (R201). -/
def newSymbol (version level : Nat) : Matrix :=
  { Matrix.reset with
    phase := .alloc
    version := BitVec.ofNat 6 version
    size := BitVec.ofNat 8 (Config.sizeOf version)
    ecl := BitVec.ofNat 2 level }

/-- MXNEW version, level (R201). -/
def execMxnew (version level : Nat) (s : State) : Result :=
  unlessFatal s (
    if version < Config.versionMin ∨ version > Config.versionMax then refuse .invalidArgument s
    else if level > 3 then refuse .invalidArgument s
    else respond (BitVec.ofNat 32 (Config.sizeOf version)) { s with mx := newSymbol version level })

/-- The matrix state after MXFUNC (R203). -/
def withPatterns (mx : Matrix) : Matrix := { drawFunctionPatterns mx with phase := .patterns }

/-- MXFUNC (R203). -/
def execMxfunc (s : State) : Result :=
  unlessFatal s (
    if s.mx.phase ≠ .alloc then refuse .sequenceError s
    else respond (BitVec.ofNat 32 (nfree (withPatterns s.mx))) { s with mx := withPatterns s.mx })

/-- MXFMT m (R214). -/
def execMxfmt (m : Nat) (s : State) : Result :=
  unlessFatal s (
    if s.mx.phase ≠ .data then refuse .sequenceError s
    else if maskLegal m = false then refuse .invalidArgument s
    else respond (BitVec.ofNat 32 (formatWord s.mx.ecl.toNat m)) { s with mx := drawFormat s.mx m })

/-- Bit `i` of the codewords from `src` (R220, R224). -/
def codewordBit (s : State) (src : Nat) (i : Nat) : Bool := seqBit (fun k => readByte s (src + k)) i

/-- MXCW's work and its last test (R220), when `placed` is the scan's outcome: if the bits placed are not `8*count` the
command is refused with `InternalConsistencyFault`, the bits placed so far standing in the grid and the phase still
PATTERNS (R344, U12; log 9); else the phase becomes DATA. -/
def finishCodewords (placed : Grid × Nat) (count : Nat) (s : State) : State :=
  if placed.2 ≠ 8 * count then
    refuse .internalConsistencyFault { s with mx := { s.mx with modules := placed.1 } }
  else respond (BitVec.ofNat 32 placed.2) { s with mx := { s.mx with modules := placed.1, phase := .data } }

/-- MXCW src, count (R220). -/
def execMxcw (src count : Nat) (s : State) : Result :=
  unlessFatal s (
    if s.mx.phase ≠ .patterns then refuse .sequenceError s
    else if count ≠ nfree s.mx / 8 then refuse .invalidArgument s
    else if rangeFits src count = false then refuse .boundsError s
    else finishCodewords (placeBits s.mx (codewordBit s src) (8 * count)) count s)

end Sys2Proof.Machine
end

