-- ==== Sys2Proof/Machine/Masking.lean ====
section
/-! DEFINITION. The matrix engine, part 2: MXMASK, MXPEN, MXSEL, MXRD, MXPEEK (spec/45_matrix_masking.md). -/

namespace Sys2Proof.Machine

/-! ### Masks -/

/-- `MaskPred(m, x, y)` for m in 0..7 (R250). There is no mask above 7; every command tests its operand first. -/
def maskPred (m x y : Nat) : Bool :=
  match m with
  | 0 => (x + y) % 2 == 0
  | 1 => y % 2 == 0
  | 2 => x % 3 == 0
  | 3 => (x + y) % 3 == 0
  | 4 => (x / 3 + y / 2) % 2 == 0
  | 5 => (x * y) % 2 + (x * y) % 3 == 0
  | 6 => ((x * y) % 2 + (x * y) % 3) % 2 == 0
  | 7 => ((x + y) % 2 + (x * y) % 3) % 2 == 0
  | _ => false

/-- Whether `ApplyMask(m)` flips the cell (R251): it lies in the symbol, is no function cell and satisfies the
predicate. -/
def maskFlips (mx : Matrix) (m x y : Nat) : Bool :=
  decide (x < mx.size.toNat) && decide (y < mx.size.toNat) && !mx.isfunc.cell x y && maskPred m x y

/-- `ApplyMask(m)` (R251); the order of the two loops does not matter, each new value depends on its cell alone. -/
def applyMask (mx : Matrix) (m : Nat) : Matrix :=
  { mx with modules := Grid.build (fun x y => mx.modules.cell x y ^^ maskFlips mx m x y) }

/-! ### The penalty score -/

/-- The four components (R255). -/
structure Penalty where
  n1 : Nat
  n2 : Nat
  n3 : Nat
  n4 : Nat
deriving DecidableEq, Repr

/-- `total = n1 + n2 + n3 + n4` (R255). -/
def Penalty.total (p : Penalty) : Nat := p.n1 + p.n2 + p.n3 + p.n4

/-- Row `y` of the symbol, cells (0,y) .. (SIZE−1,y) (R256). -/
def rowLine (g : Grid) (size y : Nat) : List Bool := (List.range size).map (fun x => g.cell x y)

/-- Column `x` of the symbol, cells (x,0) .. (x,SIZE−1) (R256). -/
def columnLine (g : Grid) (size x : Nat) : List Bool := (List.range size).map (fun y => g.cell x y)

/-- The 2·SIZE lines (R256). -/
def symbolLines (g : Grid) (size : Nat) : List (List Bool) :=
  (List.range size).map (rowLine g size) ++ (List.range size).map (columnLine g size)

/-- What a run that has just become `run` cells long adds (R256): 3 at five, 1 beyond. -/
def runAdds (run : Nat) : Nat := if run = 5 then 3 else if run > 5 then 1 else 0

/-- R256's loop over the rest of a line, after a cell `prev` that ends a run of `run` cells. -/
def n1From (prev : Bool) (run : Nat) : List Bool → Nat
  | [] => 0
  | c :: rest => if c = prev then runAdds (run + 1) + n1From prev (run + 1) rest else n1From c 1 rest

/-- R256 for one line. -/
def n1Line : List Bool → Nat
  | [] => 0
  | c :: rest => n1From c 1 rest

/-- `N1()` (R256). -/
def penaltyN1 (g : Grid) (size : Nat) : Nat := ((symbolLines g size).map n1Line).sum

/-- The 2 × 2 block at (x, y) is of one colour (R257). -/
def uniformBlock (g : Grid) (x y : Nat) : Bool :=
  g.cell (x + 1) y == g.cell x y && g.cell x (y + 1) == g.cell x y && g.cell (x + 1) (y + 1) == g.cell x y

/-- `N2()` (R257). -/
def penaltyN2 (g : Grid) (size : Nat) : Nat :=
  3 * ((List.range (size - 1)).map (fun y => (List.range (size - 1)).countP (fun x => uniformBlock g x y))).sum

/-- The number a window reads as, its first cell the most significant digit (R258). -/
def windowWord (w : List Bool) : Nat := w.foldl (fun acc c => (acc <<< 1) ||| bit01 c) 0

/-- The 11-cell window that starts at `start` matches one of the two patterns (R258). -/
def finderLike (line : List Bool) (start : Nat) : Bool :=
  windowWord ((line.drop start).take 11) == 0x5D0 || windowWord ((line.drop start).take 11) == 0x05D

/-- R258 for one line of `size` cells: the windows that lie wholly inside. -/
def n3Line (size : Nat) (line : List Bool) : Nat := 40 * (List.range (size - 10)).countP (finderLike line)

/-- `N3()` (R258). -/
def penaltyN3 (g : Grid) (size : Nat) : Nat := ((symbolLines g size).map (n3Line size)).sum

/-- The dark cells of the symbol (R259). -/
def darkCount (g : Grid) (size : Nat) : Nat := (symbolCells size).countP (fun c => g.cell c.1 c.2)

/-- The dark ratio lies in the band of step `k`: `(9−k)*total <= 20*dark <= (11+k)*total` (R259). -/
def inBand (dark total k : Nat) : Bool := decide ((9 - k) * total ≤ 20 * dark) && decide (20 * dark ≤ (11 + k) * total)

/-- The smallest `k` whose band holds the ratio; it never exceeds 9 (R259). -/
def bandStep (dark total : Nat) : Nat := ((List.range 10).find? (inBand dark total)).getD 9

/-- `N4()` (R259). -/
def penaltyN4 (g : Grid) (size : Nat) : Nat := 10 * bandStep (darkCount g size) (size * size)

/-- `Penalty()` (R260): a function of `MODULES` and `SIZE` alone. -/
def penalty (g : Grid) (size : Nat) : Penalty := ⟨penaltyN1 g size, penaltyN2 g size, penaltyN3 g size, penaltyN4 g size⟩

/-- The five penalty registers written (R262, R266); 32 bits hold every value (R263). -/
def withPenalty (mx : Matrix) (p : Penalty) : Matrix :=
  { mx with
    penTotal := BitVec.ofNat 32 p.total
    penN1 := BitVec.ofNat 32 p.n1
    penN2 := BitVec.ofNat 32 p.n2
    penN3 := BitVec.ofNat 32 p.n3
    penN4 := BitVec.ofNat 32 p.n4 }

/-- The grid as it stands scored into the registers (R262). -/
def scored (mx : Matrix) : Matrix := withPenalty mx (penalty mx.modules mx.size.toNat)

/-! ### Selection -/

/-- The grid of one trial (R266): format word and mask `m` drawn. -/
def trialGrid (mx : Matrix) (m : Nat) : Matrix := applyMask (drawFormat mx m) m

/-- What R266's loop carries: the grid, and the best index and score so far. -/
structure Selection where
  mx : Matrix
  best : Nat
  bestScore : Nat
deriving DecidableEq, Repr

/-- One round of R266's loop: draw, mask, score, keep if first or strictly lower, unmask. -/
def trialRound (sel : Selection) (m : Nat) : Selection :=
  let masked := trialGrid sel.mx m
  let t := (penalty masked.modules masked.size.toNat).total
  let unmasked := applyMask masked m
  if m = 0 ∨ t < sel.bestScore then ⟨unmasked, m, t⟩ else ⟨unmasked, sel.best, sel.bestScore⟩

/-- The whole trial loop (R266), m from 0 to 7. -/
def trialLoop (mx : Matrix) : Selection := (List.range 8).foldl trialRound ⟨mx, 0, 0⟩

/-- The grid and the chosen mask before the permanent application (R266). -/
def chooseMask (mx : Matrix) : MaskRequest → Matrix × Nat
  | .auto => ((trialLoop mx).mx, (trialLoop mx).best)
  | .forced m => (mx, m)

/-- The finished symbol (R266): the format word redrawn, the mask applied for good, the grid scored. -/
def finishSymbol (mx : Matrix) (chosen : Nat) : Matrix :=
  { scored (trialGrid mx chosen) with mask := BitVec.ofNat 4 chosen, phase := .final }

/-! ### The commands -/

/-- `TRIAL` after a toggle with `m` (R252). -/
def toggledTrial (trial : BitVec 4) (m : Nat) : BitVec 4 := if trial.toNat = m then 8 else BitVec.ofNat 4 m

/-- The matrix state after MXMASK (R252). -/
def toggleMask (mx : Matrix) (m : Nat) : Matrix := { applyMask mx m with trial := toggledTrial mx.trial m }

/-- MXMASK m (R252), its tests in the rule's own order. -/
def execMxmask (m : Nat) (s : State) : Result :=
  unlessFatal s (
    if s.mx.phase ≠ .data then refuse .sequenceError s
    else if maskLegal m = false then refuse .invalidArgument s
    else if s.mx.trial.toNat ≠ 8 ∧ s.mx.trial.toNat ≠ m then refuse .sequenceError s
    else respond ((toggledTrial s.mx.trial m).setWidth 32) { s with mx := toggleMask s.mx m })

/-- MXPEN (R262). -/
def execMxpen (s : State) : Result :=
  unlessFatal s (
    if s.mx.phase ≠ .data ∧ s.mx.phase ≠ .final then refuse .sequenceError s
    else respond (scored s.mx).penTotal { s with mx := scored s.mx })

/-- MXSEL's work (R266), when `choice` is the grid and mask chosen. -/
def selectAndAnswer (choice : Matrix × Nat) (s : State) : State :=
  respond (BitVec.ofNat 32 choice.2) { s with mx := finishSymbol choice.1 choice.2 }

/-- MXSEL req (R266). -/
def execMxsel (req : MaskRequest) (s : State) : Result :=
  unlessFatal s (
    if s.mx.phase ≠ .data ∨ s.mx.trial.toNat ≠ 8 then refuse .sequenceError s
    else if requestLegal req = false then refuse .invalidArgument s
    else selectAndAnswer (chooseMask s.mx req) s)

/-- `moduleAt(x, y)` (R270): 0 outside the symbol. -/
def moduleAt (mx : Matrix) (x y : Int) : Nat :=
  if inSymbol mx.size.toNat x && inSymbol mx.size.toNat y then bit01 (mx.modules.cell x.toNat y.toNat) else 0

/-- Module colour in bit 0, function flag in bit 1 (R272): 0 outside the symbol. -/
def peekAt (mx : Matrix) (x y : Int) : Nat :=
  if inSymbol mx.size.toNat x && inSymbol mx.size.toNat y then
    bit01 (mx.modules.cell x.toNat y.toNat) ||| (bit01 (mx.isfunc.cell x.toNat y.toNat) <<< 1)
  else 0

/-- MXRD x, y (R270). -/
def execMxrd (x y : Int) (s : State) : Result :=
  unlessFatal s (
    if s.mx.phase ≠ .final then refuse .sequenceError s
    else respond (BitVec.ofNat 32 (moduleAt s.mx x y)) s)

/-- MXPEEK x, y (R272). -/
def execMxpeek (x y : Int) (s : State) : Result :=
  unlessFatal s (
    if s.mx.phase = .idle then refuse .sequenceError s
    else respond (BitVec.ofNat 32 (peekAt s.mx x y)) s)

end Sys2Proof.Machine
end

