-- ==== Sys2Proof/Machine/Galois.lean ====
section
/-! DEFINITION. The field GF(256) and GFMUL (spec/42_galois_field.md). -/

namespace Sys2Proof.Machine

/-- `(z << 1) ^ ((z >> 7) * 0x11D)` (R162): multiply by the polynomial x, reduce if bit 8 appeared. -/
def timesX (z : Byte) : Byte :=
  (((z.setWidth 9) <<< 1) ^^^ (if z.getLsbD 7 then Config.gfPoly else 0)).setWidth 8

/-- One iteration of R162's loop, for bit `i` of `y`. -/
def gfStep (x y z : Byte) (i : Nat) : Byte := timesX z ^^^ (if y.getLsbD i then x else 0)

/-- `gfmul(x, y)` (R162): the loop over the bits of `y` from 7 down to 0. -/
def gfmul (x y : Byte) : Byte := [7, 6, 5, 4, 3, 2, 1, 0].foldl (gfStep x y) 0

/-- GFMUL x, y (R163). -/
def execGfmul (x y : Nat) (s : State) : Result :=
  unlessFatal s (
    if x > 255 ∨ y > 255 then refuse .invalidArgument s
    else respond ((gfmul (BitVec.ofNat 8 x) (BitVec.ofNat 8 y)).setWidth 32) s)

end Sys2Proof.Machine
end

