-- ==== Sys2Proof/Machine/ReedSolomon.lean ====
section
/-! DEFINITION. The Reed-Solomon generator: RSINIT, RSRDC, RSREM (spec/43_reed_solomon.md). -/

namespace Sys2Proof.Machine

/-- One pass of R177's inner loop: `c[j] <- gfmul(c[j], root)`, and `^ c[j+1]` (still the old value) where there is one;
the product by `(x − root)` with the leading term dropped (R178). -/
def timesRoot (root : Byte) : List Byte → List Byte
  | [] => []
  | [c] => [gfmul c root]
  | c :: d :: rest => (gfmul c root ^^^ d) :: timesRoot root (d :: rest)

/-- The outer loop of R177: `rounds` passes, the root doubled after each. -/
def divisorRounds : Nat → Byte → List Byte → List Byte
  | 0, _, c => c
  | rounds + 1, root, c => divisorRounds rounds (gfmul root 2) (timesRoot root c)

/-- The `d` coefficients of the divisor polynomial of degree `d` (R176, R177), for `d >= 1`: from the polynomial 1 in the
low end of a `d`-entry vector, the product by `(x − 2^i)` for i = 0 .. d−1. -/
def divisor (d : Nat) : List Byte := divisorRounds d 1 (List.replicate (d - 1) 0 ++ [1])

/-- `DIV` and `RSDEG` after RSINIT (R177): `DIV[j]` is 0 for `j >= d`. -/
def generator (d : Nat) : RsGen where
  rsdeg := BitVec.ofNat 8 d
  div := tabulate Config.rsMaxDegree (fun j => (divisor d).getD j 0)

/-- RSINIT degree (R177). -/
def execRsinit (degree : Nat) (s : State) : Result :=
  unlessFatal s (
    if degree < 1 ∨ degree > Config.rsMaxDegree then refuse .invalidArgument s
    else respond (BitVec.ofNat 32 degree) { s with rs := generator degree })

/-- RSRDC i (R180). -/
def execRsrdc (i : Nat) (s : State) : Result :=
  unlessFatal s (
    if s.rs.rsdeg.toNat = 0 then refuse .sequenceError s
    else if i ≥ s.rs.rsdeg.toNat then refuse .invalidArgument s
    else respond ((readAt s.rs.div 0 i).setWidth 32) s)

/-- `DIV[0 .. RSDEG−1]` (R28). -/
def divCoefficients (rs : RsGen) : List Byte := (List.range rs.rsdeg.toNat).map (readAt rs.div 0)

/-- One data byte through the shift register (R182): the factor, the shift toward index 0, and `gfmul(DIV[i], factor)`
added at each position. -/
def remainderStep (div rem : List Byte) (byte : Byte) : List Byte :=
  List.zipWith (fun r c => r ^^^ gfmul c (byte ^^^ rem.headD 0)) (rem.tail ++ [0]) div

/-- The remainder of the data (R181, R182): the shift register starts at zero and takes the bytes in order. -/
def remainder (div data : List Byte) : List Byte := data.foldl (remainderStep div) (List.replicate div.length 0)

/-- RSREM src, len, dst (R182): all source bytes are read before a destination byte is written (R66). -/
def execRsrem (src len dst : Nat) (s : State) : Result :=
  unlessFatal s (
    if s.rs.rsdeg.toNat = 0 then refuse .sequenceError s
    else if rangeFits src len = false then refuse .boundsError s
    else if rangeFits dst s.rs.rsdeg.toNat = false then refuse .boundsError s
    else respond (s.rs.rsdeg.setWidth 32)
      (writeRange s dst (remainder (divCoefficients s.rs) (readRange s src len))))

end Sys2Proof.Machine
end

