-- ==== Sys2Proof/Machine/System.lean ====
section
/-! DEFINITION. RESET, RDCR, LDB, STB (spec/40_system_commands.md). -/

namespace Sys2Proof.Machine

/-- RESET (R120): legal always, `FATAL` or not (R342 step 2). -/
def execReset (s : State) : Result := .next (respond 0 (resetBlock s))

/-- RDCR n (R122): legal always, `FATAL` or not (R342 step 3). -/
def execRdcr (n : Nat) (s : State) : Result :=
  .next (if n ≥ Config.nCR then refuse .invalidArgument s else respond (controlRegister s n) s)

/-- LDB addr (R124). -/
def execLdb (addr : Nat) (s : State) : Result :=
  unlessFatal s (
    if addr ≥ Config.dmemSize then refuse .boundsError s
    else respond ((readByte s addr).setWidth 32) s)

/-- STB addr, v (R126). -/
def execStb (addr : Nat) (v : Byte) (s : State) : Result :=
  unlessFatal s (
    if addr ≥ Config.dmemSize then refuse .boundsError s
    else respond 0 (writeByte s addr v))

end Sys2Proof.Machine
end

