-- ==== Sys2Proof/Machine/Dispatch.lean ====
section
/-! DEFINITION. The meaning of each command, one arm each (spec/30_encoding.md R89). -/

namespace Sys2Proof.Machine

def exec (i : Instr) (s : State) : Host.Outcome State Fault Refusal :=
  match i with
  | .reset => Sys2Proof.Machine.execReset s
  | .rdcr n => Sys2Proof.Machine.execRdcr n s
  | .ldb addr => Sys2Proof.Machine.execLdb addr s
  | .stb addr v => Sys2Proof.Machine.execStb addr v s
  | .gfmul x y => Sys2Proof.Machine.execGfmul x y s
  | .rsinit degree => Sys2Proof.Machine.execRsinit degree s
  | .rsrdc k => Sys2Proof.Machine.execRsrdc k s
  | .rsrem src len dst => Sys2Proof.Machine.execRsrem src len dst s
  | .bbnew => Sys2Proof.Machine.execBbnew s
  | .bblen => Sys2Proof.Machine.execBblen s
  | .bbapp width value => Sys2Proof.Machine.execBbapp width value s
  | .bbappm src nbits => Sys2Proof.Machine.execBbappm src nbits s
  | .bbtob dst => Sys2Proof.Machine.execBbtob dst s
  | .mxnew version level => Sys2Proof.Machine.execMxnew version level s
  | .mxfunc => Sys2Proof.Machine.execMxfunc s
  | .mxcw src count => Sys2Proof.Machine.execMxcw src count s
  | .mxfmt m => Sys2Proof.Machine.execMxfmt m s
  | .mxmask m => Sys2Proof.Machine.execMxmask m s
  | .mxpen => Sys2Proof.Machine.execMxpen s
  | .mxsel req => Sys2Proof.Machine.execMxsel req s
  | .mxrd x y => Sys2Proof.Machine.execMxrd x y s
  | .mxpeek x y => Sys2Proof.Machine.execMxpeek x y s

end Sys2Proof.Machine
end

