-- ==== Sys2Proof/Machine/Step.lean ====
section
/-! DEFINITION. One step: the next input of the port is taken and executed (spec/60_exceptions.md R342, spec/70 R381). -/

namespace Sys2Proof.Machine

/-- `Execute(w)` (R342): an illegal word is refused, a legal one executed. -/
def execute (w : Cmd) (s : State) : Host.Outcome State Fault Refusal :=
  match Sys2Proof.decode w with
  | .error _ => .next (illegalWord s)
  | .ok i => exec i s

/-- One input: a command word is executed, the reset input resets (R381). -/
def runInput (i : Input) (s : State) : Host.Outcome State Fault Refusal :=
  match i with
  | .hardReset => .next (hardReset s)
  | .command w => execute w s

/-- One step. With nothing presented the block holds its state (R355, R381; log 1). -/
def step (s : State) : Host.Outcome State Fault Refusal :=
  match takeInput s with
  | none => .next s
  | some (i, t) => runInput i t

/-- The state with the word of an opcode-table row presented as the very next input (log 3): `nbits` is 64 for every row
and the word is one unit (R85). -/
def State.withFetchWord (s : State) (nbits w : Nat) : State := present (BitVec.ofNat 64 (w % 2 ^ nbits)) s

end Sys2Proof.Machine
end

