-- ==== Sys2Proof/Machine/Assembler.lean ====
section
/-! DEFINITION. The assembler syntax of spec/30_encoding.md R96 and the pseudo-commands of R97, over lists of characters. -/

namespace Sys2Proof.Machine

/-- What an operand's text denotes (R96): a number without sign, or the number after a minus sign. -/
inductive OperandText where
  | number (n : Nat)
  | negative (n : Nat)
deriving DecidableEq, Repr

/-- The line up to its comment, which runs from `;` to the end of the line (R96). -/
def withoutComment (line : List Char) : List Char := line.takeWhile (fun c => c != ';')

/-- A separator inside a line (log 15). -/
def isBlank (c : Char) : Bool := c == ' ' || c == '\t' || c == '\r'

/-- The text without blanks at either end. -/
def trimmed (cs : List Char) : List Char := ((cs.dropWhile isBlank).reverse.dropWhile isBlank).reverse

/-- The text cut at every comma (R96: operands are separated by commas). -/
def splitCommas : List Char → List (List Char)
  | [] => [[]]
  | c :: rest =>
    if c = ',' then [] :: splitCommas rest
    else
      match splitCommas rest with
      | [] => [[c]]
      | w :: ws => (c :: w) :: ws

/-- The hexadecimal digits in the order of their values, the ten decimal ones first (R96). -/
def hexDigits : List Char := "0123456789ABCDEF".toList

/-- The value of a digit is its place among the digits; letters in either case (log 15). -/
def digitValue (c : Char) : Option Nat := hexDigits.idxOf? c.toUpper

/-- The digits read on from the value `acc`; none at a character that is no digit of the base. -/
def readDigits (base : Nat) : Nat → List Char → Option Nat
  | acc, [] => some acc
  | acc, c :: rest =>
    match digitValue c with
    | none => none
    | some d => if d < base then readDigits base (acc * base + d) rest else none

/-- A number, decimal or `0x` hexadecimal (R96). -/
def readNumber : List Char → Option Nat
  | [] => none
  | '0' :: 'x' :: [] => none
  | '0' :: 'x' :: digits => readDigits 16 0 digits
  | digits => readDigits 10 0 digits

/-- The ordinal of a level name (R96). -/
def levelName (word : List Char) : Option Nat :=
  if word = "LOW".toList then some 0
  else if word = "MEDIUM".toList then some 1
  else if word = "QUARTILE".toList then some 2
  else if word = "HIGH".toList then some 3
  else none

/-- One operand: a number, or a number after a minus sign (ASCII or U+2212, log 15). -/
def readOperand : List Char → Option OperandText
  | '-' :: digits => (readNumber digits).map OperandText.negative
  | '−' :: digits => (readNumber digits).map OperandText.negative
  | digits => (readNumber digits).map OperandText.number

/-- MXNEW's second operand: a level name or a number (R96). -/
def readLevel (word : List Char) : Option OperandText :=
  match levelName word with
  | some l => some (.number l)
  | none => readOperand word

/-- The signed value of a coordinate's text (R96: negative coordinates are accepted for MXRD and MXPEEK only). -/
def OperandText.toInt : OperandText → Int
  | .number n => n
  | .negative n => -(n : Int)

/-- MXSEL's operand (R96): −1 is the only negative number accepted, and the pattern of 32 ones is the same request. -/
def requestOfText : OperandText → Option MaskRequest
  | .number n => some (maskRequest n)
  | .negative 1 => some .auto
  | .negative _ => none

/-- The byte with this value; none above 255, the field `a` is 8 bits (R86). -/
def byteOfNat (v : Nat) : Option Byte := if v < 256 then some (BitVec.ofNat 8 v) else none

/-- The 32-bit value; none if it does not fit `imm` (R86). -/
def wordOfNat (v : Nat) : Option Word := if v < 2 ^ 32 then some (BitVec.ofNat 32 v) else none

/-- The commands of R96's table from a mnemonic and the operands in the table's order. -/
def commandOf (mnemonic : Mnemonic) (ops : List OperandText) : Option Instr :=
  match mnemonic, ops with
  | .RESET, [] => some .reset
  | .RDCR, [.number n] => some (.rdcr n)
  | .LDB, [.number addr] => some (.ldb addr)
  | .STB, [.number addr, .number v] => (byteOfNat v).map (Instr.stb addr)
  | .GFMUL, [.number x, .number y] => some (.gfmul x y)
  | .RSINIT, [.number degree] => some (.rsinit degree)
  | .RSRDC, [.number i] => some (.rsrdc i)
  | .RSREM, [.number src, .number len, .number dst] => some (.rsrem src len dst)
  | .BBNEW, [] => some .bbnew
  | .BBLEN, [] => some .bblen
  | .BBAPP, [.number width, .number v] => (wordOfNat v).map (Instr.bbapp width)
  | .BBAPPM, [.number src, .number nbits] => some (.bbappm src nbits)
  | .BBTOB, [.number dst] => some (.bbtob dst)
  | .MXNEW, [.number version, .number level] => some (.mxnew version level)
  | .MXFUNC, [] => some .mxfunc
  | .MXCW, [.number src, .number count] => some (.mxcw src count)
  | .MXFMT, [.number m] => some (.mxfmt m)
  | .MXMASK, [.number m] => some (.mxmask m)
  | .MXPEN, [] => some .mxpen
  | .MXSEL, [m] => (requestOfText m).map Instr.mxsel
  | .MXRD, [x, y] => some (.mxrd x.toInt y.toInt)
  | .MXPEEK, [x, y] => some (.mxpeek x.toInt y.toInt)
  | _, _ => none

/-- The pseudo-commands (R97). -/
inductive Pseudo where
  | BBAPPB
  | BBZERO
  | MXAUTO
  | MXFORCE
deriving DecidableEq, Repr

/-- The one command a pseudo-command stands for (R97). DESIGN CHOICE (log 17): an operand outside the range of R97's column
"use" is expanded like any other, so `BBZERO 33` is `BBAPP 33, 0`, which the block refuses, and `MXFORCE −1` is `MXSEL −1`. -/
def expand (pseudo : Pseudo) (ops : List OperandText) : Option Instr :=
  match pseudo, ops with
  | .BBAPPB, [v] => commandOf .BBAPP [.number 8, v]
  | .BBZERO, [n] => commandOf .BBAPP [n, .number 0]
  | .MXAUTO, [] => commandOf .MXSEL [.negative 1]
  | .MXFORCE, [m] => commandOf .MXSEL [m]
  | _, _ => none

/-- The mnemonics as text (R96: in capitals). -/
def mnemonicNames : List (List Char × Mnemonic) :=
  [("RESET".toList, .RESET), ("RDCR".toList, .RDCR), ("LDB".toList, .LDB), ("STB".toList, .STB),
    ("GFMUL".toList, .GFMUL)] ++
  [("RSINIT".toList, .RSINIT), ("RSRDC".toList, .RSRDC), ("RSREM".toList, .RSREM)] ++
  [("BBNEW".toList, .BBNEW), ("BBLEN".toList, .BBLEN), ("BBAPP".toList, .BBAPP), ("BBAPPM".toList, .BBAPPM),
    ("BBTOB".toList, .BBTOB)] ++
  [("MXNEW".toList, .MXNEW), ("MXFUNC".toList, .MXFUNC), ("MXCW".toList, .MXCW), ("MXFMT".toList, .MXFMT),
    ("MXMASK".toList, .MXMASK), ("MXPEN".toList, .MXPEN), ("MXSEL".toList, .MXSEL), ("MXRD".toList, .MXRD),
    ("MXPEEK".toList, .MXPEEK)]

/-- The pseudo-commands as text (R97). -/
def pseudoNames : List (List Char × Pseudo) :=
  [("BBAPPB".toList, .BBAPPB), ("BBZERO".toList, .BBZERO), ("MXAUTO".toList, .MXAUTO), ("MXFORCE".toList, .MXFORCE)]

/-- The operand texts read in order; none if one of them is no operand. Only MXNEW's second may be a level name (R96). -/
def readOperands (isMxnew : Bool) (texts : List (List Char)) : Option (List OperandText) :=
  match isMxnew, texts with
  | true, [version, level] =>
    match readOperand version, readLevel level with
    | some v, some l => some [v, l]
    | _, _ => none
  | _, texts => texts.mapM readOperand

/-- The operand texts of a line after its mnemonic; no text at all is no operand. -/
def operandTexts (rest : List Char) : List (List Char) :=
  if trimmed rest = [] then [] else (splitCommas rest).map trimmed

/-- The command a word and its operands stand for: a mnemonic of R96, else a pseudo-command of R97. -/
def readCommand (word : List Char) (texts : List (List Char)) : Option Instr :=
  match mnemonicNames.lookup word with
  | some mn => (readOperands (decide (mn = .MXNEW)) texts).bind (commandOf mn)
  | none =>
    match pseudoNames.lookup word with
    | some p => (readOperands false texts).bind (expand p)
    | none => none

/-- What a line is (R96: one command per line): empty or a comment alone, a command, or no command of the syntax. -/
inductive Line where
  | empty
  | command (w : Cmd)
  | malformed
deriving DecidableEq, Repr

/-- The line assembled (R96). An operand that does not fit its field makes the line malformed (log 15). -/
def assembleLine (line : List Char) : Line :=
  let text := trimmed (withoutComment line)
  if text = [] then .empty
  else
    match readCommand (text.takeWhile (fun c => !isBlank c)) (operandTexts (text.dropWhile (fun c => !isBlank c))) with
    | none => .malformed
    | some i => if i.wf then .command (encode i) else .malformed

end Sys2Proof.Machine
end

