-- ==== Sys2Proof/Machine/HostDriver.lean ====
section
/-! DEFINITION. The host driver of spec/50_host_driver.md: not hardware (R4), written as ordinary functions around `step`.
The block does not depend on anything here. -/

namespace Sys2Proof.Machine

/-! ### Segments -/

/-- The 45 symbols in the order of their values (R302), in three pieces. -/
def alphabet : List Char := "0123456789".toList ++ "ABCDEFGHIJKLMNOPQRSTUVWXYZ".toList ++ " $%*+-./:".toList

/-- `charValue(c)`: the position of `c` in the alphabet (R302); none for a character outside it. -/
def charValue (c : Char) : Option Nat := alphabet.findIdx? (fun a => a == c)

/-- The encoding modes (R303): only ALPHANUMERIC exists. -/
inductive Mode where
  | alphanumeric
deriving DecidableEq, Repr

/-- The 4-bit mode indicator (R306). -/
def modeIndicator : Mode → Nat
  | .alphanumeric => 2

/-- `characterCountFieldWidth(mode, version)` (R306). -/
def countFieldWidth (mode : Mode) (version : Nat) : Nat :=
  match mode with
  | .alphanumeric => if version ≤ 9 then 9 else if version ≤ 26 then 11 else 13

/-- A Segment (R303), which carries its invariant: the payload bytes hold all `bitLength` bits. -/
structure Segment where
  mode : Mode
  charCount : Nat
  bitPayload : List Byte
  bitLength : Nat
  /-- R303: `bitLength ≤ 8 × len(bitPayload)`. -/
  payloadHolds : bitLength ≤ 8 * bitPayload.length
deriving DecidableEq, Repr

/-- Why a build fails (R345, R357). -/
inductive HostFailure where
  /-- `InvalidArgument`, the host's own (R304, R305, R308) or the block's status 1. -/
  | invalidArgument
  /-- `DataTooLong`, the host's own (R309). -/
  | dataTooLong
  /-- `InternalConsistencyFault`, the host's byte-alignment check (R311) or the block's status 3. -/
  | internalConsistencyFault
  /-- Any other status of the block, which a correct driver never meets (R345). -/
  | driverDefect (st : Byte)
deriving DecidableEq, Repr

/-- What the host reports for a response whose status is not OK (R345). -/
def HostFailure.ofStatus (st : Byte) : HostFailure :=
  if st = StatusCode.invalidArgument.toByte then .invalidArgument
  else if st = StatusCode.internalConsistencyFault.toByte then .internalConsistencyFault
  else .driverDefect st

/-- Whether the failure is a defect of the encoder or the driver, to be treated as fatal, and not a user's error (R345). -/
def HostFailure.isFatal : HostFailure → Bool
  | .invalidArgument | .dataTooLong => false
  | .internalConsistencyFault | .driverDefect _ => true

/-- The `width`-bit form of `n`, most significant bit first. -/
def natBits (width n : Nat) : List Bool := (List.range width).map (fun k => n.testBit (width - 1 - k))

/-- The values of a text's characters; none if one is outside the alphabet (R304). -/
def charValues (text : List Char) : Option (List Nat) := text.mapM charValue

/-- The appends that carry a text (R304, R312): (width, value), 11 bits for a pair, 6 for a trailing single character. -/
def textGroups : List Nat → List (Nat × Nat)
  | [] => []
  | [a] => [(6, a)]
  | a :: b :: rest => (11, a * 45 + b) :: textGroups rest

/-- The bits of a text (R304). -/
def textBits (values : List Nat) : List Bool := (textGroups values).flatMap (fun g => natBits g.1 g.2)

/-- Bits packed into `ceil(len/8)` bytes, most significant first, zero padded (R304). -/
def packBits (bits : List Bool) : List Byte :=
  (List.range (bytesFor bits.length)).map (fun k =>
    BitVec.ofNat 8 (((List.range 8).map (fun j => bits.getD (8 * k + j) false)).foldl (fun acc b => 2 * acc + bit01 b) 0))

/-- Packed bits fit their bytes: the invariant of R303 for what R304 builds. -/
theorem packBits_holds (bits : List Bool) : bits.length ≤ 8 * (packBits bits).length := by
  simp only [packBits, bytesFor, List.length_map, List.length_range]
  omega

/-- The segment of a text's character values (R304). -/
def alphanumericSegment (values : List Nat) : Segment where
  mode := .alphanumeric
  charCount := values.length
  bitPayload := packBits (textBits values)
  bitLength := (textBits values).length
  payloadHolds := packBits_holds (textBits values)

/-- `encodeAlphanumeric(text)` (R304). -/
def encodeAlphanumeric (text : List Char) : Except HostFailure Segment :=
  match charValues text with
  | none => .error .invalidArgument
  | some values => .ok (alphanumericSegment values)

/-- `planSegments(text)` (R305). -/
def planSegments (text : List Char) : Except HostFailure (List Segment) :=
  match text with
  | [] => .ok []
  | _ => (encodeAlphanumeric text).map (fun seg => [seg])

/-- `totalBitsNeeded(segments, version)` (R307) added to a running total; none is the signal CANNOT_FIT. -/
def bitsNeededFrom (version : Nat) : Nat → List Segment → Option Nat
  | total, [] => some total
  | total, seg :: rest =>
    if seg.charCount ≥ 2 ^ countFieldWidth seg.mode version then none
    else if total + 4 + countFieldWidth seg.mode version + seg.bitLength > 2 ^ 31 - 1 then none
    else bitsNeededFrom version (total + 4 + countFieldWidth seg.mode version + seg.bitLength) rest

/-- `totalBitsNeeded(segments, version)` (R307). -/
def totalBitsNeeded (segments : List Segment) (version : Nat) : Option Nat := bitsNeededFrom version 0 segments

/-! ### The static tables (R330), indexed by level ordinal and version − 1 -/

/-- `ECC_PER_BLOCK`, level LOW. -/
def eccPerBlockLow : List Nat :=
  [7, 10, 15, 20, 26, 18, 20, 24, 30, 18, 20, 24, 26, 30, 22, 24, 28, 30, 28, 28] ++
  [28, 28, 30, 30, 26, 28, 30, 30, 30, 30, 30, 30, 30, 30, 30, 30, 30, 30, 30, 30]

/-- `ECC_PER_BLOCK`, level MEDIUM. -/
def eccPerBlockMedium : List Nat :=
  [10, 16, 26, 18, 24, 16, 18, 22, 22, 26, 30, 22, 22, 24, 24, 28, 28, 26, 26, 26] ++
  [26, 28, 28, 28, 28, 28, 28, 28, 28, 28, 28, 28, 28, 28, 28, 28, 28, 28, 28, 28]

/-- `ECC_PER_BLOCK`, level QUARTILE. -/
def eccPerBlockQuartile : List Nat :=
  [13, 22, 18, 26, 18, 24, 18, 22, 20, 24, 28, 26, 24, 20, 30, 24, 28, 28, 26, 30] ++
  [28, 30, 30, 30, 30, 28, 30, 30, 30, 30, 30, 30, 30, 30, 30, 30, 30, 30, 30, 30]

/-- `ECC_PER_BLOCK`, level HIGH. -/
def eccPerBlockHigh : List Nat :=
  [17, 28, 22, 16, 22, 28, 26, 26, 24, 28, 24, 28, 22, 24, 24, 30, 28, 28, 26, 28] ++
  [30, 24, 30, 30, 30, 30, 30, 30, 30, 30, 30, 30, 30, 30, 30, 30, 30, 30, 30, 30]

/-- `NUM_BLOCKS`, level LOW. -/
def numBlocksLow : List Nat :=
  [1, 1, 1, 1, 1, 2, 2, 2, 2, 4, 4, 4, 4, 4, 6, 6, 6, 6, 7, 8] ++
  [8, 9, 9, 10, 12, 12, 12, 13, 14, 15, 16, 17, 18, 19, 19, 20, 21, 22, 24, 25]

/-- `NUM_BLOCKS`, level MEDIUM. -/
def numBlocksMedium : List Nat :=
  [1, 1, 1, 2, 2, 4, 4, 4, 5, 5, 5, 8, 9, 9, 10, 10, 11, 13, 14, 16] ++
  [17, 17, 18, 20, 21, 23, 25, 26, 28, 29, 31, 33, 35, 37, 38, 40, 43, 45, 47, 49]

/-- `NUM_BLOCKS`, level QUARTILE. -/
def numBlocksQuartile : List Nat :=
  [1, 1, 2, 2, 4, 4, 6, 6, 8, 8, 8, 10, 12, 16, 12, 17, 16, 18, 21, 20] ++
  [23, 23, 25, 27, 29, 34, 34, 35, 38, 40, 43, 45, 48, 51, 53, 56, 59, 62, 65, 68]

/-- `NUM_BLOCKS`, level HIGH. -/
def numBlocksHigh : List Nat :=
  [1, 1, 2, 4, 4, 4, 5, 6, 8, 8, 11, 11, 16, 16, 18, 16, 19, 21, 25, 25] ++
  [25, 34, 30, 32, 35, 37, 40, 42, 45, 48, 51, 54, 57, 60, 63, 66, 70, 74, 77, 81]

/-- `ECC_PER_BLOCK[ecl][version]`, with 0 where the table has no entry. -/
def eccPerBlock (ecl version : Nat) : Nat :=
  ([eccPerBlockLow, eccPerBlockMedium, eccPerBlockQuartile, eccPerBlockHigh].getD ecl []).getD (version - 1) 0

/-- `NUM_BLOCKS[ecl][version]`, with 0 where the table has no entry. -/
def numBlocks (ecl version : Nat) : Nat :=
  ([numBlocksLow, numBlocksMedium, numBlocksQuartile, numBlocksHigh].getD ecl []).getD (version - 1) 0

/-- The closed form of R213 for `NFREE()` after MXFUNC. -/
def nfreeClosedForm (version : Nat) : Nat :=
  Config.sizeOf version * Config.sizeOf version - 192 - 31 - 2 * (Config.sizeOf version - 16)
    - (if version ≥ 2 then
        25 * (version / 7 + 2 - 1) * (version / 7 + 2 - 1) + 40 * (version / 7 + 2 - 2)
      else 0)
    - (if version ≥ 7 then 36 else 0)

/-- `raw`, the total codewords of the version (R222, R320). -/
def rawCodewords (version : Nat) : Nat := nfreeClosedForm version / 8

/-- `dataCodewordCapacity(version, ecl)` (R320). -/
def dataCodewordCapacity (version ecl : Nat) : Nat := rawCodewords version - eccPerBlock ecl version * numBlocks ecl version

/-! ### Steps 1 to 3 -/

/-- The segments fit the version and level (R309). -/
def fitsVersion (segments : List Segment) (ecl version : Nat) : Bool :=
  match totalBitsNeeded segments version with
  | none => false
  | some need => decide (need ≤ 8 * dataCodewordCapacity version ecl)

/-- `versionSearch(segments, ecl, vmin, vmax)` (R309). -/
def versionSearch (segments : List Segment) (ecl vmin vmax : Nat) : Except HostFailure Nat :=
  match ((List.range (vmax + 1 - vmin)).map (fun k => vmin + k)).find? (fitsVersion segments ecl) with
  | some version => .ok version
  | none => .error .dataTooLong

/-- `boost(segments, version, ecl)` (R310). -/
def boost (segments : List Segment) (version ecl : Nat) : Nat :=
  [1, 2, 3].foldl (fun cur new => if new > cur ∧ fitsVersion segments new version = true then new else cur) ecl

/-- Step 1 (R308): the version range and the requested mask. -/
def requestValid (vmin vmax : Nat) (mask : MaskRequest) : Bool :=
  decide (1 ≤ vmin) && decide (vmin ≤ vmax) && decide (vmax ≤ 40) && requestLegal mask

/-! ### Issuing commands -/

/-- One command issued and its response awaited (R326): the result and the state after it, or the refusal's code. -/
def issue (i : Instr) (s : State) : Except HostFailure (Word × State) :=
  match step (present (encode i) s) with
  | .fault r => nomatch r
  | .refused _ => .error .internalConsistencyFault
  | .next t =>
    match t.response with
    | none => .error .internalConsistencyFault
    | some r => if r.st = StatusCode.ok.toByte then .ok (r.res, t) else .error (HostFailure.ofStatus r.st)

/-- Commands issued one after another until the first whose status is not OK (R345): their results. -/
def issueEach : List Instr → State → Except HostFailure (List Word × State)
  | [], s => .ok ([], s)
  | i :: rest, s => do
    let (v, t) ← issue i s
    let (vs, u) ← issueEach rest t
    .ok (v :: vs, u)

/-- Commands issued one after another for their effect (R345). -/
def issueAll (commands : List Instr) (s : State) : Except HostFailure State := (issueEach commands s).map Prod.snd

/-- Bytes stored from `addr` on with STB. -/
def storeBytes (addr : Nat) (bytes : List Byte) : List Instr := bytes.mapIdx (fun k v => .stb (addr + k) v)

/-- The bytes at the listed addresses, read with LDB. -/
def loadBytes (addrs : List Nat) (s : State) : Except HostFailure (List Byte × State) :=
  (issueEach (addrs.map Instr.ldb) s).map (fun r => (r.1.map (BitVec.setWidth 8), r.2))

/-! ### Step 4: the bitstream -/

/-- `BBAPP width, value` of a number. -/
def appendNumber (width value : Nat) : Instr := .bbapp width (BitVec.ofNat 32 value)

/-- Where the host keeps the data codewords and, right after them, the remainders (log 16). -/
def dataAddr : Nat := 0

/-- Where the host prepares payloads and the interleaved codewords (log 16). -/
def cwAddr : Nat := 4096

/-- The commands that append one segment (R311): mode, count, and the payload from a prepared copy (BBAPPM) of the bytes
that hold its bits. -/
def segmentCommands (version : Nat) (seg : Segment) : List Instr :=
  [appendNumber 4 (modeIndicator seg.mode), appendNumber (countFieldWidth seg.mode version) seg.charCount] ++
    storeBytes cwAddr (seg.bitPayload.take (bytesFor seg.bitLength)) ++ [.bbappm cwAddr seg.bitLength]

/-- The alphanumeric payload appended directly (R312). -/
def textCommands (values : List Nat) : List Instr := (textGroups values).map (fun g => appendNumber g.1 g.2)

/-- The pad bytes, alternating from `pad` (R311). -/
def padBytes : Nat → Nat → List Nat
  | 0, _ => []
  | n + 1, pad => pad :: padBytes n (pad ^^^ 0xFD)

/-- The terminator, the byte-boundary pad and the pad bytes, as numbers of bits and bytes from the length `len` of the
content and the capacity `cap` in bits (R311, R314). -/
def paddingCommands (len cap : Nat) : List Instr :=
  let afterTerminator := len + min 4 (cap - len)
  let afterBoundary := afterTerminator + (8 - afterTerminator % 8) % 8
  [appendNumber (min 4 (cap - len)) 0, appendNumber ((8 - afterTerminator % 8) % 8) 0] ++
    (padBytes ((cap - afterBoundary) / 8) 0xEC).map (appendNumber 8)

/-- `assemble(segments, version, ecl)` (R311): the data codewords at `dataAddr`. -/
def assemble (segments : List Segment) (version ecl : Nat) (s : State) : Except HostFailure State := do
  let s ← issueAll (.bbnew :: segments.flatMap (segmentCommands version)) s
  let (len, s) ← issue .bblen s
  let s ← issueAll (paddingCommands len.toNat (8 * dataCodewordCapacity version ecl)) s
  let (final, s) ← issue .bblen s
  if final.toNat % 8 ≠ 0 then .error .internalConsistencyFault
  else issueAll [.bbtob dataAddr] s

/-! ### Step 5: blocks, remainders, interleaving -/

/-- The block parameters (R320). -/
structure BlockPlan where
  raw : Nat
  numBlocks : Nat
  blockEccLen : Nat
  numShort : Nat
  shortDataLen : Nat
deriving DecidableEq, Repr

/-- The block parameters of a version and level (R320). -/
def blockPlan (version ecl : Nat) : BlockPlan where
  raw := rawCodewords version
  numBlocks := numBlocks ecl version
  blockEccLen := eccPerBlock ecl version
  numShort := numBlocks ecl version - rawCodewords version % numBlocks ecl version
  shortDataLen := rawCodewords version / numBlocks ecl version - eccPerBlock ecl version

/-- The data length of block `j` (R320). -/
def BlockPlan.dataLen (p : BlockPlan) (j : Nat) : Nat := if j < p.numShort then p.shortDataLen else p.shortDataLen + 1

/-- The index of block `j`'s first data codeword (R321). -/
def BlockPlan.dataStart (p : BlockPlan) (j : Nat) : Nat := j * p.shortDataLen + (j - p.numShort)

/-- The number of data codewords (R320). -/
def BlockPlan.capacity (p : BlockPlan) : Nat := p.raw - p.blockEccLen * p.numBlocks

/-- Where block `j`'s remainder is written (log 16): the remainders follow the data codewords in block order. -/
def BlockPlan.eccStart (p : BlockPlan) (j : Nat) : Nat := dataAddr + p.capacity + j * p.blockEccLen

/-- RSINIT once, then RSREM for each block (R322). -/
def remainderCommands (p : BlockPlan) : List Instr :=
  .rsinit p.blockEccLen ::
    (List.range p.numBlocks).map (fun j => .rsrem (dataAddr + p.dataStart j) (p.dataLen j) (p.eccStart j))

/-- The addresses of the codewords in the order of the interleaved sequence (R323). -/
def interleavedAddresses (p : BlockPlan) : List Nat :=
  (List.range (p.shortDataLen + 1)).flatMap (fun i =>
    ((List.range p.numBlocks).filter (fun j => decide (i < p.shortDataLen) || decide (j ≥ p.numShort))).map
      (fun j => dataAddr + p.dataStart j + i)) ++
  (List.range p.blockEccLen).flatMap (fun i => (List.range p.numBlocks).map (fun j => p.eccStart j + i))

/-- Remainders computed and the interleaved sequence placed at `cwAddr` (R322, R323). -/
def protect (p : BlockPlan) (s : State) : Except HostFailure State := do
  let s ← issueAll (remainderCommands p) s
  let (codewords, s) ← loadBytes (interleavedAddresses p) s
  issueAll (storeBytes cwAddr codewords) s

/-! ### Read-out -/

/-- The attributes of a finished symbol (R123, R301). -/
structure Attributes where
  version : Nat
  ecl : Nat
  size : Nat
  mask : Nat
deriving DecidableEq, Repr

/-- The attributes as the fields of CR4 (R123). -/
def attributesOf (cr4 : Word) : Attributes where
  version := (cr4.extractLsb' 0 6).toNat
  ecl := (cr4.extractLsb' 6 2).toNat
  size := (cr4.extractLsb' 8 8).toNat
  mask := (cr4.extractLsb' 16 4).toNat

/-- The attributes read with `RDCR 4` (R326). -/
def readAttributes (s : State) : Except HostFailure (Attributes × State) :=
  (issue (.rdcr 4) s).map (fun r => (attributesOf r.1, r.2))

/-- `QrSymbol.moduleAt(x, y)` (R301), read with MXRD. A coordinate that does not fit MXRD's field lies outside every symbol
and reads 0 without a command (DEDUCED, log 18). -/
def moduleAtCell (s : State) (c : Int × Int) : Except HostFailure (Word × State) :=
  if fitsSigned16 c.1 && fitsSigned16 c.2 then issue (.mxrd c.1 c.2) s else .ok (0, s)

/-- The modules of the cells wanted, one MXRD each (R326). -/
def readModules : List (Int × Int) → State → Except HostFailure (List Word × State)
  | [], s => .ok ([], s)
  | c :: rest, s => do
    let (v, t) ← moduleAtCell s c
    let (vs, u) ← readModules rest t
    .ok (v :: vs, u)

/-! ### The whole build -/

/-- What a build returns: the modules of the cells wanted, the attributes as the block reports them, and the block in phase
FINAL (R326). -/
structure Built where
  modules : List Word
  attributes : Attributes
  block : State
deriving DecidableEq, Repr

/-- Steps 4 to 8 for a chosen version and level, and the read-out of the cells wanted (R326). -/
def buildAt (segments : List Segment) (version ecl : Nat) (mask : MaskRequest) (wanted : List (Int × Int)) (s : State) :
    Except HostFailure Built := do
  let s ← assemble segments version ecl s
  let s ← protect (blockPlan version ecl) s
  let s ← issueAll [.mxnew version ecl, .mxfunc, .mxcw cwAddr (rawCodewords version), .mxsel mask] s
  let (modules, s) ← readModules wanted s
  let (attributes, s) ← readAttributes s
  .ok ⟨modules, attributes, s⟩

/-- `buildFromSegments(segments, eccLevel, versionMin, versionMax, requestedMask, boostEcl)` with the read-out of the cells
wanted (R326). -/
def buildFromSegments (segments : List Segment) (ecl vmin vmax : Nat) (mask : MaskRequest) (boostEcl : Bool)
    (wanted : List (Int × Int)) (s : State) : Except HostFailure Built :=
  if requestValid vmin vmax mask = false then .error .invalidArgument
  else
    match versionSearch segments ecl vmin vmax with
    | .error e => .error e
    | .ok version => buildAt segments version (if boostEcl then boost segments version ecl else ecl) mask wanted s

end Sys2Proof.Machine
end

