-- ==== Sys2Proof/Safety.lean ====
section
/-! DEFINITION. The terms in which claims about QRCORE are stated: what a state must satisfy (the invariants of the spec), and
the spec's tables and laws written a second time, independently of the meanings. -/

namespace Sys2Proof.Safety

open Sys2Proof.Machine

/-! ### Invariants -/

/-- The builder invariant (R23, R24): the length is within the capacity and every bit from `BBLEN` on is zero. -/
def BuilderInv (bb : Builder) : Prop :=
  bb.bblen.toNat ≤ 8 * Config.bbCapBytes ∧ ∀ i, bb.bblen.toNat ≤ i → builderBit bb i = false

/-- The generator invariant (R27, R28): none yet, or exactly the generator of a degree in 1..255. -/
def GeneratorInv (rs : RsGen) : Prop :=
  rs = RsGen.reset ∨ ∃ d, 1 ≤ d ∧ d ≤ 255 ∧ rs = generator d

/-- The freshly drawn function patterns of a version and level (R203). -/
def drawnSymbol (version ecl : Nat) : Matrix := withPatterns (newSymbol version ecl)

/-- The cells of the first copy of the format word, bit 0 first (the table of R217). -/
def formatFirstCopy : List (Nat × Nat) :=
  [(8, 0), (8, 1), (8, 2), (8, 3), (8, 4), (8, 5), (8, 7), (8, 8), (7, 8), (5, 8), (4, 8), (3, 8), (2, 8), (1, 8), (0, 8)]

/-- The cells of the second copy of the format word, bit 0 first (the table of R217). -/
def formatSecondCopy (size : Nat) : List (Nat × Nat) :=
  [(size - 1, 8), (size - 2, 8), (size - 3, 8), (size - 4, 8), (size - 5, 8), (size - 6, 8), (size - 7, 8), (size - 8, 8),
    (8, size - 7), (8, size - 6), (8, size - 5), (8, size - 4), (8, size - 3), (8, size - 2), (8, size - 1)]

/-- The 30 format-bit cells (R217, R274). -/
def formatBitCells (size : Nat) : List (Nat × Nat) := formatFirstCopy ++ formatSecondCopy size

/-- The alignment positions of versions 1 to 40 (the table of R207). -/
def alignmentTable : List (List Nat) :=
  [[], [6, 18], [6, 22], [6, 26], [6, 30], [6, 34], [6, 22, 38], [6, 24, 42]] ++
  [[6, 26, 46], [6, 28, 50], [6, 30, 54], [6, 32, 58], [6, 34, 62], [6, 26, 46, 66]] ++
  [[6, 26, 48, 70], [6, 26, 50, 74], [6, 30, 54, 78], [6, 30, 56, 82], [6, 30, 58, 86], [6, 34, 62, 90]] ++
  [[6, 28, 50, 72, 94], [6, 26, 50, 74, 98], [6, 30, 54, 78, 102], [6, 28, 54, 80, 106], [6, 32, 58, 84, 110], [6, 30, 58, 86, 114]] ++
  [[6, 34, 62, 90, 118], [6, 26, 50, 74, 98, 122], [6, 30, 54, 78, 102, 126], [6, 26, 52, 78, 104, 130], [6, 30, 56, 82, 108, 134]] ++
  [[6, 34, 60, 86, 112, 138], [6, 30, 58, 86, 114, 142], [6, 34, 62, 90, 118, 146], [6, 30, 54, 78, 102, 126, 150], [6, 24, 50, 76, 102, 128, 154]] ++
  [[6, 28, 54, 80, 106, 132, 158], [6, 32, 58, 84, 110, 136, 162], [6, 26, 54, 82, 110, 138, 166], [6, 30, 58, 86, 114, 142, 170]]

/-- Phases in which the function patterns have been drawn (R32). -/
def patternsDrawn (p : Phase) : Prop := p = .patterns ∨ p = .data ∨ p = .final

/-- The invariants of the matrix state: R41 (a) to (e) and (g), the ranges of U9, and R41 (f) with R274 in the form
"after MXFUNC the flags are those of the drawn patterns, and every function cell but the 30 format-bit cells keeps its
drawn value". -/
structure MatrixInv (mx : Matrix) : Prop where
  idle_version : mx.phase = .idle ↔ mx.version = 0
  idle_size : mx.phase = .idle ↔ mx.size = 0
  version_size : mx.phase ≠ .idle → 1 ≤ mx.version.toNat ∧ mx.version.toNat ≤ 40 ∧ mx.size.toNat = 4 * mx.version.toNat + 17
  mask_final : mx.mask ≠ 8 ↔ mx.phase = .final
  trial_data : mx.trial ≠ 8 → mx.phase = .data
  mask_range : mx.mask.toNat ≤ 8
  trial_range : mx.trial.toNat ≤ 8
  alloc_blank : mx.phase = .alloc → ∀ x y, mx.modules.cell x y = false ∧ mx.isfunc.cell x y = false
  outside_zero : ∀ x y, mx.size.toNat ≤ x ∨ mx.size.toNat ≤ y → mx.modules.cell x y = false ∧ mx.isfunc.cell x y = false
  flags_drawn : patternsDrawn mx.phase → mx.isfunc = (drawnSymbol mx.version.toNat mx.ecl.toNat).isfunc
  functions_stand : patternsDrawn mx.phase → ∀ x y, mx.isfunc.cell x y = true → (x, y) ∉ formatBitCells mx.size.toNat →
    mx.modules.cell x y = (drawnSymbol mx.version.toNat mx.ecl.toNat).modules.cell x y

/-- The status invariant (R35, R340, R344): the fatal state is never reached, `LASTERR` holds a code the block produces
other than 3, and `ERR` says whether there was one. -/
def StatusInv (st : Status) : Prop :=
  st.fatal = false ∧ (st.err = true ↔ st.lasterr ≠ 0) ∧ st.lasterr ∈ [(0 : Byte), 1, 4, 5, 6]

/-- The value of every piece of state after reset (the table of R50, R51). -/
structure ResetValues (s : State) : Prop where
  bitbuf : ∀ i, i < 4096 → readAt s.bb.bitbuf 0xFF i = 0
  bblen : s.bb.bblen = 0
  rsdeg : s.rs.rsdeg = 0
  div : ∀ j, j < 255 → readAt s.rs.div 0xFF j = 0
  phase : s.mx.phase.code = 0
  version : s.mx.version = 0
  size : s.mx.size = 0
  ecl : s.mx.ecl = 0
  mask : s.mx.mask = 8
  trial : s.mx.trial = 8
  modules : ∀ x y, x < 177 → y < 177 → s.mx.modules.cell x y = false
  isfunc : ∀ x y, x < 177 → y < 177 → s.mx.isfunc.cell x y = false
  penTotal : s.mx.penTotal = 0
  penN1 : s.mx.penN1 = 0
  penN2 : s.mx.penN2 = 0
  penN3 : s.mx.penN3 = 0
  penN4 : s.mx.penN4 = 0
  lasterr : s.status.lasterr = 0
  err : s.status.err = false
  fatal : s.status.fatal = false
  dmem : ∀ addr, s.dmem.written addr = none

/-! ### Answers and refusals, restated from R12 and R343 -/

/-- The state after a successful command that changes nothing but the response. -/
def answered (v : Word) (s : State) : State := { s with response := some ⟨0, v⟩ }

/-- The state after a refusal with the code (R343). -/
def refusedWith (code : Byte) (s : State) : State :=
  { s with status := ⟨code, true, s.status.fatal || decide (code = 3)⟩, response := some ⟨code, 0⟩ }

/-- The status code of the latest response. -/
def statusOf (s : State) : Option Byte := s.response.map Response.st

/-- The result of the latest response. -/
def resultOf (s : State) : Option Word := s.response.map Response.res

/-- Instructions executed one after another. -/
def runAll : List Instr → State → Option State
  | [], s => some s
  | i :: rest, s =>
    match exec i s with
    | .next t => runAll rest t
    | .fault _ => none
    | .refused _ => none

/-! ### Encoding tables, restated from R87, R90, R92 and spec/opcode_table.json -/

/-- A row of spec/opcode_table.json: `w` is the command iff `w & mask = pattern` (R90). -/
structure MatchRow where
  mnemonic : Mnemonic
  pattern : Cmd
  mask : Cmd
deriving DecidableEq, Repr

/-- The 22 rows of spec/opcode_table.json. -/
def matchTable : List MatchRow :=
  [⟨.RESET, 0x0100000000000000, 0xFFFFFFFFFFFFFFFF⟩, ⟨.RDCR, 0x0200000000000000, 0xFFFFFFFF00000000⟩,
    ⟨.LDB, 0x0300000000000000, 0xFFFFFFFFFFFF0000⟩, ⟨.STB, 0x0400000000000000, 0xFF00FFFFFFFF0000⟩,
    ⟨.GFMUL, 0x1000000000000000, 0xFFFFFFFF00000000⟩] ++
  [⟨.RSINIT, 0x2000000000000000, 0xFFFFFFFF00000000⟩, ⟨.RSRDC, 0x2100000000000000, 0xFFFFFFFF00000000⟩,
    ⟨.RSREM, 0x2200000000000000, 0xFFFF000000000000⟩] ++
  [⟨.BBNEW, 0x3000000000000000, 0xFFFFFFFFFFFFFFFF⟩, ⟨.BBLEN, 0x3100000000000000, 0xFFFFFFFFFFFFFFFF⟩,
    ⟨.BBAPP, 0x3200000000000000, 0xFF00FFFF00000000⟩, ⟨.BBAPPM, 0x3300000000000000, 0xFFFF0000FFFF0000⟩,
    ⟨.BBTOB, 0x3400000000000000, 0xFFFFFFFFFFFF0000⟩] ++
  [⟨.MXNEW, 0x4000000000000000, 0xFF00FFFF00000000⟩, ⟨.MXFUNC, 0x4100000000000000, 0xFFFFFFFFFFFFFFFF⟩,
    ⟨.MXCW, 0x4200000000000000, 0xFFFF0000FFFF0000⟩, ⟨.MXFMT, 0x4300000000000000, 0xFFFFFFFF00000000⟩,
    ⟨.MXMASK, 0x4400000000000000, 0xFFFFFFFF00000000⟩, ⟨.MXPEN, 0x4500000000000000, 0xFFFFFFFFFFFFFFFF⟩,
    ⟨.MXSEL, 0x4600000000000000, 0xFFFFFFFF00000000⟩, ⟨.MXRD, 0x4700000000000000, 0xFFFFFFFF00000000⟩,
    ⟨.MXPEEK, 0x4800000000000000, 0xFFFFFFFF00000000⟩]

/-- The row accepts the word (R90). -/
def MatchRow.accepts (r : MatchRow) (w : Cmd) : Prop := w &&& r.mask = r.pattern

/-- The worked encodings of R98: the line as written, the command, the word. -/
def workedEncodings : List (List Char × Instr × Cmd) :=
  [("BBNEW".toList, .bbnew, 0x3000000000000000),
    ("RSINIT 7".toList, .rsinit 7, 0x2000000000000007),
    ("GFMUL 0x53, 0xCA".toList, .gfmul 0x53 0xCA, 0x1000000000CA0053),
    ("LDB 0x0013".toList, .ldb 0x0013, 0x0300000000000013),
    ("STB 0x0010, 0xEC".toList, .stb 0x0010 0xEC, 0x04EC000000000010),
    ("BBAPP 11, 779".toList, .bbapp 11 779, 0x320B00000000030B)] ++
  [("MXNEW 1, LOW".toList, .mxnew 1 0, 0x4000000000000001),
    ("MXNEW 7, HIGH".toList, .mxnew 7 3, 0x4003000000000007),
    ("MXCW 0, 26".toList, .mxcw 0 26, 0x4200001A00000000),
    ("RSREM 0, 19, 19".toList, .rsrem 0 19 19, 0x2200001300130000),
    ("MXSEL −1".toList, .mxsel .auto, 0x46000000FFFFFFFF),
    ("MXRD −1, −1".toList, .mxrd (-1) (-1), 0x47000000FFFFFFFF),
    ("MXRD 21, 21".toList, .mxrd 21 21, 0x4700000000150015)]

/-- The undefined values of `op` as R92 lists them. -/
def undefinedOp (op : Nat) : Bool :=
  op == 0x00 || (decide (0x05 ≤ op) && decide (op ≤ 0x0F)) || (decide (0x11 ≤ op) && decide (op ≤ 0x1F)) ||
    (decide (0x23 ≤ op) && decide (op ≤ 0x2F)) || (decide (0x35 ≤ op) && decide (op ≤ 0x3F)) ||
    (decide (0x49 ≤ op) && decide (op ≤ 0xFF))

/-- The illegal words of R91: an undefined `op`, or a defined one with a must-be-zero bit set. -/
def illegal (w : Cmd) : Prop :=
  undefinedOp (w >>> 56).toNat = true ∨
    ∃ r ∈ matchTable, w >>> 56 = r.pattern >>> 56 ∧ w &&& r.mask &&& 0x00FFFFFFFFFFFFFF ≠ 0

/-! ### Control registers, restated from R36's table of bit fields -/

/-- The value of control register `n` as a number: each field at the weight of its lowest bit (R36, R37). -/
def registerNumber (s : State) : Nat → Nat
  | 0 => 0x51524301
  | 1 => s.status.lasterr.toNat + 2 ^ 8 * s.status.err.toNat + 2 ^ 9 * s.status.fatal.toNat
  | 2 => s.bb.bblen.toNat
  | 3 => s.rs.rsdeg.toNat
  | 4 =>
    s.mx.version.toNat + 2 ^ 6 * s.mx.ecl.toNat + 2 ^ 8 * s.mx.size.toNat + 2 ^ 16 * s.mx.mask.toNat +
      2 ^ 20 * s.mx.trial.toNat + 2 ^ 24 * s.mx.phase.code
  | 5 => s.mx.penTotal.toNat
  | 6 => s.mx.penN1.toNat
  | 7 => s.mx.penN2.toNat
  | 8 => s.mx.penN3.toNat
  | 9 => s.mx.penN4.toNat
  | _ => 0

/-! ### Phases and refusal conditions, restated from R42 and R356 -/

/-- Where a command may be issued, by phase alone (the table of R42); commands outside the matrix engine anywhere. -/
def phaseLegal : Instr → Phase → Bool
  | .mxfunc, p => decide (p = .alloc)
  | .mxcw _ _, p => decide (p = .patterns)
  | .mxfmt _, p => decide (p = .data)
  | .mxmask _, p => decide (p = .data)
  | .mxpen, p => decide (p = .data) || decide (p = .final)
  | .mxsel _, p => decide (p = .data)
  | .mxrd _ _, p => decide (p = .final)
  | .mxpeek _ _, p => !decide (p = .idle)
  | .reset, _ | .rdcr _, _ | .ldb _, _ | .stb _ _, _ | .gfmul _ _, _ | .rsinit _, _ | .rsrdc _, _ | .rsrem _ _ _, _
  | .bbnew, _ | .bblen, _ | .bbapp _ _, _ | .bbappm _ _, _ | .bbtob _, _ | .mxnew _ _, _ => true

/-- The phase after a success (the table of R42 and reset); commands outside the matrix engine leave it. -/
def phaseAfter : Instr → Phase → Phase
  | .reset, _ => .idle
  | .mxnew _ _, _ => .alloc
  | .mxfunc, _ => .patterns
  | .mxcw _ _, _ => .data
  | .mxsel _, _ => .final
  | .mxfmt _, p | .mxmask _, p | .mxpen, p | .mxrd _ _, p | .mxpeek _ _, p => p
  | .rdcr _, p | .ldb _, p | .stb _ _, p | .gfmul _ _, p | .rsinit _, p | .rsrdc _, p | .rsrem _ _ _, p | .bbnew, p
  | .bblen, p | .bbapp _ _, p | .bbappm _ _, p | .bbtob _, p => p

/-- The column SequenceError of R356, without MXMASK's later `TRIAL` test. -/
def sequenceBad (i : Instr) (s : State) : Bool :=
  match i with
  | .rsrdc _ => decide (s.rs.rsdeg = 0)
  | .rsrem _ _ _ => decide (s.rs.rsdeg = 0)
  | .mxsel _ => !decide (s.mx.phase = .data) || !decide (s.mx.trial = 8)
  | i => !phaseLegal i s.mx.phase

/-- The column InvalidArgument of R356. -/
def argumentBad (i : Instr) (s : State) : Bool :=
  match i with
  | .rdcr n => decide (n > 9)
  | .gfmul x y => decide (x > 255) || decide (y > 255)
  | .rsinit degree => decide (degree < 1) || decide (degree > 255)
  | .rsrdc i => decide (i ≥ s.rs.rsdeg.toNat)
  | .bbapp width value => decide (width > 32) || decide (value.toNat ≥ 2 ^ width)
  | .mxnew version level => decide (version < 1) || decide (version > 40) || decide (level > 3)
  | .mxcw _ count => !decide (count = nfree s.mx / 8)
  | .mxfmt m => decide (m > 7)
  | .mxmask m => decide (m > 7)
  | .mxsel (.forced m) => decide (m > 7)
  | .mxsel .auto => false
  | .reset | .ldb _ | .stb _ _ | .rsrem _ _ _ | .bbnew | .bblen | .bbappm _ _ | .bbtob _ | .mxfunc | .mxpen | .mxrd _ _
  | .mxpeek _ _ => false

/-- MXMASK's second SequenceError test, after its operand test (R252, R356). -/
def trialBad (i : Instr) (s : State) : Bool :=
  match i with
  | .mxmask m => !decide (s.mx.trial = 8) && !decide (s.mx.trial.toNat = m)
  | _ => false

/-- The column BoundsError of R356. -/
def boundsBad (i : Instr) (s : State) : Bool :=
  match i with
  | .ldb addr => decide (addr ≥ 8192)
  | .stb addr _ => decide (addr ≥ 8192)
  | .rsrem src len dst => decide (src + len > 8192) || decide (dst + s.rs.rsdeg.toNat > 8192)
  | .bbapp width _ => decide (s.bb.bblen.toNat + width > 32768)
  | .bbappm src nbits => decide (src + (nbits + 7) / 8 > 8192) || decide (s.bb.bblen.toNat + nbits > 32768)
  | .bbtob dst => decide (dst + (s.bb.bblen.toNat + 7) / 8 > 8192)
  | .mxcw src count => decide (src + count > 8192)
  | .reset | .rdcr _ | .gfmul _ _ | .rsinit _ | .rsrdc _ | .bbnew | .bblen | .mxnew _ _ | .mxfunc | .mxfmt _ | .mxmask _
  | .mxpen | .mxsel _ | .mxrd _ _ | .mxpeek _ _ => false

/-- The first test that fails decides the code (R342, R347); 0 is OK. -/
def expectedCode (i : Instr) (s : State) : Byte :=
  if sequenceBad i s then 5 else if argumentBad i s then 1 else if trialBad i s then 5 else if boundsBad i s then 6 else 0

/-! ### Units (R391) -/

/-- The part of the block a command belongs to (R89, R391). -/
inductive Part where
  | system
  | field
  | reedSolomon
  | builder
  | matrix
deriving DecidableEq, Repr

/-- The part of each command (R89: the high nibble of `op`). -/
def partOf : Instr → Part
  | .reset | .rdcr _ | .ldb _ | .stb _ _ => .system
  | .gfmul _ _ => .field
  | .rsinit _ | .rsrdc _ | .rsrem _ _ _ => .reedSolomon
  | .bbnew | .bblen | .bbapp _ _ | .bbappm _ _ | .bbtob _ => .builder
  | .mxnew _ _ | .mxfunc | .mxcw _ _ | .mxfmt _ | .mxmask _ | .mxpen | .mxsel _ | .mxrd _ _ | .mxpeek _ _ => .matrix

/-! ### Field and polynomials -/

/-- The carry-less product of `a` with the low `n` bits of `b` (R160, R162: the product of two polynomials over GF(2)). -/
def clmul (n a b : Nat) : Nat := (List.range n).foldl (fun acc i => acc ^^^ (if b.testBit i then a <<< i else 0)) 0

/-- `2^i` in GF(256) (R166): `2^0 = 1`, `2^(k+1) = gfmul(2^k, 2)`. -/
def powerOfTwo : Nat → Byte
  | 0 => 1
  | k + 1 => gfmul (powerOfTwo k) 2

/-- Horner's scheme (R186): `s <- 0; for each byte c in order: s <- gfmul(s, z) ^ c`. -/
def evalAt (z : Byte) (coefficients : List Byte) : Byte := coefficients.foldl (fun acc c => gfmul acc z ^^^ c) 0

/-- The product of `(z − 2^i)` for i = 0 .. d−1 (R176). -/
def rootProduct (z : Byte) : Nat → Byte
  | 0 => 1
  | d + 1 => gfmul (rootProduct z d) (z ^^^ powerOfTwo d)

/-- Bytewise exclusive-or (R184). -/
def xorBytes (a b : List Byte) : List Byte := List.zipWith (· ^^^ ·) a b

/-! ### The builder's content -/

/-- The content `c[0 .. BBLEN−1]` (R140). -/
def content (bb : Builder) : List Bool := (List.range bb.bblen.toNat).map (builderBit bb)

/-- Bit `i` of the bytes of `DMEM` from `src` on, `SeqBit` (R10). -/
def memoryBit (s : State) (src i : Nat) : Bool := (readByte s (src + i / 8)).getLsbD (7 - i % 8)

/-- The appends that R148 names in place of BBAPPM: one per whole byte, and one for the leftover bits. -/
def bytewiseAppends (s : State) (src nbits : Nat) : List Instr :=
  (List.range (nbits / 8)).map (fun k => .bbapp 8 ((readByte s (src + k)).setWidth 32)) ++
    (if nbits % 8 = 0 then []
     else [.bbapp (nbits % 8) (((readByte s (src + nbits / 8)).setWidth 32) >>> (8 - nbits % 8))])

/-! ### The scan and the masks -/

/-- The free cells in the order of the scan (R221 (d)). -/
def freeScan (mx : Matrix) : List (Nat × Nat) := (scanOrder mx.size.toNat).filter (fun c => !mx.isfunc.cell c.1 c.2)

/-- The total of the grid that MXSEL scores for mask `m` (R266, R268). -/
def trialScore (mx : Matrix) (m : Nat) : Nat := (penalty (trialGrid mx m).modules mx.size.toNat).total

/-- The value of a cell with the trial mask, if one is applied, taken off (R252). -/
def unmaskedCell (mx : Matrix) (x y : Nat) : Bool :=
  mx.modules.cell x y ^^ (decide (mx.trial.toNat < 8) && maskFlips mx mx.trial.toNat x y)

/-- The cell (x, y) belongs to the symbol (R31). -/
abbrev inGrid (mx : Matrix) (x y : Nat) : Prop := x < mx.size.toNat ∧ y < mx.size.toNat

/-! ### The penalty -/

/-- The cells of row `k`, left to right, and of column `k`, top to bottom (R256). -/
def rowAndColumn (g : Grid) (size k : Nat) : List Bool × List Bool :=
  ((List.range size).map (fun i => g.cell i k), (List.range size).map (fun i => g.cell k i))

/-- The number of cells (x, y) with x and y below `side` that satisfy the condition. -/
def cellCount (side : Nat) (p : Nat → Nat → Bool) : Nat :=
  ((Finset.range side ×ˢ Finset.range side).filter (fun c => p c.1 c.2 = true)).card

/-- The 2 × 2 block with the top-left cell (x, y) has one colour (R257). -/
def oneColour (g : Grid) (x y : Nat) : Bool :=
  [g.cell (x + 1) y, g.cell x (y + 1), g.cell (x + 1) (y + 1)].all (fun c => c == g.cell x y)

/-- What a maximal run of `r` cells contributes (R256). -/
def runPenalty (r : Nat) : Nat := if r ≥ 5 then r - 2 else 0

/-- The two finder-like patterns of R258, 1 dark, first cell first. -/
def finderPatternA : List Bool := [true, false, true, true, true, false, true, false, false, false, false]

/-- The mirror image of `finderPatternA` (R258). -/
def finderPatternB : List Bool := [false, false, false, false, true, false, true, true, true, false, true]

/-- What a line contributes to N1: its maximal runs of equal colour, one by one (R256). -/
def lineRuns (line : List Bool) : Nat := ((line.splitBy (fun a b => a == b)).map (fun run => runPenalty run.length)).sum

/-- The number of windows of a line that lie wholly inside it and match a finder-like pattern (R258). -/
def lineWindows (line : List Bool) : Nat :=
  (List.range line.length).countP (fun start => decide (start + 11 ≤ line.length) &&
    (decide ((line.drop start).take 11 = finderPatternA) || decide ((line.drop start).take 11 = finderPatternB)))

/-- The condition of mask `m` on the cell (x, y) (the table of R250); no mask above 7. -/
def maskCondition : Nat → Nat → Nat → Prop
  | 0, x, y => (x + y) % 2 = 0
  | 1, _, y => y % 2 = 0
  | 2, x, _ => x % 3 = 0
  | 3, x, y => (x + y) % 3 = 0
  | 4, x, y => (x / 3 + y / 2) % 2 = 0
  | 5, x, y => x * y % 2 + x * y % 3 = 0
  | 6, x, y => (x * y % 2 + x * y % 3) % 2 = 0
  | 7, x, y => ((x + y) % 2 + x * y % 3) % 2 = 0
  | _, _, _ => False

/-- The 6 × 6 corners of the eight masks, rows from y = 0, cells from x = 0 (the pictures of R250). -/
def maskCorners : List (List String) :=
  [["101010", "010101", "101010", "010101", "101010", "010101"],
    ["111111", "000000", "111111", "000000", "111111", "000000"],
    ["100100", "100100", "100100", "100100", "100100", "100100"],
    ["100100", "001001", "010010", "100100", "001001", "010010"]] ++
  [["111000", "111000", "000111", "000111", "111000", "111000"],
    ["111111", "100000", "100100", "101010", "100100", "100000"],
    ["111111", "111000", "110110", "101010", "101101", "100011"],
    ["101010", "000111", "100011", "010101", "111000", "011100"]]

end Sys2Proof.Safety
end

