-- ==== Sys2Proof/Certificates/Slice0/Obligations.lean ====
section
/-! DEFINITION. The statements for the provers. Each docstring names the rule of spec/ it formalises. -/

section Statements

open Sys2Proof Sys2Proof.Machine Sys2Proof.Safety

/-! ### Encoding -/

/-- R86 to R89, R95, R96: no bit of an encoding is dropped, for every well-formed instruction and every operand value. -/
def Obligations.DecodeOfEncodeIsTheInstruction : Prop :=
  ∀ i : Instr, i.wf = true → decode (encode i) = .ok i

/-- R86 to R89, R95: each legal word has one meaning, and the encoder gives that word back. -/
def Obligations.EncodeOfDecodeIsTheWord : Prop :=
  ∀ (w : Cmd) (i : Instr), decode w = .ok i → i.wf = true ∧ encode i = w

/-- R90: `w` is the command of a row iff `w & mask = match`, and no word is accepted by two rows. -/
def Obligations.MatchAndMaskSelectTheCommand : Prop :=
  (∀ w : Cmd, ∀ r ∈ matchTable, r.accepts w ↔ ∃ i, decode w = .ok i ∧ i.mnemonic = r.mnemonic) ∧
  ∀ w : Cmd, ∀ r ∈ matchTable, ∀ q ∈ matchTable, r.accepts w → q.accepts w → r = q

/-- R91: which words are illegal, and what an illegal word does in any state, the fatal one among them. -/
def Obligations.IllegalWordsAreRefused : Prop :=
  (∀ w : Cmd, illegal w ↔ ∃ e, decode w = .error e) ∧
  (∀ (w : Cmd) (s : State), illegal w → execute w s = .next (refusedWith 4 s)) ∧
  illegal 0 ∧ illegal 0xFFFFFFFFFFFFFFFF

/-- R98: the thirteen worked encodings, by the encoder, by the decoder and by the assembler of R96. -/
def Obligations.WorkedEncodingsOfEachFormat : Prop :=
  ∀ p ∈ workedEncodings,
    encode p.2.1 = p.2.2 ∧ decode p.2.2 = .ok p.2.1 ∧ assembleLine p.1 = .command p.2.2

/-! ### Steps, reset, refusals -/

/-- R342, R381, with the model's own choices around them: the port (logs 1 and 3), no response after the reset input and the
latest one held while nothing is presented (log 2), pending inputs that survive the reset input (log 13), the epoch (log 5).
A step takes the next input; a legal word runs its instruction, an illegal one is refused, the reset input resets, and with
nothing presented the state stays. -/
def Obligations.StepRunsTheNextInput : Prop :=
  (∀ (s : State) (w : Cmd) (i : Instr) (rest : List Input),
    decode w = .ok i → s.port = .command w :: rest → step s = exec i { s with port := rest }) ∧
  (∀ (s : State) (w : Cmd) (i : Instr), decode w = .ok i → step (s.withFetchWord 64 w.toNat) = exec i s) ∧
  (∀ (s : State) (w : Cmd) (rest : List Input),
    illegal w → s.port = .command w :: rest → step s = .next (refusedWith 4 { s with port := rest })) ∧
  (∀ (s : State) (rest : List Input), s.port = .hardReset :: rest →
    step s = .next { State.reset with epoch := s.epoch + 1, port := rest }) ∧
  ∀ s : State, s.port = [] → step s = .next s

/-- R50, R120: reset gives every piece of state its value, in any state, by the command (answering 0) and by the input;
and RESET is the only command that clears a status field. -/
def Obligations.ResetGivesEveryElementItsValue : Prop :=
  ResetValues State.reset ∧
  (∀ s : State, ∃ t, exec .reset s = .next t ∧ ResetValues t ∧ t.response = some ⟨0, 0⟩) ∧
  (∀ s : State, ResetValues (hardReset s)) ∧
  ∀ (i : Instr) (s t : State), exec i s = .next t → i ≠ .reset →
    (s.status.err = true → t.status.err = true) ∧ (s.status.fatal = true → t.status.fatal = true) ∧
    (s.status.lasterr ≠ 0 → t.status.lasterr ≠ 0)

/-- R382 (with the range of R124): the reset state seen through the commands. -/
def Obligations.ResetStateThroughTheCommands : Prop :=
  (∀ p ∈ [(0, (0x51524301 : Word)), (1, 0), (2, 0), (3, 0), (4, 0x00880000), (5, 0), (6, 0), (7, 0), (8, 0), (9, 0)],
    exec (.rdcr p.1) State.reset = .next (answered p.2 State.reset)) ∧
  exec .bblen State.reset = .next (answered 0 State.reset) ∧
  (∀ i, exec (.rsrdc i) State.reset = .next (refusedWith 5 State.reset)) ∧
  (∀ src len dst, exec (.rsrem src len dst) State.reset = .next (refusedWith 5 State.reset)) ∧
  exec .mxfunc State.reset = .next (refusedWith 5 State.reset) ∧
  (∀ src count, exec (.mxcw src count) State.reset = .next (refusedWith 5 State.reset)) ∧
  (∀ m, exec (.mxfmt m) State.reset = .next (refusedWith 5 State.reset)) ∧
  (∀ m, exec (.mxmask m) State.reset = .next (refusedWith 5 State.reset)) ∧
  exec .mxpen State.reset = .next (refusedWith 5 State.reset) ∧
  (∀ req, exec (.mxsel req) State.reset = .next (refusedWith 5 State.reset)) ∧
  (∀ x y, exec (.mxrd x y) State.reset = .next (refusedWith 5 State.reset)) ∧
  (∀ x y, exec (.mxpeek x y) State.reset = .next (refusedWith 5 State.reset)) ∧
  ∀ addr, addr < 8192 → ∃ v, exec (.ldb addr) State.reset = .next (answered v State.reset) ∧ v.toNat < 256

/-- R343: a refused command changes `STATUS` and the response alone, a successful one leaves `STATUS`; the exception is
R344's internal fault of MXCW, which also leaves bits in the grid. -/
def Obligations.RefusalChangesStatusAlone : Prop :=
  (∀ (w : Cmd) (s : State), illegal w → execute w s = .next (refusedWith 4 s)) ∧
  ∀ (i : Instr) (s t : State), exec i s = .next t →
    (statusOf t = some 0 ∧ (i = .reset ∨ t.status = s.status)) ∨
    (∃ c ∈ [(1 : Byte), 3, 5, 6], t = refusedWith c s) ∨
    ∃ src count, i = .mxcw src count ∧ s.status.fatal = false ∧ s.mx.phase = .patterns ∧
      t = refusedWith 3 { s with mx := { s.mx with modules := t.mx.modules } }

/-- R342 step 3, R344: while `FATAL` is 1, RESET clears it, RDCR reads, an illegal word is still refused with code 4, and
every other command is refused with code 3. -/
def Obligations.FatalStateStopsAllButResetAndRdcr : Prop :=
  ∀ s : State, s.status.fatal = true →
    (∃ t, exec .reset s = .next t ∧ t.status.fatal = false) ∧
    (∀ n, n ≤ 9 → ∃ v, exec (.rdcr n) s = .next (answered v s)) ∧
    (∀ w, illegal w → execute w s = .next (refusedWith 4 s)) ∧
    ∀ i : Instr, i ≠ .reset → (∀ n, i ≠ .rdcr n) → exec i s = .next (refusedWith 3 s)

/-- R85, R340: every command word gets exactly one response, its code is one of those the block produces, and the result is
0 whenever the code is not OK; and the block never stops. -/
def Obligations.EveryCommandGetsAResponse : Prop :=
  (∀ (w : Cmd) (s : State), ∃ t r, execute w s = .next t ∧ t.response = some r ∧
    r.st ∈ [(0 : Byte), 1, 3, 4, 5, 6] ∧ (r.st ≠ 0 → r.res = 0)) ∧
  ∀ s : State, ∃ t, step s = .next t

/-- R356: the code every command reports, as a function of state and operands, outside the fatal state. -/
def Obligations.RefusalCodeOfEveryCommand : Prop :=
  ∀ (i : Instr) (s : State), s.status.fatal = false → MatrixInv s.mx →
    ∃ t, exec i s = .next t ∧ statusOf t = some (expectedCode i s)

/-- R345: a refused command, reissued at once, is refused again with the same code. -/
def Obligations.RefusedCommandIsRefusedAgain : Prop :=
  ∀ (i : Instr) (s t : State) (c : Byte), exec i s = .next t → statusOf t = some c → c ≠ 0 →
    ∃ u, exec i t = .next u ∧ statusOf u = some c

/-! ### System commands -/

/-- R37, R122: RDCR answers each register's formula, in every state, and refuses any other number. -/
def Obligations.ControlRegistersReadTheState : Prop :=
  (∀ (s : State) (n : Nat),
    (n ≤ 9 → exec (.rdcr n) s = .next (answered (BitVec.ofNat 32 (registerNumber s n)) s) ∧ registerNumber s n < 2 ^ 32) ∧
    (n > 9 → exec (.rdcr n) s = .next (refusedWith 1 s))) ∧
  registerNumber State.reset 4 = 0x00880000

/-- R124, R126: LDB answers one byte; STB writes one byte and no other; both refuse an address outside `DMEM`. -/
def Obligations.LoadAndStoreOneByte : Prop :=
  ∀ (s : State) (addr : Nat), s.status.fatal = false →
    (addr < 8192 →
      exec (.ldb addr) s = .next (answered (BitVec.ofNat 32 (readByte s addr).toNat) s) ∧
      ∀ v : Byte, ∃ t, exec (.stb addr v) s = .next t ∧ t = answered 0 { s with dmem := t.dmem } ∧
        readByte t addr = v ∧ ∀ a, a ≠ addr → readByte t a = readByte s a) ∧
    (addr ≥ 8192 →
      exec (.ldb addr) s = .next (refusedWith 6 s) ∧ ∀ v : Byte, exec (.stb addr v) s = .next (refusedWith 6 s))

/-! ### The field and the Reed-Solomon unit -/

/-- R162, R163: GFMUL answers the product of the two polynomials reduced modulo `0x11D`, and refuses an operand above
255. -/
def Obligations.GfmulIsThePolynomialProduct : Prop :=
  ∀ (s : State) (x y : Nat), s.status.fatal = false →
    (x ≤ 255 → y ≤ 255 → ∃ p q, p < 256 ∧ clmul 8 x y = p ^^^ clmul 9 q 0x11D ∧
      exec (.gfmul x y) s = .next (answered (BitVec.ofNat 32 p) s)) ∧
    (x > 255 ∨ y > 255 → exec (.gfmul x y) s = .next (refusedWith 1 s))

/-- R165, R166: commutativity, distribution over exclusive-or, zero, associativity, one, no zero divisors, exactly one
inverse, and the powers of 2, which run through all non-zero bytes. -/
def Obligations.FieldLawsAndPowersOfTwo : Prop :=
  (∀ x y : Byte, gfmul x y = gfmul y x) ∧
  (∀ x y z : Byte, gfmul x (y ^^^ z) = gfmul x y ^^^ gfmul x z) ∧
  (∀ x : Byte, gfmul x 0 = 0) ∧
  (∀ x y z : Byte, gfmul (gfmul x y) z = gfmul x (gfmul y z)) ∧
  (∀ x : Byte, gfmul x 1 = x) ∧
  (∀ x y : Byte, x ≠ 0 → y ≠ 0 → gfmul x y ≠ 0) ∧
  (∀ x : Byte, x ≠ 0 → ∃ y, gfmul x y = 1 ∧ ∀ z, gfmul x z = 1 → z = y) ∧
  (List.range 16).map powerOfTwo = [1, 2, 4, 8, 16, 32, 64, 128, 29, 58, 116, 232, 205, 135, 19, 38] ∧
  powerOfTwo 25 = 3 ∧ powerOfTwo 254 = 0x8E ∧ powerOfTwo 255 = 1 ∧
  ∀ x : Byte, x ≠ 0 → ∃ k, k < 255 ∧ powerOfTwo k = x ∧ ∀ j, j < 255 → powerOfTwo j = x → j = k

/-- R176, R177: RSINIT stores the coefficients of the monic polynomial with the roots `2^0 .. 2^(d−1)` (a monic polynomial
of degree at most 255 is fixed by its values at all 256 points), clears the rest of `DIV`, and refuses any other degree. -/
def Obligations.RsinitBuildsTheDivisorPolynomial : Prop :=
  ∀ (s : State) (d : Nat), s.status.fatal = false →
    (1 ≤ d → d ≤ 255 → ∃ g : RsGen,
      exec (.rsinit d) s = .next (answered (BitVec.ofNat 32 d) { s with rs := g }) ∧ g.rsdeg.toNat = d ∧
      (∀ j, d ≤ j → readAt g.div 0 j = 0) ∧
      ∀ z : Byte, evalAt z (1 :: (List.range d).map (readAt g.div 0)) = rootProduct z d) ∧
    (d < 1 ∨ d > 255 → exec (.rsinit d) s = .next (refusedWith 1 s))

/-- R180: RSRDC answers one coefficient. -/
def Obligations.RsrdcReadsOneCoefficient : Prop :=
  ∀ (s : State) (i : Nat), s.status.fatal = false →
    (s.rs.rsdeg = 0 → exec (.rsrdc i) s = .next (refusedWith 5 s)) ∧
    (s.rs.rsdeg ≠ 0 → s.rs.rsdeg.toNat ≤ i → exec (.rsrdc i) s = .next (refusedWith 1 s)) ∧
    (i < s.rs.rsdeg.toNat → exec (.rsrdc i) s = .next (answered (BitVec.ofNat 32 (readAt s.rs.div 0 i).toNat) s))

/-- R182: RSREM writes `RSDEG` bytes at dst, the remainder of the source bytes as they were before, and nothing else. -/
def Obligations.RsremWritesTheRemainder : Prop :=
  ∀ (s : State) (src len dst : Nat), s.status.fatal = false →
    (s.rs.rsdeg = 0 → exec (.rsrem src len dst) s = .next (refusedWith 5 s)) ∧
    (s.rs.rsdeg ≠ 0 → src + len > 8192 ∨ dst + s.rs.rsdeg.toNat > 8192 →
      exec (.rsrem src len dst) s = .next (refusedWith 6 s)) ∧
    (s.rs.rsdeg ≠ 0 → src + len ≤ 8192 → dst + s.rs.rsdeg.toNat ≤ 8192 → ∃ t,
      exec (.rsrem src len dst) s = .next t ∧
      t = answered (BitVec.ofNat 32 s.rs.rsdeg.toNat) { s with dmem := t.dmem } ∧
      readRange t dst s.rs.rsdeg.toNat = remainder (divCoefficients s.rs) (readRange s src len) ∧
      ∀ a, a < dst ∨ dst + s.rs.rsdeg.toNat ≤ a → readByte t a = readByte s a)

/-- R184: linearity, leading zeros, `rem_d([1])`, `rem_1`, and the two vectors of degree 7. -/
def Obligations.RemainderLaws : Prop :=
  (∀ div a b : List Byte, a.length = b.length →
    remainder div (xorBytes a b) = xorBytes (remainder div a) (remainder div b)) ∧
  (∀ div data : List Byte, remainder div (0 :: data) = remainder div data) ∧
  (∀ d, 1 ≤ d → d ≤ 255 → remainder (divisor d) [1] = divisor d) ∧
  remainder (divisor 7) [1] = [127, 122, 154, 164, 11, 68, 117] ∧
  (∀ data : List Byte, remainder (divisor 1) data = [data.foldl (· ^^^ ·) 0]) ∧
  remainder (divisor 7) [0x40] = [182, 235, 73, 114, 250, 208, 12] ∧
  remainder (divisor 7) [0x01, 0x00] = [139, 245, 87, 192, 26, 34, 208]

/-- R186: after `RSREM src, len, src+len` every syndrome of the block in `DMEM` is zero. -/
def Obligations.CodewordBlockHasZeroSyndromes : Prop :=
  ∀ (s : State) (src len d : Nat), s.status.fatal = false → 1 ≤ d → d ≤ 255 → s.rs = generator d →
    src + len + d ≤ 8192 →
    ∃ t, exec (.rsrem src len (src + len)) s = .next t ∧
      ∀ i, i < d → evalAt (powerOfTwo i) (readRange t src (len + d)) = 0

/-! ### The bit builder -/

/-- R143, R144: BBNEW empties the builder, BBLEN reports its length. -/
def Obligations.BbnewEmptiesAndBblenReports : Prop :=
  ∀ s : State, s.status.fatal = false →
    (∃ b : Builder, exec .bbnew s = .next (answered 0 { s with bb := b }) ∧ b.bblen = 0 ∧
      ∀ i, i < 4096 → readAt b.bitbuf 0xFF i = 0) ∧
    exec .bblen s = .next (answered (BitVec.ofNat 32 s.bb.bblen.toNat) s)

/-- R145: BBAPP appends the low `width` bits of the value, most significant first, or is refused and appends nothing. -/
def Obligations.BbappAppendsTheLowBits : Prop :=
  ∀ (s : State) (width : Nat) (value : Word), s.status.fatal = false → BuilderInv s.bb →
    (width > 32 ∨ 2 ^ width ≤ value.toNat → exec (.bbapp width value) s = .next (refusedWith 1 s)) ∧
    (width ≤ 32 → value.toNat < 2 ^ width → s.bb.bblen.toNat + width > 32768 →
      exec (.bbapp width value) s = .next (refusedWith 6 s)) ∧
    (width ≤ 32 → value.toNat < 2 ^ width → s.bb.bblen.toNat + width ≤ 32768 → ∃ b : Builder,
      exec (.bbapp width value) s = .next (answered (BitVec.ofNat 32 (s.bb.bblen.toNat + width)) { s with bb := b }) ∧
      BuilderInv b ∧ content b = content s.bb ++ (List.range width).map (fun k => value.toNat.testBit (width - 1 - k)))

/-- R146: the laws of BBAPP. (a) new length, new bits, old bits; (b) the split law; (c) the byte law; (d) zeros. -/
def Obligations.BbappLaws : Prop :=
  (∀ (s t : State) (width : Nat) (value : Word), BuilderInv s.bb → exec (.bbapp width value) s = .next t →
    statusOf t = some 0 →
    t.bb.bblen.toNat = s.bb.bblen.toNat + width ∧
    (∀ k, k < width → builderBit t.bb (s.bb.bblen.toNat + k) = value.toNat.testBit (width - 1 - k)) ∧
    ∀ i, i < s.bb.bblen.toNat → builderBit t.bb i = builderBit s.bb i) ∧
  (∀ (s : State) (w₁ w₂ : Nat) (v₁ v₂ : Word), s.status.fatal = false → BuilderInv s.bb → w₁ + w₂ ≤ 32 →
    v₁.toNat < 2 ^ w₁ → v₂.toNat < 2 ^ w₂ → s.bb.bblen.toNat + w₁ + w₂ ≤ 32768 →
    ∃ t, runAll [.bbapp w₁ v₁, .bbapp w₂ v₂] s = some t ∧ statusOf t = some 0 ∧
      exec (.bbapp (w₁ + w₂) ((v₁ <<< w₂) ||| v₂)) s = .next t) ∧
  (∀ (s : State) (v : Word), s.status.fatal = false → BuilderInv s.bb → s.bb.bblen.toNat % 8 = 0 → v.toNat < 256 →
    s.bb.bblen.toNat + 8 ≤ 32768 →
    ∃ t, exec (.bbapp 8 v) s = .next t ∧ statusOf t = some 0 ∧
      readAt t.bb.bitbuf 0 (s.bb.bblen.toNat / 8) = v.setWidth 8) ∧
  ∀ (s : State) (n : Nat), s.status.fatal = false → BuilderInv s.bb → n ≤ 32 → s.bb.bblen.toNat + n ≤ 32768 →
    ∃ t, exec (.bbapp n 0) s = .next t ∧ statusOf t = some 0 ∧ t.bb.bitbuf = s.bb.bitbuf ∧
      t.bb.bblen.toNat = s.bb.bblen.toNat + n

/-- R147: BBAPPM appends the first `nbits` bits of the payload in `DMEM`, most significant first, or is refused. -/
def Obligations.BbappmAppendsThePayload : Prop :=
  ∀ (s : State) (src nbits : Nat), s.status.fatal = false → BuilderInv s.bb →
    (src + (nbits + 7) / 8 > 8192 ∨ s.bb.bblen.toNat + nbits > 32768 →
      exec (.bbappm src nbits) s = .next (refusedWith 6 s)) ∧
    (src + (nbits + 7) / 8 ≤ 8192 → s.bb.bblen.toNat + nbits ≤ 32768 → ∃ b : Builder,
      exec (.bbappm src nbits) s = .next (answered (BitVec.ofNat 32 (s.bb.bblen.toNat + nbits)) { s with bb := b }) ∧
      BuilderInv b ∧ content b = content s.bb ++ (List.range nbits).map (memoryBit s src))

/-- R148: BBAPPM leaves the builder that BBAPP of the same bits leaves: in one append for at most 32 bits, and byte by byte
for any number. -/
def Obligations.BbappmAgreesWithBbapp : Prop :=
  ∀ (s : State) (src nbits : Nat), s.status.fatal = false → BuilderInv s.bb → src + (nbits + 7) / 8 ≤ 8192 →
    s.bb.bblen.toNat + nbits ≤ 32768 →
    (∀ v : Word, nbits ≤ 32 → v.toNat < 2 ^ nbits → (∀ k, k < nbits → v.toNat.testBit (nbits - 1 - k) = memoryBit s src k) →
      ∃ t u, exec (.bbappm src nbits) s = .next t ∧ exec (.bbapp nbits v) s = .next u ∧ t.bb = u.bb ∧
        statusOf t = some 0 ∧ statusOf u = some 0) ∧
    ∃ t u, exec (.bbappm src nbits) s = .next t ∧ runAll (bytewiseAppends s src nbits) s = some u ∧ t.bb = u.bb ∧
      u.status = s.status

/-- R149: BBTOB copies the bytes of the content to `DMEM`, zero-padded, changes no other byte and not the builder. -/
def Obligations.BbtobCopiesTheContent : Prop :=
  ∀ (s : State) (dst : Nat), s.status.fatal = false → BuilderInv s.bb →
    (dst + (s.bb.bblen.toNat + 7) / 8 > 8192 → exec (.bbtob dst) s = .next (refusedWith 6 s)) ∧
    (dst + (s.bb.bblen.toNat + 7) / 8 ≤ 8192 → ∃ t, exec (.bbtob dst) s = .next t ∧
      t = answered (BitVec.ofNat 32 ((s.bb.bblen.toNat + 7) / 8)) { s with dmem := t.dmem } ∧
      (∀ k, k < (s.bb.bblen.toNat + 7) / 8 → readByte t (dst + k) = readAt s.bb.bitbuf 0 k) ∧
      (∀ i, i < s.bb.bblen.toNat → memoryBit t dst i = builderBit s.bb i) ∧
      (∀ i, s.bb.bblen.toNat ≤ i → i < 8 * ((s.bb.bblen.toNat + 7) / 8) → memoryBit t dst i = false) ∧
      ∀ a, a < dst ∨ dst + (s.bb.bblen.toNat + 7) / 8 ≤ a → readByte t a = readByte s a)

/-- R150: except by BBNEW and RESET the content only grows at its end, by the bits a successful append appends; everything
else, refused appends among it, leaves the builder as it is. -/
def Obligations.BuilderContentOnlyGrows : Prop :=
  ∀ (i : Instr) (s t : State), BuilderInv s.bb → exec i s = .next t → i ≠ .reset → i ≠ .bbnew →
    BuilderInv t.bb ∧
    ((t.bb = s.bb ∧ (statusOf t ≠ some 0 ∨ ∀ width value src nbits, i ≠ .bbapp width value ∧ i ≠ .bbappm src nbits)) ∨
    (statusOf t = some 0 ∧ ∃ width value, i = .bbapp width value ∧
      content t.bb = content s.bb ++ (List.range width).map (fun k => value.toNat.testBit (width - 1 - k))) ∨
    (statusOf t = some 0 ∧ ∃ src nbits, i = .bbappm src nbits ∧
      content t.bb = content s.bb ++ (List.range nbits).map (memoryBit s src)))

/-! ### Invariants -/

/-- R24: every step keeps the builder invariant. -/
def Obligations.EveryStepKeepsTheBuilderInvariant : Prop :=
  ∀ s t : State, BuilderInv s.bb → step s = .next t → BuilderInv t.bb

/-- R27, R28, R51 with log 6: every step keeps the generator invariant and the canonical form of `DMEM`. -/
def Obligations.EveryStepKeepsGeneratorAndMemory : Prop :=
  (∀ s t : State, GeneratorInv s.rs → step s = .next t → GeneratorInv t.rs) ∧
  ∀ s t : State, s.dmem.wf = true → step s = .next t → t.dmem.wf = true

/-- R41: every step keeps the invariants of the matrix state. -/
def Obligations.EveryStepKeepsTheMatrixInvariant : Prop :=
  ∀ s t : State, MatrixInv s.mx → step s = .next t → MatrixInv t.mx

/-- R225 with R344: from a state that meets the invariants no step reaches the fatal state. -/
def Obligations.NoStepReachesTheFatalState : Prop :=
  ∀ s t : State, MatrixInv s.mx → StatusInv s.status → step s = .next t → StatusInv t.status

/-- R24, R27, R41, R50: the invariants hold at reset; the last clause is the model's own list form of `DMEM` (log 6). -/
def Obligations.InvariantsHoldAtReset : Prop :=
  BuilderInv State.reset.bb ∧ GeneratorInv State.reset.rs ∧ MatrixInv State.reset.mx ∧ StatusInv State.reset.status ∧
  State.reset.dmem.wf = true

/-- R42: the phase changes only as the rule says, each successful matrix command leaves the phase of the rule's table, a
matrix command out of its phase is refused with SequenceError, and a matrix command in a phase of the table only for the
reason of the table's `TRIAL` conditions; in FINAL no command but MXNEW and RESET changes a grid. -/
def Obligations.PhaseChangesOnlyAsListed : Prop :=
  (∀ s : State, (hardReset s).mx.phase = .idle) ∧
  (∀ (i : Instr) (s t : State), exec i s = .next t → s.status.fatal = false → partOf i = .matrix →
    phaseLegal i s.mx.phase = true →
    (statusOf t = some 5 ↔ (∃ r, i = .mxsel r ∧ s.mx.trial ≠ 8) ∨
      ∃ m, i = .mxmask m ∧ m ≤ 7 ∧ s.mx.trial ≠ 8 ∧ s.mx.trial.toNat ≠ m)) ∧
  (∀ (i : Instr) (s t : State), exec i s = .next t → t.mx.phase ≠ s.mx.phase →
    statusOf t = some 0 ∧ (i = .reset ∨ i = .mxfunc ∨ (∃ v l, i = .mxnew v l) ∨ (∃ src n, i = .mxcw src n) ∨
      ∃ r, i = .mxsel r)) ∧
  (∀ (i : Instr) (s t : State), exec i s = .next t → statusOf t = some 0 →
    phaseLegal i s.mx.phase = true ∧ t.mx.phase = phaseAfter i s.mx.phase) ∧
  (∀ (i : Instr) (s : State), s.status.fatal = false → phaseLegal i s.mx.phase = false →
    exec i s = .next (refusedWith 5 s)) ∧
  ∀ (i : Instr) (s t : State), exec i s = .next t → s.mx.phase = .final → i ≠ .reset → (∀ v l, i ≠ .mxnew v l) →
    t.mx.modules = s.mx.modules ∧ t.mx.isfunc = s.mx.isfunc

/-- R41 (f): within one symbol a function flag never goes from 1 to 0, and after MXFUNC no flag changes. -/
def Obligations.FunctionFlagsAreWriteOnce : Prop :=
  ∀ (i : Instr) (s t : State), exec i s = .next t → i ≠ .reset → (∀ v l, i ≠ .mxnew v l) →
    (∀ x y, s.mx.isfunc.cell x y = true → t.mx.isfunc.cell x y = true) ∧
    (MatrixInv s.mx → patternsDrawn s.mx.phase → t.mx.isfunc = s.mx.isfunc)

/-! ### Matrix patterns -/

/-- R201: MXNEW starts a blank symbol of the version and level and answers its size, or is refused. -/
def Obligations.MxnewStartsABlankSymbol : Prop :=
  ∀ (s : State) (version level : Nat), s.status.fatal = false →
    (version < 1 ∨ version > 40 ∨ level > 3 → exec (.mxnew version level) s = .next (refusedWith 1 s)) ∧
    (1 ≤ version → version ≤ 40 → level ≤ 3 → ∃ mx : Matrix,
      exec (.mxnew version level) s = .next (answered (BitVec.ofNat 32 (4 * version + 17)) { s with mx := mx }) ∧
      mx.version.toNat = version ∧ mx.ecl.toNat = level ∧ mx.size.toNat = 4 * version + 17 ∧ mx.mask = 8 ∧ mx.trial = 8 ∧
      (∀ x y, mx.modules.cell x y = false ∧ mx.isfunc.cell x y = false) ∧
      mx.penTotal = 0 ∧ mx.penN1 = 0 ∧ mx.penN2 = 0 ∧ mx.penN3 = 0 ∧ mx.penN4 = 0 ∧ mx.phase = .alloc)

/-- R203: MXFUNC draws the patterns of the version and level over the blank grids, enters PATTERNS and answers the number of
free cells. -/
def Obligations.MxfuncDrawsThePatterns : Prop :=
  ∀ s : State, s.status.fatal = false → MatrixInv s.mx →
    (s.mx.phase ≠ .alloc → exec .mxfunc s = .next (refusedWith 5 s)) ∧
    (s.mx.phase = .alloc → ∃ mx : Matrix, mx = { s.mx with
        modules := (drawnSymbol s.mx.version.toNat s.mx.ecl.toNat).modules
        isfunc := (drawnSymbol s.mx.version.toNat s.mx.ecl.toNat).isfunc
        phase := .patterns } ∧
      exec .mxfunc s = .next (answered (BitVec.ofNat 32 (nfree mx)) { s with mx := mx }))

/-- R204, R205: the timing strips and the three finder patterns with their separators, as they stand after MXFUNC. -/
def Obligations.TimingAndFinderPatternsStand : Prop :=
  ∀ version level, 1 ≤ version → version ≤ 40 → level ≤ 3 →
    (∀ i, 8 ≤ i → i + 9 ≤ 4 * version + 17 →
      (drawnSymbol version level).modules.cell 6 i = decide (i % 2 = 0) ∧
      (drawnSymbol version level).modules.cell i 6 = decide (i % 2 = 0) ∧
      (drawnSymbol version level).isfunc.cell 6 i = true ∧ (drawnSymbol version level).isfunc.cell i 6 = true) ∧
    ∀ c ∈ [((3 : Int), (3 : Int)), (4 * version + 13, 3), (3, 4 * version + 13)], ∀ x y : Nat,
      x < 4 * version + 17 → y < 4 * version + 17 → cheb (x - c.1) (y - c.2) ≤ 4 →
      (drawnSymbol version level).isfunc.cell x y = true ∧
      (drawnSymbol version level).modules.cell x y =
        (decide (cheb (x - c.1) (y - c.2) ≠ 2) && decide (cheb (x - c.1) (y - c.2) ≠ 4))

/-- R206, R207, R208: the positions of every version are those of R207's table, and the alignment patterns stand after
MXFUNC at every pair of positions but the three skipped. -/
def Obligations.AlignmentPatternsStand : Prop :=
  (∀ version, 1 ≤ version → version ≤ 40 → alignPos version = alignmentTable.getD (version - 1) []) ∧
  ∀ version level, 1 ≤ version → version ≤ 40 → level ≤ 3 → ∀ i j,
    i < (alignPos version).length → j < (alignPos version).length →
    ¬(i = 0 ∧ j = 0) → ¬(i = 0 ∧ j + 1 = (alignPos version).length) → ¬(i + 1 = (alignPos version).length ∧ j = 0) →
    ∀ x y : Nat, cheb (x - (alignPos version).getD i 0) (y - (alignPos version).getD j 0) ≤ 2 →
      (drawnSymbol version level).isfunc.cell x y = true ∧
      (drawnSymbol version level).modules.cell x y =
        decide (cheb (x - (alignPos version).getD i 0) (y - (alignPos version).getD j 0) ≠ 1)

/-- R209, R210, R217: the format placeholder (mask 0), the always-dark cell and the version blocks after MXFUNC. -/
def Obligations.FormatAndVersionCellsStand : Prop :=
  ∀ version level, 1 ≤ version → version ≤ 40 → level ≤ 3 →
    (∀ i, i < 15 → ∀ c ∈ [formatFirstCopy.getD i (0, 0), (formatSecondCopy (4 * version + 17)).getD i (0, 0)],
      (drawnSymbol version level).modules.cell c.1 c.2 = (formatWord level 0).testBit i ∧
      (drawnSymbol version level).isfunc.cell c.1 c.2 = true) ∧
    (drawnSymbol version level).modules.cell 8 (4 * version + 9) = true ∧
    (drawnSymbol version level).isfunc.cell 8 (4 * version + 9) = true ∧
    (7 ≤ version → ∀ i, i < 18 → ∀ c ∈ [(4 * version + 6 + i % 3, i / 3), (i / 3, 4 * version + 6 + i % 3)],
      (drawnSymbol version level).modules.cell c.1 c.2 = (versionWord version).testBit i ∧
      (drawnSymbol version level).isfunc.cell c.1 c.2 = true)

/-- R211, R212, R215, R216: every format word and version word carries its data in the high bits, is a multiple of its
polynomial (the format word after removal of 0x5412), and has 15 or 18 bits. -/
def Obligations.FormatAndVersionWordsAreCodewords : Prop :=
  (∀ level m, level ≤ 3 → m ≤ 7 →
    formatWord level m < 2 ^ 15 ∧
    (formatWord level m ^^^ 0x5412) >>> 10 = 8 * ([1, 0, 3, 2].getD level 0) + m ∧
    ∃ q, q < 2 ^ 5 ∧ clmul 11 q 0x537 = formatWord level m ^^^ 0x5412) ∧
  ∀ v, 7 ≤ v → v ≤ 40 →
    versionWord v < 2 ^ 18 ∧ versionWord v >>> 12 = v ∧ ∃ q, q < 2 ^ 6 ∧ clmul 13 q 0x1F25 = versionWord v

/-- R213: the number of free cells after MXFUNC, for every version. -/
def Obligations.FreeCellCountOfEveryVersion : Prop :=
  ∀ version level, 1 ≤ version → version ≤ 40 → level ≤ 3 → nfree (drawnSymbol version level) = nfreeClosedForm version

/-- R214, R217: MXFMT draws the word in both copies and the always-dark cell, answers it, and changes nothing else. -/
def Obligations.MxfmtDrawsTheFormatWord : Prop :=
  ∀ (s : State) (m : Nat), s.status.fatal = false → MatrixInv s.mx →
    (s.mx.phase ≠ .data → exec (.mxfmt m) s = .next (refusedWith 5 s)) ∧
    (s.mx.phase = .data → m > 7 → exec (.mxfmt m) s = .next (refusedWith 1 s)) ∧
    (s.mx.phase = .data → m ≤ 7 → ∃ g : Grid,
      exec (.mxfmt m) s =
        .next (answered (BitVec.ofNat 32 (formatWord s.mx.ecl.toNat m)) { s with mx := { s.mx with modules := g } }) ∧
      (∀ i, i < 15 → ∀ c ∈ [formatFirstCopy.getD i (0, 0), (formatSecondCopy s.mx.size.toNat).getD i (0, 0)],
        g.cell c.1 c.2 = (formatWord s.mx.ecl.toNat m).testBit i) ∧
      g.cell 8 (s.mx.size.toNat - 8) = true ∧
      ∀ x y, (x, y) ∉ formatBitCells s.mx.size.toNat → (x, y) ≠ (8, s.mx.size.toNat - 8) →
        g.cell x y = s.mx.modules.cell x y)

/-- R221: the right columns of the scan, `SIZE−1, SIZE−3, .., 8`, then 5, 3, 1, and the alternating directions, the first
upward; each pair row by row, the right cell before the left. -/
def Obligations.ScanColumnsAndDirections : Prop :=
  ∀ version, 1 ≤ version → version ≤ 40 →
    scanRights (4 * version + 17) (4 * version + 16) =
      (List.range (2 * version + 5)).map (fun k => 4 * version + 16 - 2 * k) ++ [5, 3, 1] ∧
    (∀ k, k < 2 * version + 8 →
      scanUpward ((scanRights (4 * version + 17) (4 * version + 16)).getD k 0) = decide (k % 2 = 0)) ∧
    ∀ right vert, vert < 4 * version + 17 →
      (scanPair (4 * version + 17) right).getD (2 * vert) (0, 0) =
        (right, if scanUpward right then 4 * version + 16 - vert else vert) ∧
      (scanPair (4 * version + 17) right).getD (2 * vert + 1) (0, 0) =
        (right - 1, if scanUpward right then 4 * version + 16 - vert else vert)

/-- R225: the scan visits every free cell exactly once, so the internal fault of MXCW is unreachable. -/
def Obligations.ScanVisitsEachFreeCellOnce : Prop :=
  ∀ mx : Matrix, MatrixInv mx → patternsDrawn mx.phase →
    (freeScan mx).Nodup ∧ (freeScan mx).length = nfree mx ∧
    (∀ x y, (x, y) ∈ freeScan mx ↔ inGrid mx x y ∧ mx.isfunc.cell x y = false) ∧
    ∀ (s t : State) (src count : Nat), s.mx = mx → s.status.fatal = false → exec (.mxcw src count) s = .next t →
      statusOf t ≠ some 3

/-- R220: MXCW puts bit i of the codewords in the i-th free cell of the scan, leaves every other cell, enters DATA and
answers the number of bits; or it is refused in the order of the rule's tests. -/
def Obligations.MxcwPlacesTheCodewordBits : Prop :=
  ∀ (s : State) (src count : Nat), s.status.fatal = false → MatrixInv s.mx →
    (s.mx.phase ≠ .patterns → exec (.mxcw src count) s = .next (refusedWith 5 s)) ∧
    (s.mx.phase = .patterns → count ≠ nfree s.mx / 8 → exec (.mxcw src count) s = .next (refusedWith 1 s)) ∧
    (s.mx.phase = .patterns → count = nfree s.mx / 8 → src + count > 8192 →
      exec (.mxcw src count) s = .next (refusedWith 6 s)) ∧
    (s.mx.phase = .patterns → count = nfree s.mx / 8 → src + count ≤ 8192 → ∃ g : Grid,
      exec (.mxcw src count) s =
        .next (answered (BitVec.ofNat 32 (8 * count)) { s with mx := { s.mx with modules := g, phase := .data } }) ∧
      (∀ i, i < 8 * count →
        g.cell ((freeScan s.mx).getD i (0, 0)).1 ((freeScan s.mx).getD i (0, 0)).2 = memoryBit s src i) ∧
      ∀ x y, (x, y) ∉ (freeScan s.mx).take (8 * count) → g.cell x y = s.mx.modules.cell x y)

/-! ### Masks, penalty, selection, read-out -/

/-- R251: `ApplyMask` flips exactly the free cells that satisfy the predicate; twice restores the grid; two masks commute. -/
def Obligations.ApplyMaskIsAnInvolutionOnFreeCells : Prop :=
  ∀ (mx : Matrix) (m k : Nat), mx.size.toNat ≤ 177 →
    (∀ x y, (applyMask mx m).modules.cell x y =
      if inGrid mx x y ∧ mx.isfunc.cell x y = false ∧ maskPred m x y = true then !mx.modules.cell x y
      else mx.modules.cell x y) ∧
    applyMask (applyMask mx m) m = mx ∧ applyMask (applyMask mx m) k = applyMask (applyMask mx k) m

/-- R250, R252: the eight mask predicates are the conditions of R250's table and have its pictures; MXMASK applies the mask,
or removes it when it is the one applied, with the rule's tests in the rule's order. -/
def Obligations.MxmaskTogglesTheTrialMask : Prop :=
  (∀ m x y, m ≤ 7 → (maskPred m x y = true ↔ maskCondition m x y)) ∧
  (∀ m x y, m ≤ 7 → x ≤ 5 → y ≤ 5 →
    (maskPred m x y = true ↔ (((maskCorners.getD m []).getD y "").toList).getD x ' ' = '1')) ∧
  ∀ (s : State) (m : Nat), s.status.fatal = false → MatrixInv s.mx →
    (s.mx.phase ≠ .data → exec (.mxmask m) s = .next (refusedWith 5 s)) ∧
    (s.mx.phase = .data → m > 7 → exec (.mxmask m) s = .next (refusedWith 1 s)) ∧
    (s.mx.phase = .data → m ≤ 7 → s.mx.trial.toNat ≠ 8 → s.mx.trial.toNat ≠ m →
      exec (.mxmask m) s = .next (refusedWith 5 s)) ∧
    (s.mx.phase = .data → m ≤ 7 → s.mx.trial.toNat = 8 ∨ s.mx.trial.toNat = m → ∃ (g : Grid) (trial : BitVec 4),
      trial.toNat = (if s.mx.trial.toNat = m then 8 else m) ∧
      exec (.mxmask m) s =
        .next (answered (BitVec.ofNat 32 trial.toNat) { s with mx := { s.mx with modules := g, trial := trial } }) ∧
      ∀ x y, g.cell x y =
        if inGrid s.mx x y ∧ s.mx.isfunc.cell x y = false ∧ maskPred m x y = true then !s.mx.modules.cell x y
        else s.mx.modules.cell x y)

/-- R255, R262, R263: MXPEN stores the four components and their sum, none of them wrapping, and answers the sum. -/
def Obligations.MxpenScoresTheGrid : Prop :=
  (∀ (g : Grid) (size : Nat), size ≤ 177 →
    penaltyN1 g size ≤ 61950 ∧ penaltyN2 g size ≤ 92928 ∧ penaltyN3 g size ≤ 2364720 ∧ penaltyN4 g size ≤ 90) ∧
  ∀ s : State, s.status.fatal = false → MatrixInv s.mx →
    (s.mx.phase ≠ .data → s.mx.phase ≠ .final → exec .mxpen s = .next (refusedWith 5 s)) ∧
    (s.mx.phase = .data ∨ s.mx.phase = .final → ∃ n₁ n₂ n₃ n₄ total : Word,
      exec .mxpen s = .next (answered total { s with mx := { s.mx with
        penTotal := total, penN1 := n₁, penN2 := n₂, penN3 := n₃, penN4 := n₄ } }) ∧
      n₁.toNat = penaltyN1 s.mx.modules s.mx.size.toNat ∧ n₂.toNat = penaltyN2 s.mx.modules s.mx.size.toNat ∧
      n₃.toNat = penaltyN3 s.mx.modules s.mx.size.toNat ∧ n₄.toNat = penaltyN4 s.mx.modules s.mx.size.toNat ∧
      total.toNat = n₁.toNat + n₂.toNat + n₃.toNat + n₄.toNat)

/-- R256 to R259: N1 sums over the SIZE rows and the SIZE columns what their maximal runs contribute, r − 2 for a run of
r ≥ 5 cells; N2 is three for every 2 × 2 block of one colour; N3 is 40 for every window wholly inside a row or a column that
is one of the two patterns; N4 is ten times the least step whose band holds the ratio of dark cells. -/
def Obligations.RunsWindowsAndBalanceOfThePenalty : Prop :=
  ∀ (g : Grid) (size : Nat),
    penaltyN1 g size = ((List.range size).map (fun k =>
      lineRuns (rowAndColumn g size k).1 + lineRuns (rowAndColumn g size k).2)).sum ∧
    penaltyN2 g size = 3 * cellCount (size - 1) (oneColour g) ∧
    penaltyN3 g size = 40 * ((List.range size).map (fun k =>
      lineWindows (rowAndColumn g size k).1 + lineWindows (rowAndColumn g size k).2)).sum ∧
    ∃ k, k ≤ 9 ∧ penaltyN4 g size = 10 * k ∧
      (9 - k) * (size * size) ≤ 20 * cellCount size g.cell ∧ 20 * cellCount size g.cell ≤ (11 + k) * (size * size) ∧
      ∀ j, j < k →
        20 * cellCount size g.cell < (9 - j) * (size * size) ∨ (11 + j) * (size * size) < 20 * cellCount size g.cell

/-- R266, R274 (b), (c): MXSEL with a forced mask: the format word redrawn, the mask applied once to the free cells, the
grid scored, the phase FINAL; refused in the order of the rule's tests. -/
def Obligations.MxselForcedFinishesTheSymbol : Prop :=
  ∀ (s : State) (m : Nat), s.status.fatal = false → MatrixInv s.mx →
    (s.mx.phase ≠ .data ∨ s.mx.trial.toNat ≠ 8 → ∀ req, exec (.mxsel req) s = .next (refusedWith 5 s)) ∧
    (s.mx.phase = .data → s.mx.trial.toNat = 8 → m > 7 → exec (.mxsel (.forced m)) s = .next (refusedWith 1 s)) ∧
    (s.mx.phase = .data → s.mx.trial.toNat = 8 → m ≤ 7 → ∃ mx : Matrix,
      exec (.mxsel (.forced m)) s = .next (answered (BitVec.ofNat 32 m) { s with mx := mx }) ∧
      mx.phase = .final ∧ mx.mask.toNat = m ∧ mx.trial = s.mx.trial ∧ mx.version = s.mx.version ∧ mx.size = s.mx.size ∧
      mx.ecl = s.mx.ecl ∧ mx.isfunc = s.mx.isfunc ∧
      (∀ x y, inGrid s.mx x y → s.mx.isfunc.cell x y = false →
        mx.modules.cell x y = (s.mx.modules.cell x y ^^ maskPred m x y)) ∧
      (∀ i, i < 15 → ∀ c ∈ [formatFirstCopy.getD i (0, 0), (formatSecondCopy s.mx.size.toNat).getD i (0, 0)],
        mx.modules.cell c.1 c.2 = (formatWord s.mx.ecl.toNat m).testBit i) ∧
      (∀ x y, s.mx.isfunc.cell x y = true → (x, y) ∉ formatBitCells s.mx.size.toNat →
        mx.modules.cell x y = s.mx.modules.cell x y) ∧
      mx.penN1.toNat = penaltyN1 mx.modules mx.size.toNat ∧ mx.penN2.toNat = penaltyN2 mx.modules mx.size.toNat ∧
      mx.penN3.toNat = penaltyN3 mx.modules mx.size.toNat ∧ mx.penN4.toNat = penaltyN4 mx.modules mx.size.toNat ∧
      mx.penTotal.toNat = mx.penN1.toNat + mx.penN2.toNat + mx.penN3.toNat + mx.penN4.toNat)

/-- R266: automatic selection does what the forced selection of one mask does, and that mask has the lowest trial score,
the lowest index on ties. -/
def Obligations.MxselAutoPicksTheLowestScore : Prop :=
  ∀ s : State, s.status.fatal = false → s.mx.phase = .data → s.mx.trial.toNat = 8 →
    ∃ c t, c ≤ 7 ∧ exec (.mxsel .auto) s = .next t ∧ exec (.mxsel (.forced c)) s = .next t ∧ statusOf t = some 0 ∧
      (∀ m, m ≤ 7 → trialScore s.mx c ≤ trialScore s.mx m) ∧ ∀ m, m < c → trialScore s.mx c < trialScore s.mx m

/-- R268: the trial loop by hand. `MXFMT m`, `MXMASK m`, `MXPEN` answers the score that MXSEL computes for m, and after the
second `MXMASK m` every later trial scores what it would have scored before. -/
def Obligations.HandLoopGivesTheTrialScores : Prop :=
  ∀ (s : State) (m : Nat), s.status.fatal = false → MatrixInv s.mx → s.mx.phase = .data → s.mx.trial.toNat = 8 → m ≤ 7 →
    ∃ t u, runAll [.mxfmt m, .mxmask m, .mxpen] s = some t ∧ statusOf t = some 0 ∧
      resultOf t = some (BitVec.ofNat 32 (trialScore s.mx m)) ∧ trialScore s.mx m < 2 ^ 32 ∧
      exec (.mxmask m) t = .next u ∧ statusOf u = some 0 ∧ u.mx.phase = .data ∧ u.mx.trial.toNat = 8 ∧
      ∀ k, k ≤ 7 → trialScore u.mx k = trialScore s.mx k

/-- R274: from the end of MXCW to the end of MXSEL a function cell other than the 30 format-bit cells keeps its value, a free
cell with the trial mask taken off keeps its value, and MXSEL with result c leaves each free cell flipped by mask c once;
the flags do not change. -/
def Obligations.MaskingTouchesFreeCellsOnce : Prop :=
  ∀ (i : Instr) (s t : State), MatrixInv s.mx → s.mx.phase = .data → exec i s = .next t → i ≠ .reset →
    (∀ v l, i ≠ .mxnew v l) →
    t.mx.isfunc = s.mx.isfunc ∧
    (∀ x y, s.mx.isfunc.cell x y = true → (x, y) ∉ formatBitCells s.mx.size.toNat →
      t.mx.modules.cell x y = s.mx.modules.cell x y) ∧
    (t.mx.phase = .data → ∀ x y, s.mx.isfunc.cell x y = false → unmaskedCell t.mx x y = unmaskedCell s.mx x y) ∧
    (t.mx.phase = .final → ∃ c, c ≤ 7 ∧ resultOf t = some (BitVec.ofNat 32 c) ∧ t.mx.mask.toNat = c ∧
      (∀ x y, inGrid s.mx x y → s.mx.isfunc.cell x y = false →
        t.mx.modules.cell x y = (unmaskedCell s.mx x y ^^ maskPred c x y)) ∧
      ∀ k, k < 15 → ∀ p ∈ [formatFirstCopy.getD k (0, 0), (formatSecondCopy s.mx.size.toNat).getD k (0, 0)],
        t.mx.modules.cell p.1 p.2 = (formatWord s.mx.ecl.toNat c).testBit k)

/-- R270, R272: MXRD reads a module of the finished symbol, MXPEEK both grids in any phase but IDLE, both 0 outside the
symbol; neither changes anything. -/
def Obligations.ReadOutOfTheGrids : Prop :=
  ∀ (s : State) (x y : Int), s.status.fatal = false →
    (s.mx.phase ≠ .final → exec (.mxrd x y) s = .next (refusedWith 5 s)) ∧
    (s.mx.phase = .idle → exec (.mxpeek x y) s = .next (refusedWith 5 s)) ∧
    (∀ cx cy : Nat, x = cx → y = cy → inGrid s.mx cx cy →
      (s.mx.phase = .final →
        exec (.mxrd x y) s = .next (answered (BitVec.ofNat 32 (s.mx.modules.cell cx cy).toNat) s)) ∧
      (s.mx.phase ≠ .idle →
        exec (.mxpeek x y) s =
          .next (answered (BitVec.ofNat 32 ((s.mx.modules.cell cx cy).toNat + 2 * (s.mx.isfunc.cell cx cy).toNat)) s))) ∧
    (x < 0 ∨ y < 0 ∨ (s.mx.size.toNat : Int) ≤ x ∨ (s.mx.size.toNat : Int) ≤ y →
      (s.mx.phase = .final → exec (.mxrd x y) s = .next (answered 0 s)) ∧
      (s.mx.phase ≠ .idle → exec (.mxpeek x y) s = .next (answered 0 s)))

/-! ### The whole block -/

/-- R391: what the commands of each part write. -/
def Obligations.UnitsWriteTheirOwnState : Prop :=
  ∀ (i : Instr) (s t : State), exec i s = .next t → i ≠ .reset →
    t.epoch = s.epoch ∧ t.port = s.port ∧
    (partOf i ≠ .builder → t.bb = s.bb) ∧ (partOf i ≠ .reedSolomon → t.rs = s.rs) ∧ (partOf i ≠ .matrix → t.mx = s.mx) ∧
    (partOf i = .matrix ∨ partOf i = .field → t.dmem = s.dmem) ∧
    ∀ a, (∀ v, i ≠ .stb a v) → (∀ src len dst, i = .rsrem src len dst → a < dst ∨ dst + s.rs.rsdeg.toNat ≤ a) →
      (∀ dst, i = .bbtob dst → a < dst ∨ dst + (s.bb.bblen.toNat + 7) / 8 ≤ a) → readByte t a = readByte s a

/-- R391: what the commands of each part read. The response of GFMUL depends on `FATAL` alone; two states that agree on
the matrix state and on `FATAL` (for MXCW on the bytes of `DMEM` too) give the same response and the same new matrix state;
two that agree on the builder's (the RS unit's) state, on every byte of `DMEM` and on `FATAL` give the same response and the
same new state of that part and of `DMEM`. -/
def Obligations.UnitsReadTheirOwnState : Prop :=
  ∀ (i : Instr) (s t s' t' : State), exec i s = .next s' → exec i t = .next t' → s.status.fatal = t.status.fatal →
    (partOf i = .field → s'.response = t'.response) ∧
    (partOf i = .matrix → s.mx = t.mx → (∀ src count, i = .mxcw src count → ∀ a, readByte s a = readByte t a) →
      s'.response = t'.response ∧ s'.mx = t'.mx) ∧
    ((∀ a, readByte s a = readByte t a) →
      (partOf i = .builder → s.bb = t.bb →
        s'.response = t'.response ∧ s'.bb = t'.bb ∧ ∀ a, readByte s' a = readByte t' a) ∧
      (partOf i = .reedSolomon → s.rs = t.rs →
        s'.response = t'.response ∧ s'.rs = t'.rs ∧ ∀ a, readByte s' a = readByte t' a))

/-! ### The host driver -/

/-- R309, R310: the version search finds the first version of the range that fits, or fails with DataTooLong when none does;
the boost changes the level only upward, to one that fits. -/
def Obligations.VersionSearchAndBoost : Prop :=
  (∀ (segments : List Segment) (ecl vmin vmax v : Nat), versionSearch segments ecl vmin vmax = .ok v ↔
    vmin ≤ v ∧ v ≤ vmax ∧ fitsVersion segments ecl v = true ∧ ∀ u, vmin ≤ u → u < v → fitsVersion segments ecl u = false) ∧
  (∀ (segments : List Segment) (ecl vmin vmax : Nat), versionSearch segments ecl vmin vmax = .error .dataTooLong ↔
    ∀ u, vmin ≤ u → u ≤ vmax → fitsVersion segments ecl u = false) ∧
  ∀ (segments : List Segment) (version ecl : Nat), ecl ≤ 3 →
    ecl ≤ boost segments version ecl ∧ boost segments version ecl ≤ 3 ∧
    (boost segments version ecl ≠ ecl → fitsVersion segments (boost segments version ecl) version = true) ∧
    ∀ l, boost segments version ecl < l → l ≤ 3 → fitsVersion segments l version = false

end Statements
end

