-- ==== Sys2Proof/Laws/State.lean ====
section
/-! SUPPORT. One lemma per field per update, true by rfl, so that no proof unfolds a record update. -/

namespace Sys2Proof.Laws

open Sys2Proof.Machine

@[simp] theorem respond_bb (v : Word) (s : State) :
    (respond v s).bb = s.bb := rfl
@[simp] theorem respond_rs (v : Word) (s : State) :
    (respond v s).rs = s.rs := rfl
@[simp] theorem respond_mx (v : Word) (s : State) :
    (respond v s).mx = s.mx := rfl
@[simp] theorem respond_dmem (v : Word) (s : State) :
    (respond v s).dmem = s.dmem := rfl
@[simp] theorem respond_status (v : Word) (s : State) :
    (respond v s).status = s.status := rfl
@[simp] theorem respond_epoch (v : Word) (s : State) :
    (respond v s).epoch = s.epoch := rfl
@[simp] theorem respond_port (v : Word) (s : State) :
    (respond v s).port = s.port := rfl
@[simp] theorem respond_response (v : Word) (s : State) :
    (respond v s).response = some ⟨0, v⟩ := rfl

@[simp] theorem refuse_bb (c : StatusCode) (s : State) :
    (refuse c s).bb = s.bb := rfl
@[simp] theorem refuse_rs (c : StatusCode) (s : State) :
    (refuse c s).rs = s.rs := rfl
@[simp] theorem refuse_mx (c : StatusCode) (s : State) :
    (refuse c s).mx = s.mx := rfl
@[simp] theorem refuse_dmem (c : StatusCode) (s : State) :
    (refuse c s).dmem = s.dmem := rfl
@[simp] theorem refuse_status (c : StatusCode) (s : State) :
    (refuse c s).status = s.status.refused c := rfl
@[simp] theorem refuse_epoch (c : StatusCode) (s : State) :
    (refuse c s).epoch = s.epoch := rfl
@[simp] theorem refuse_port (c : StatusCode) (s : State) :
    (refuse c s).port = s.port := rfl
@[simp] theorem refuse_response (c : StatusCode) (s : State) :
    (refuse c s).response = some ⟨c.toByte, 0⟩ := rfl

@[simp] theorem resetBlock_bb (s : State) :
    (resetBlock s).bb = Builder.reset := rfl
@[simp] theorem resetBlock_rs (s : State) :
    (resetBlock s).rs = RsGen.reset := rfl
@[simp] theorem resetBlock_mx (s : State) :
    (resetBlock s).mx = Matrix.reset := rfl
@[simp] theorem resetBlock_dmem (s : State) :
    (resetBlock s).dmem = [] := rfl
@[simp] theorem resetBlock_status (s : State) :
    (resetBlock s).status = ⟨0, false, false⟩ := rfl
@[simp] theorem resetBlock_epoch (s : State) :
    (resetBlock s).epoch = s.epoch + 1 := rfl
@[simp] theorem resetBlock_port (s : State) :
    (resetBlock s).port = s.port := rfl
@[simp] theorem resetBlock_response (s : State) :
    (resetBlock s).response = none := rfl

@[simp] theorem present_bb (w : Cmd) (s : State) :
    (present w s).bb = s.bb := rfl
@[simp] theorem present_rs (w : Cmd) (s : State) :
    (present w s).rs = s.rs := rfl
@[simp] theorem present_mx (w : Cmd) (s : State) :
    (present w s).mx = s.mx := rfl
@[simp] theorem present_dmem (w : Cmd) (s : State) :
    (present w s).dmem = s.dmem := rfl
@[simp] theorem present_status (w : Cmd) (s : State) :
    (present w s).status = s.status := rfl
@[simp] theorem present_epoch (w : Cmd) (s : State) :
    (present w s).epoch = s.epoch := rfl
@[simp] theorem present_port (w : Cmd) (s : State) :
    (present w s).port = .command w :: s.port := rfl
@[simp] theorem present_response (w : Cmd) (s : State) :
    (present w s).response = s.response := rfl

@[simp] theorem writeByte_bb (s : State) (a : Nat) (v : Byte) :
    (writeByte s a v).bb = s.bb := rfl
@[simp] theorem writeByte_rs (s : State) (a : Nat) (v : Byte) :
    (writeByte s a v).rs = s.rs := rfl
@[simp] theorem writeByte_mx (s : State) (a : Nat) (v : Byte) :
    (writeByte s a v).mx = s.mx := rfl
@[simp] theorem writeByte_dmem (s : State) (a : Nat) (v : Byte) :
    (writeByte s a v).dmem = s.dmem.store a v := rfl
@[simp] theorem writeByte_status (s : State) (a : Nat) (v : Byte) :
    (writeByte s a v).status = s.status := rfl
@[simp] theorem writeByte_epoch (s : State) (a : Nat) (v : Byte) :
    (writeByte s a v).epoch = s.epoch := rfl
@[simp] theorem writeByte_port (s : State) (a : Nat) (v : Byte) :
    (writeByte s a v).port = s.port := rfl
@[simp] theorem writeByte_response (s : State) (a : Nat) (v : Byte) :
    (writeByte s a v).response = s.response := rfl

@[simp] theorem refused_lasterr (c : StatusCode) (st : Status) :
    (st.refused c).lasterr = c.toByte := rfl
@[simp] theorem refused_err (c : StatusCode) (st : Status) :
    (st.refused c).err = true := rfl
@[simp] theorem refused_fatal (c : StatusCode) (st : Status) :
    (st.refused c).fatal = (st.fatal || decide (c = .internalConsistencyFault)) := rfl

@[simp] theorem appendBit_bblen (bb : Builder) (b : Bool) :
    (appendBit bb b).bblen = bb.bblen + 1 := rfl
@[simp] theorem appendAndAnswer_bb (bits : List Bool) (s : State) :
    (appendAndAnswer bits s).bb = appendBits s.bb bits := rfl
@[simp] theorem appendAndAnswer_rs (bits : List Bool) (s : State) :
    (appendAndAnswer bits s).rs = s.rs := rfl
@[simp] theorem appendAndAnswer_mx (bits : List Bool) (s : State) :
    (appendAndAnswer bits s).mx = s.mx := rfl
@[simp] theorem appendAndAnswer_dmem (bits : List Bool) (s : State) :
    (appendAndAnswer bits s).dmem = s.dmem := rfl
@[simp] theorem appendAndAnswer_status (bits : List Bool) (s : State) :
    (appendAndAnswer bits s).status = s.status := rfl
@[simp] theorem appendAndAnswer_epoch (bits : List Bool) (s : State) :
    (appendAndAnswer bits s).epoch = s.epoch := rfl
@[simp] theorem appendAndAnswer_port (bits : List Bool) (s : State) :
    (appendAndAnswer bits s).port = s.port := rfl
@[simp] theorem appendAndAnswer_response (bits : List Bool) (s : State) :
    (appendAndAnswer bits s).response = some ⟨0, (appendBits s.bb bits).bblen.setWidth 32⟩ := rfl

@[simp] theorem setFunction_phase (mx : Matrix) (c : CellWrite) :
    (setFunction mx c).phase = mx.phase := rfl
@[simp] theorem setFunction_version (mx : Matrix) (c : CellWrite) :
    (setFunction mx c).version = mx.version := rfl
@[simp] theorem setFunction_size (mx : Matrix) (c : CellWrite) :
    (setFunction mx c).size = mx.size := rfl
@[simp] theorem setFunction_ecl (mx : Matrix) (c : CellWrite) :
    (setFunction mx c).ecl = mx.ecl := rfl
@[simp] theorem setFunction_mask (mx : Matrix) (c : CellWrite) :
    (setFunction mx c).mask = mx.mask := rfl
@[simp] theorem setFunction_trial (mx : Matrix) (c : CellWrite) :
    (setFunction mx c).trial = mx.trial := rfl
@[simp] theorem setFunction_modules (mx : Matrix) (c : CellWrite) :
    (setFunction mx c).modules = mx.modules.put c.1 c.2.1 c.2.2 := rfl
@[simp] theorem setFunction_isfunc (mx : Matrix) (c : CellWrite) :
    (setFunction mx c).isfunc = mx.isfunc.put c.1 c.2.1 true := rfl
@[simp] theorem setFunction_penTotal (mx : Matrix) (c : CellWrite) :
    (setFunction mx c).penTotal = mx.penTotal := rfl
@[simp] theorem setFunction_penN1 (mx : Matrix) (c : CellWrite) :
    (setFunction mx c).penN1 = mx.penN1 := rfl
@[simp] theorem setFunction_penN2 (mx : Matrix) (c : CellWrite) :
    (setFunction mx c).penN2 = mx.penN2 := rfl
@[simp] theorem setFunction_penN3 (mx : Matrix) (c : CellWrite) :
    (setFunction mx c).penN3 = mx.penN3 := rfl
@[simp] theorem setFunction_penN4 (mx : Matrix) (c : CellWrite) :
    (setFunction mx c).penN4 = mx.penN4 := rfl

@[simp] theorem applyMask_phase (mx : Matrix) (m : Nat) :
    (applyMask mx m).phase = mx.phase := rfl
@[simp] theorem applyMask_version (mx : Matrix) (m : Nat) :
    (applyMask mx m).version = mx.version := rfl
@[simp] theorem applyMask_size (mx : Matrix) (m : Nat) :
    (applyMask mx m).size = mx.size := rfl
@[simp] theorem applyMask_ecl (mx : Matrix) (m : Nat) :
    (applyMask mx m).ecl = mx.ecl := rfl
@[simp] theorem applyMask_mask (mx : Matrix) (m : Nat) :
    (applyMask mx m).mask = mx.mask := rfl
@[simp] theorem applyMask_trial (mx : Matrix) (m : Nat) :
    (applyMask mx m).trial = mx.trial := rfl
@[simp] theorem applyMask_modules (mx : Matrix) (m : Nat) :
    (applyMask mx m).modules = Grid.build (fun x y => mx.modules.cell x y ^^ maskFlips mx m x y) := rfl
@[simp] theorem applyMask_isfunc (mx : Matrix) (m : Nat) :
    (applyMask mx m).isfunc = mx.isfunc := rfl
@[simp] theorem applyMask_penTotal (mx : Matrix) (m : Nat) :
    (applyMask mx m).penTotal = mx.penTotal := rfl
@[simp] theorem applyMask_penN1 (mx : Matrix) (m : Nat) :
    (applyMask mx m).penN1 = mx.penN1 := rfl
@[simp] theorem applyMask_penN2 (mx : Matrix) (m : Nat) :
    (applyMask mx m).penN2 = mx.penN2 := rfl
@[simp] theorem applyMask_penN3 (mx : Matrix) (m : Nat) :
    (applyMask mx m).penN3 = mx.penN3 := rfl
@[simp] theorem applyMask_penN4 (mx : Matrix) (m : Nat) :
    (applyMask mx m).penN4 = mx.penN4 := rfl

@[simp] theorem toggleMask_phase (mx : Matrix) (m : Nat) :
    (toggleMask mx m).phase = mx.phase := rfl
@[simp] theorem toggleMask_version (mx : Matrix) (m : Nat) :
    (toggleMask mx m).version = mx.version := rfl
@[simp] theorem toggleMask_size (mx : Matrix) (m : Nat) :
    (toggleMask mx m).size = mx.size := rfl
@[simp] theorem toggleMask_ecl (mx : Matrix) (m : Nat) :
    (toggleMask mx m).ecl = mx.ecl := rfl
@[simp] theorem toggleMask_mask (mx : Matrix) (m : Nat) :
    (toggleMask mx m).mask = mx.mask := rfl
@[simp] theorem toggleMask_trial (mx : Matrix) (m : Nat) :
    (toggleMask mx m).trial = toggledTrial mx.trial m := rfl
@[simp] theorem toggleMask_modules (mx : Matrix) (m : Nat) :
    (toggleMask mx m).modules = (applyMask mx m).modules := rfl
@[simp] theorem toggleMask_isfunc (mx : Matrix) (m : Nat) :
    (toggleMask mx m).isfunc = mx.isfunc := rfl
@[simp] theorem toggleMask_penTotal (mx : Matrix) (m : Nat) :
    (toggleMask mx m).penTotal = mx.penTotal := rfl
@[simp] theorem toggleMask_penN1 (mx : Matrix) (m : Nat) :
    (toggleMask mx m).penN1 = mx.penN1 := rfl
@[simp] theorem toggleMask_penN2 (mx : Matrix) (m : Nat) :
    (toggleMask mx m).penN2 = mx.penN2 := rfl
@[simp] theorem toggleMask_penN3 (mx : Matrix) (m : Nat) :
    (toggleMask mx m).penN3 = mx.penN3 := rfl
@[simp] theorem toggleMask_penN4 (mx : Matrix) (m : Nat) :
    (toggleMask mx m).penN4 = mx.penN4 := rfl

@[simp] theorem withPenalty_phase (mx : Matrix) (p : Penalty) :
    (withPenalty mx p).phase = mx.phase := rfl
@[simp] theorem withPenalty_version (mx : Matrix) (p : Penalty) :
    (withPenalty mx p).version = mx.version := rfl
@[simp] theorem withPenalty_size (mx : Matrix) (p : Penalty) :
    (withPenalty mx p).size = mx.size := rfl
@[simp] theorem withPenalty_ecl (mx : Matrix) (p : Penalty) :
    (withPenalty mx p).ecl = mx.ecl := rfl
@[simp] theorem withPenalty_mask (mx : Matrix) (p : Penalty) :
    (withPenalty mx p).mask = mx.mask := rfl
@[simp] theorem withPenalty_trial (mx : Matrix) (p : Penalty) :
    (withPenalty mx p).trial = mx.trial := rfl
@[simp] theorem withPenalty_modules (mx : Matrix) (p : Penalty) :
    (withPenalty mx p).modules = mx.modules := rfl
@[simp] theorem withPenalty_isfunc (mx : Matrix) (p : Penalty) :
    (withPenalty mx p).isfunc = mx.isfunc := rfl
@[simp] theorem withPenalty_penTotal (mx : Matrix) (p : Penalty) :
    (withPenalty mx p).penTotal = BitVec.ofNat 32 p.total := rfl
@[simp] theorem withPenalty_penN1 (mx : Matrix) (p : Penalty) :
    (withPenalty mx p).penN1 = BitVec.ofNat 32 p.n1 := rfl
@[simp] theorem withPenalty_penN2 (mx : Matrix) (p : Penalty) :
    (withPenalty mx p).penN2 = BitVec.ofNat 32 p.n2 := rfl
@[simp] theorem withPenalty_penN3 (mx : Matrix) (p : Penalty) :
    (withPenalty mx p).penN3 = BitVec.ofNat 32 p.n3 := rfl
@[simp] theorem withPenalty_penN4 (mx : Matrix) (p : Penalty) :
    (withPenalty mx p).penN4 = BitVec.ofNat 32 p.n4 := rfl

@[simp] theorem scored_phase (mx : Matrix) :
    (scored mx).phase = mx.phase := rfl
@[simp] theorem scored_version (mx : Matrix) :
    (scored mx).version = mx.version := rfl
@[simp] theorem scored_size (mx : Matrix) :
    (scored mx).size = mx.size := rfl
@[simp] theorem scored_ecl (mx : Matrix) :
    (scored mx).ecl = mx.ecl := rfl
@[simp] theorem scored_mask (mx : Matrix) :
    (scored mx).mask = mx.mask := rfl
@[simp] theorem scored_trial (mx : Matrix) :
    (scored mx).trial = mx.trial := rfl
@[simp] theorem scored_modules (mx : Matrix) :
    (scored mx).modules = mx.modules := rfl
@[simp] theorem scored_isfunc (mx : Matrix) :
    (scored mx).isfunc = mx.isfunc := rfl
@[simp] theorem scored_penTotal (mx : Matrix) :
    (scored mx).penTotal = BitVec.ofNat 32 (penalty mx.modules mx.size.toNat).total := rfl
@[simp] theorem scored_penN1 (mx : Matrix) :
    (scored mx).penN1 = BitVec.ofNat 32 (penalty mx.modules mx.size.toNat).n1 := rfl
@[simp] theorem scored_penN2 (mx : Matrix) :
    (scored mx).penN2 = BitVec.ofNat 32 (penalty mx.modules mx.size.toNat).n2 := rfl
@[simp] theorem scored_penN3 (mx : Matrix) :
    (scored mx).penN3 = BitVec.ofNat 32 (penalty mx.modules mx.size.toNat).n3 := rfl
@[simp] theorem scored_penN4 (mx : Matrix) :
    (scored mx).penN4 = BitVec.ofNat 32 (penalty mx.modules mx.size.toNat).n4 := rfl

@[simp] theorem withPatterns_phase (mx : Matrix) :
    (withPatterns mx).phase = .patterns := rfl
@[simp] theorem withPatterns_version (mx : Matrix) :
    (withPatterns mx).version = (drawFunctionPatterns mx).version := rfl
@[simp] theorem withPatterns_size (mx : Matrix) :
    (withPatterns mx).size = (drawFunctionPatterns mx).size := rfl
@[simp] theorem withPatterns_ecl (mx : Matrix) :
    (withPatterns mx).ecl = (drawFunctionPatterns mx).ecl := rfl
@[simp] theorem withPatterns_mask (mx : Matrix) :
    (withPatterns mx).mask = (drawFunctionPatterns mx).mask := rfl
@[simp] theorem withPatterns_trial (mx : Matrix) :
    (withPatterns mx).trial = (drawFunctionPatterns mx).trial := rfl
@[simp] theorem withPatterns_modules (mx : Matrix) :
    (withPatterns mx).modules = (drawFunctionPatterns mx).modules := rfl
@[simp] theorem withPatterns_isfunc (mx : Matrix) :
    (withPatterns mx).isfunc = (drawFunctionPatterns mx).isfunc := rfl
@[simp] theorem withPatterns_penTotal (mx : Matrix) :
    (withPatterns mx).penTotal = (drawFunctionPatterns mx).penTotal := rfl
@[simp] theorem withPatterns_penN1 (mx : Matrix) :
    (withPatterns mx).penN1 = (drawFunctionPatterns mx).penN1 := rfl
@[simp] theorem withPatterns_penN2 (mx : Matrix) :
    (withPatterns mx).penN2 = (drawFunctionPatterns mx).penN2 := rfl
@[simp] theorem withPatterns_penN3 (mx : Matrix) :
    (withPatterns mx).penN3 = (drawFunctionPatterns mx).penN3 := rfl
@[simp] theorem withPatterns_penN4 (mx : Matrix) :
    (withPatterns mx).penN4 = (drawFunctionPatterns mx).penN4 := rfl

@[simp] theorem finishSymbol_phase (mx : Matrix) (k : Nat) :
    (finishSymbol mx k).phase = .final := rfl
@[simp] theorem finishSymbol_version (mx : Matrix) (k : Nat) :
    (finishSymbol mx k).version = (trialGrid mx k).version := by simp only [finishSymbol, scored_version]
@[simp] theorem finishSymbol_size (mx : Matrix) (k : Nat) :
    (finishSymbol mx k).size = (trialGrid mx k).size := by simp only [finishSymbol, scored_size]
@[simp] theorem finishSymbol_ecl (mx : Matrix) (k : Nat) :
    (finishSymbol mx k).ecl = (trialGrid mx k).ecl := by simp only [finishSymbol, scored_ecl]
@[simp] theorem finishSymbol_mask (mx : Matrix) (k : Nat) :
    (finishSymbol mx k).mask = BitVec.ofNat 4 k := rfl
@[simp] theorem finishSymbol_trial (mx : Matrix) (k : Nat) :
    (finishSymbol mx k).trial = (trialGrid mx k).trial := by simp only [finishSymbol, scored_trial]
@[simp] theorem finishSymbol_modules (mx : Matrix) (k : Nat) :
    (finishSymbol mx k).modules = (trialGrid mx k).modules := by simp only [finishSymbol, scored_modules]
@[simp] theorem finishSymbol_isfunc (mx : Matrix) (k : Nat) :
    (finishSymbol mx k).isfunc = (trialGrid mx k).isfunc := by simp only [finishSymbol, scored_isfunc]
@[simp] theorem finishSymbol_penTotal (mx : Matrix) (k : Nat) :
    (finishSymbol mx k).penTotal = (scored (trialGrid mx k)).penTotal := by simp only [finishSymbol]
@[simp] theorem finishSymbol_penN1 (mx : Matrix) (k : Nat) :
    (finishSymbol mx k).penN1 = (scored (trialGrid mx k)).penN1 := by simp only [finishSymbol]
@[simp] theorem finishSymbol_penN2 (mx : Matrix) (k : Nat) :
    (finishSymbol mx k).penN2 = (scored (trialGrid mx k)).penN2 := by simp only [finishSymbol]
@[simp] theorem finishSymbol_penN3 (mx : Matrix) (k : Nat) :
    (finishSymbol mx k).penN3 = (scored (trialGrid mx k)).penN3 := by simp only [finishSymbol]
@[simp] theorem finishSymbol_penN4 (mx : Matrix) (k : Nat) :
    (finishSymbol mx k).penN4 = (scored (trialGrid mx k)).penN4 := by simp only [finishSymbol]

@[simp] theorem newSymbol_phase (v l : Nat) :
    (newSymbol v l).phase = .alloc := rfl
@[simp] theorem newSymbol_version (v l : Nat) :
    (newSymbol v l).version = BitVec.ofNat 6 v := rfl
@[simp] theorem newSymbol_size (v l : Nat) :
    (newSymbol v l).size = BitVec.ofNat 8 (Config.sizeOf v) := rfl
@[simp] theorem newSymbol_ecl (v l : Nat) :
    (newSymbol v l).ecl = BitVec.ofNat 2 l := rfl
@[simp] theorem newSymbol_mask (v l : Nat) :
    (newSymbol v l).mask = 8 := rfl
@[simp] theorem newSymbol_trial (v l : Nat) :
    (newSymbol v l).trial = 8 := rfl
@[simp] theorem newSymbol_modules (v l : Nat) :
    (newSymbol v l).modules = Grid.blank := rfl
@[simp] theorem newSymbol_isfunc (v l : Nat) :
    (newSymbol v l).isfunc = Grid.blank := rfl
@[simp] theorem newSymbol_penTotal (v l : Nat) :
    (newSymbol v l).penTotal = 0 := rfl
@[simp] theorem newSymbol_penN1 (v l : Nat) :
    (newSymbol v l).penN1 = 0 := rfl
@[simp] theorem newSymbol_penN2 (v l : Nat) :
    (newSymbol v l).penN2 = 0 := rfl
@[simp] theorem newSymbol_penN3 (v l : Nat) :
    (newSymbol v l).penN3 = 0 := rfl
@[simp] theorem newSymbol_penN4 (v l : Nat) :
    (newSymbol v l).penN4 = 0 := rfl

@[simp] theorem generator_rsdeg (d : Nat) :
    (generator d).rsdeg = BitVec.ofNat 8 d := rfl

end Sys2Proof.Laws
end

