-- ==== Sys2Proof/Laws/Answer.lean ====
section
/-! SUPPORT. Answering and refusing: what each of the two shared operations gives, in the terms of the statements. -/

namespace Sys2Proof.Laws

open Sys2Proof.Machine Sys2Proof.Safety

/-- `refuse` is the refusal of R343. -/
theorem refuse_eq (c : StatusCode) (s : State) : refuse c s = refusedWith c.toByte s := by
  cases c <;> simp [refuse, refusedWith, Status.refused, StatusCode.toByte]

/-- `respond` is the successful answer. -/
theorem respond_eq (v : Word) (s : State) : respond v s = answered v s := rfl

/-- A command of the fatal state. -/
theorem unlessFatal_of_fatal {s : State} (served : State) (h : s.status.fatal = true) :
    unlessFatal s served = .next (refusedWith 3 s) := by
  simp [unlessFatal, h, refuse_eq, StatusCode.toByte]

/-- A command outside the fatal state is served. -/
theorem unlessFatal_of_ok {s : State} (served : State) (h : s.status.fatal = false) : unlessFatal s served = .next served := by
  simp [unlessFatal, h]

/-- Everything a command behind the FATAL test can answer. -/
theorem unlessFatal_cases {s served t : State} (h : unlessFatal s served = .next t) :
    (s.status.fatal = true ∧ t = refusedWith 3 s) ∨ (s.status.fatal = false ∧ t = served) := by
  cases hf : s.status.fatal
  · rw [unlessFatal_of_ok _ hf] at h
    simp_all
  · rw [unlessFatal_of_fatal _ hf] at h
    simp_all

@[simp] theorem statusOf_respond (v : Word) (s : State) : statusOf (respond v s) = some 0 := rfl
@[simp] theorem resultOf_respond (v : Word) (s : State) : resultOf (respond v s) = some v := rfl
@[simp] theorem statusOf_answered (v : Word) (s : State) : statusOf (answered v s) = some 0 := rfl
@[simp] theorem resultOf_answered (v : Word) (s : State) : resultOf (answered v s) = some v := rfl
@[simp] theorem statusOf_refusedWith (c : Byte) (s : State) : statusOf (refusedWith c s) = some c := rfl
@[simp] theorem resultOf_refusedWith (c : Byte) (s : State) : resultOf (refusedWith c s) = some 0 := rfl
@[simp] theorem answered_status (v : Word) (s : State) : (answered v s).status = s.status := rfl
@[simp] theorem answered_bb (v : Word) (s : State) : (answered v s).bb = s.bb := rfl
@[simp] theorem answered_rs (v : Word) (s : State) : (answered v s).rs = s.rs := rfl
@[simp] theorem answered_mx (v : Word) (s : State) : (answered v s).mx = s.mx := rfl
@[simp] theorem answered_dmem (v : Word) (s : State) : (answered v s).dmem = s.dmem := rfl
@[simp] theorem answered_epoch (v : Word) (s : State) : (answered v s).epoch = s.epoch := rfl
@[simp] theorem answered_port (v : Word) (s : State) : (answered v s).port = s.port := rfl
@[simp] theorem answered_response (v : Word) (s : State) : (answered v s).response = some ⟨0, v⟩ := rfl
@[simp] theorem refusedWith_bb (c : Byte) (s : State) : (refusedWith c s).bb = s.bb := rfl
@[simp] theorem refusedWith_rs (c : Byte) (s : State) : (refusedWith c s).rs = s.rs := rfl
@[simp] theorem refusedWith_mx (c : Byte) (s : State) : (refusedWith c s).mx = s.mx := rfl
@[simp] theorem refusedWith_dmem (c : Byte) (s : State) : (refusedWith c s).dmem = s.dmem := rfl
@[simp] theorem refusedWith_epoch (c : Byte) (s : State) : (refusedWith c s).epoch = s.epoch := rfl
@[simp] theorem refusedWith_port (c : Byte) (s : State) : (refusedWith c s).port = s.port := rfl
@[simp] theorem refusedWith_response (c : Byte) (s : State) : (refusedWith c s).response = some ⟨c, 0⟩ := rfl
@[simp] theorem refusedWith_status (c : Byte) (s : State) :
    (refusedWith c s).status = ⟨c, true, s.status.fatal || decide (c = 3)⟩ := rfl

end Sys2Proof.Laws
end

