-- ==== Sys2Proof/Laws/Grid.lean ====
section
/-! SUPPORT. Arrays by natural index, and grids: what a read gives after a write. -/

namespace Sys2Proof.Laws

open Sys2Proof.Machine

variable {α : Type} {n : Nat}

theorem readAt_of_lt (v : Vector α n) (d : α) {i : Nat} (h : i < n) : readAt v d i = v[i] := by
  simp [readAt, h]

theorem readAt_of_ge (v : Vector α n) (d : α) {i : Nat} (h : n ≤ i) : readAt v d i = d := by
  simp [readAt, Nat.not_lt.mpr h]

/-- A read after a write: the value written at the place written, the old value elsewhere. -/
theorem readAt_writeAt (v : Vector α n) (d x : α) (i j : Nat) :
    readAt (writeAt v i x) d j = if j = i ∧ i < n then x else readAt v d j := by
  unfold readAt writeAt
  by_cases hi : i < n <;> by_cases hj : j < n <;> simp [hi, hj, Vector.getElem_set, eq_comm]
  omega

/-- A read of a tabulated array. -/
@[simp] theorem readAt_tabulate (f : Nat → α) (d : α) (i : Nat) :
    readAt (tabulate n f) d i = if i < n then f i else d := by
  unfold readAt tabulate
  split <;> simp

@[simp] theorem readAt_replicate (x : α) (d : α) (i : Nat) :
    readAt (Vector.replicate n x) d i = if i < n then x else d := by
  unfold readAt
  split <;> simp

/-- Two arrays with the same entries are equal. -/
theorem vector_ext_readAt {v w : Vector α n} (d : α) (h : ∀ i, i < n → readAt v d i = readAt w d i) : v = w := by
  apply Vector.ext
  intro i hi
  simpa [readAt, hi] using h i hi

/-- A cell after one cell has been put. -/
theorem cell_put (g : Grid) (x y : Nat) (v : Bool) (x' y' : Nat) :
    (g.put x y v).cell x' y' =
      if x' = x ∧ y' = y ∧ x < Config.maxSide ∧ y < Config.maxSide then v else g.cell x' y' := by
  simp only [Grid.cell, Grid.put, readAt_writeAt]
  by_cases hy : y' = y <;> by_cases hyl : y < Config.maxSide <;> simp [hy, hyl, readAt_writeAt]

/-- A cell of a grid given by a function. -/
theorem cell_build (f : Nat → Nat → Bool) (x y : Nat) :
    (Grid.build f).cell x y = (decide (x < Config.maxSide) && decide (y < Config.maxSide) && f x y) := by
  simp only [Grid.cell, Grid.build, readAt_tabulate]
  by_cases hy : y < Config.maxSide <;> by_cases hx : x < Config.maxSide <;> simp [hy, hx]

@[simp] theorem cell_blank (x y : Nat) : Grid.blank.cell x y = false := by
  simp only [Grid.cell, Grid.blank, readAt_replicate]
  split <;> simp

/-- There is no cell outside the storage. -/
theorem cell_outside (g : Grid) {x y : Nat} (h : Config.maxSide ≤ x ∨ Config.maxSide ≤ y) : g.cell x y = false := by
  unfold Grid.cell
  rcases h with h | h
  · exact readAt_of_ge _ _ h
  · rw [readAt_of_ge _ _ h, readAt_replicate]
    split <;> rfl

/-- Two grids with the same cells are equal. -/
theorem grid_ext {g h : Grid} (hc : ∀ x y, x < Config.maxSide → y < Config.maxSide → g.cell x y = h.cell x y) :
    g = h := by
  cases g with | mk r => cases h with | mk q =>
  congr 1
  refine vector_ext_readAt (Vector.replicate Config.maxSide false) fun y hy => ?_
  exact vector_ext_readAt false fun x hx => hc x y hx hy

end Sys2Proof.Laws
end

