-- ==== Sys2Proof/Laws/Builder.lean ====
section
/-! SUPPORT. The bit builder: what one append and a run of appends do to the length and to each bit (R141, R146). -/

namespace Sys2Proof.Laws

open Sys2Proof.Machine

/-- The bits of a byte with one bit of it set from the most significant end. -/
theorem getLsbD_or_bit (u : Byte) (b : Bool) {p j : Nat} (hp : p < 8) (hj : j < 8) :
    (u ||| (BitVec.ofNat 8 (bit01 b) <<< (7 - p))).getLsbD (7 - j) = (u.getLsbD (7 - j) || (decide (j = p) && b)) := by
  have h : ∀ b : Bool, ∀ p < 8, ∀ j < 8,
      (BitVec.ofNat 8 (bit01 b) <<< (7 - p)).getLsbD (7 - j) = (decide (j = p) && b) := by decide
  rw [BitVec.getLsbD_or, h b p hp j hj]

/-- One append (R141): the length grows by one and only the bit at the old length can change. -/
theorem builderBit_appendBit (bb : Builder) (b : Bool) (i : Nat) (h : bb.bblen.toNat < 8 * Config.bbCapBytes) :
    builderBit (appendBit bb b) i = if i = bb.bblen.toNat then builderBit bb i || b else builderBit bb i := by
  simp only [builderBit, seqBit, appendBit, readAt_writeAt]
  have hcap : bb.bblen.toNat / 8 < Config.bbCapBytes := by omega
  by_cases hd : i / 8 = bb.bblen.toNat / 8
  · rw [if_pos ⟨hd, hcap⟩, getLsbD_or_bit _ _ (Nat.mod_lt _ (by decide)) (Nat.mod_lt _ (by decide)), ← hd]
    by_cases hi : i = bb.bblen.toNat
    · simp [hi]
    · have : i % 8 ≠ bb.bblen.toNat % 8 := by omega
      simp [hi, this]
  · rw [if_neg (fun hc => hd hc.1), if_neg (fun hc => hd (by rw [hc]))]

theorem bblen_appendBit (bb : Builder) (b : Bool) (h : bb.bblen.toNat < 8 * Config.bbCapBytes) :
    (appendBit bb b).bblen.toNat = bb.bblen.toNat + 1 := by
  simp only [appendBit, BitVec.toNat_add, Config.bbCapBytes] at *
  simp
  omega

/-- The length after a run of appends that fits. -/
theorem bblen_appendBits (bits : List Bool) (bb : Builder) (h : bb.bblen.toNat + bits.length ≤ 8 * Config.bbCapBytes) :
    (appendBits bb bits).bblen.toNat = bb.bblen.toNat + bits.length := by
  induction bits generalizing bb with
  | nil => rfl
  | cons b rest ih =>
    simp only [List.length_cons] at h
    have h1 := bblen_appendBit bb b (by omega)
    show (appendBits (appendBit bb b) rest).bblen.toNat = _
    rw [ih _ (by omega), h1, List.length_cons]
    omega

/-- Each bit after a run of appends that fits: the appended bit in the new part (over whatever stood there), the old bit
elsewhere. -/
theorem builderBit_appendBits (bits : List Bool) (bb : Builder) (i : Nat)
    (h : bb.bblen.toNat + bits.length ≤ 8 * Config.bbCapBytes) :
    builderBit (appendBits bb bits) i =
      if bb.bblen.toNat ≤ i ∧ i < bb.bblen.toNat + bits.length then builderBit bb i || bits.getD (i - bb.bblen.toNat) false
      else builderBit bb i := by
  induction bits generalizing bb with
  | nil => simp [appendBits]
  | cons b rest ih =>
    simp only [List.length_cons] at h ⊢
    have hlt : bb.bblen.toNat < 8 * Config.bbCapBytes := by omega
    have h1 := bblen_appendBit bb b hlt
    show builderBit (appendBits (appendBit bb b) rest) i = _
    rw [ih _ (by omega), h1, builderBit_appendBit bb b i hlt]
    by_cases hi : i = bb.bblen.toNat
    · subst hi
      simp
    · by_cases hr : bb.bblen.toNat + 1 ≤ i ∧ i < bb.bblen.toNat + 1 + rest.length
      · obtain ⟨k, rfl⟩ : ∃ k, i = bb.bblen.toNat + (k + 1) := ⟨i - bb.bblen.toNat - 1, by omega⟩
        rw [if_pos hr, if_neg hi, if_pos (by omega), Nat.add_sub_cancel_left, List.getD_cons_succ]
        congr 2
        omega
      · rw [if_neg hr, if_neg hi, if_neg (by omega)]

theorem length_msbFirst (width : Nat) (value : Word) : (msbFirst width value).length = width := by
  simp [msbFirst]

theorem getD_msbFirst (width : Nat) (value : Word) {k : Nat} (h : k < width) :
    (msbFirst width value).getD k false = value.getLsbD (width - 1 - k) := by
  simp [msbFirst, List.getD_eq_getElem?_getD, h]

theorem length_payloadBits (s : State) (src nbits : Nat) : (payloadBits s src nbits).length = nbits := by
  simp [payloadBits]

/-- The builder is determined by its length and its bits below the capacity. -/
theorem builder_ext {a b : Builder} (hl : a.bblen = b.bblen)
    (hb : ∀ i, i < 8 * Config.bbCapBytes → builderBit a i = builderBit b i) : a = b := by
  have hbuf : a.bitbuf = b.bitbuf := by
    refine vector_ext_readAt 0 fun k hk => ?_
    apply BitVec.eq_of_getLsbD_eq
    intro j hj
    have := hb (8 * k + (7 - j)) (by omega)
    simp only [builderBit, seqBit] at this
    rwa [show (8 * k + (7 - j)) / 8 = k by omega, show 7 - (8 * k + (7 - j)) % 8 = j by omega] at this
  cases a; cases b
  simp_all

end Sys2Proof.Laws
end

