-- ==== Sys2Proof/Laws/Commands.lean ====
section
/-! SUPPORT. One spec lemma per command: what `exec` answers outside the fatal state, as the tests in the rule's order with
their codes and, after them, the command's own effect. -/

namespace Sys2Proof.Laws

open Sys2Proof.Machine Sys2Proof.Safety

variable {s : State}

theorem exec_reset : exec .reset s = .next (answered 0 (resetBlock s)) := rfl

theorem exec_rdcr (n : Nat) :
    exec (.rdcr n) s = .next (if n ≥ 10 then refusedWith 1 s else answered (controlRegister s n) s) := by
  simp only [exec, execRdcr, refuse_eq, respond_eq, StatusCode.toByte]

theorem exec_ldb (h : s.status.fatal = false) (addr : Nat) : exec (.ldb addr) s = .next (
    if addr ≥ 8192 then refusedWith 6 s else answered ((readByte s addr).setWidth 32) s) := by
  simp only [exec, execLdb, unlessFatal_of_ok _ h, refuse_eq, respond_eq, StatusCode.toByte]

theorem exec_stb (h : s.status.fatal = false) (addr : Nat) (v : Byte) : exec (.stb addr v) s = .next (
    if addr ≥ 8192 then refusedWith 6 s else answered 0 (writeByte s addr v)) := by
  simp only [exec, execStb, unlessFatal_of_ok _ h, refuse_eq, respond_eq, StatusCode.toByte]

theorem exec_gfmul (h : s.status.fatal = false) (x y : Nat) : exec (.gfmul x y) s = .next (
    if x > 255 ∨ y > 255 then refusedWith 1 s
    else answered ((gfmul (BitVec.ofNat 8 x) (BitVec.ofNat 8 y)).setWidth 32) s) := by
  simp only [exec, execGfmul, unlessFatal_of_ok _ h, refuse_eq, respond_eq, StatusCode.toByte]

theorem exec_rsinit (h : s.status.fatal = false) (d : Nat) : exec (.rsinit d) s = .next (
    if d < 1 ∨ d > 255 then refusedWith 1 s else answered (BitVec.ofNat 32 d) { s with rs := generator d }) := by
  simp only [exec, execRsinit, unlessFatal_of_ok _ h, refuse_eq, respond_eq, StatusCode.toByte]

theorem exec_rsrdc (h : s.status.fatal = false) (i : Nat) : exec (.rsrdc i) s = .next (
    if s.rs.rsdeg.toNat = 0 then refusedWith 5 s
    else if i ≥ s.rs.rsdeg.toNat then refusedWith 1 s
    else answered ((readAt s.rs.div 0 i).setWidth 32) s) := by
  simp only [exec, execRsrdc, unlessFatal_of_ok _ h, refuse_eq, respond_eq, StatusCode.toByte]

theorem exec_rsrem (h : s.status.fatal = false) (src len dst : Nat) : exec (.rsrem src len dst) s = .next (
    if s.rs.rsdeg.toNat = 0 then refusedWith 5 s
    else if rangeFits src len = false then refusedWith 6 s
    else if rangeFits dst s.rs.rsdeg.toNat = false then refusedWith 6 s
    else answered (s.rs.rsdeg.setWidth 32)
      (writeRange s dst (remainder (divCoefficients s.rs) (readRange s src len)))) := by
  simp only [exec, execRsrem, unlessFatal_of_ok _ h, refuse_eq, respond_eq, StatusCode.toByte]

theorem exec_bbnew (h : s.status.fatal = false) : exec .bbnew s = .next (answered 0 { s with bb := Builder.reset }) := by
  simp only [exec, execBbnew, unlessFatal_of_ok _ h, respond_eq]

theorem exec_bblen (h : s.status.fatal = false) : exec .bblen s = .next (answered (s.bb.bblen.setWidth 32) s) := by
  simp only [exec, execBblen, unlessFatal_of_ok _ h, respond_eq]

theorem exec_bbapp (h : s.status.fatal = false) (width : Nat) (value : Word) : exec (.bbapp width value) s = .next (
    if appendOperandsLegal width value = false then refusedWith 1 s
    else if appendFits s.bb width = false then refusedWith 6 s
    else answered ((appendBits s.bb (msbFirst width value)).bblen.setWidth 32)
      { s with bb := appendBits s.bb (msbFirst width value) }) := by
  simp only [exec, execBbapp, unlessFatal_of_ok _ h, refuse_eq, appendAndAnswer, respond_eq, StatusCode.toByte]

theorem exec_bbappm (h : s.status.fatal = false) (src nbits : Nat) : exec (.bbappm src nbits) s = .next (
    if rangeFits src (bytesFor nbits) = false then refusedWith 6 s
    else if appendFits s.bb nbits = false then refusedWith 6 s
    else answered ((appendBits s.bb (payloadBits s src nbits)).bblen.setWidth 32)
      { s with bb := appendBits s.bb (payloadBits s src nbits) }) := by
  simp only [exec, execBbappm, unlessFatal_of_ok _ h, refuse_eq, appendAndAnswer, respond_eq, StatusCode.toByte]

theorem exec_bbtob (h : s.status.fatal = false) (dst : Nat) : exec (.bbtob dst) s = .next (
    if rangeFits dst (bytesFor s.bb.bblen.toNat) = false then refusedWith 6 s
    else answered (BitVec.ofNat 32 (bytesFor s.bb.bblen.toNat)) (writeRange s dst (builderBytes s.bb))) := by
  simp only [exec, execBbtob, unlessFatal_of_ok _ h, refuse_eq, respond_eq, StatusCode.toByte]

theorem exec_mxnew (h : s.status.fatal = false) (version level : Nat) : exec (.mxnew version level) s = .next (
    if version < 1 ∨ version > 40 then refusedWith 1 s
    else if level > 3 then refusedWith 1 s
    else answered (BitVec.ofNat 32 (Config.sizeOf version)) { s with mx := newSymbol version level }) := by
  simp only [exec, execMxnew, unlessFatal_of_ok _ h, refuse_eq, respond_eq, StatusCode.toByte]

theorem exec_mxfunc (h : s.status.fatal = false) : exec .mxfunc s = .next (
    if s.mx.phase ≠ .alloc then refusedWith 5 s
    else answered (BitVec.ofNat 32 (nfree (withPatterns s.mx))) { s with mx := withPatterns s.mx }) := by
  simp only [exec, execMxfunc, unlessFatal_of_ok _ h, refuse_eq, respond_eq, StatusCode.toByte]

theorem exec_mxcw (h : s.status.fatal = false) (src count : Nat) : exec (.mxcw src count) s = .next (
    if s.mx.phase ≠ .patterns then refusedWith 5 s
    else if count ≠ nfree s.mx / 8 then refusedWith 1 s
    else if rangeFits src count = false then refusedWith 6 s
    else finishCodewords (placeBits s.mx (codewordBit s src) (8 * count)) count s) := by
  simp only [exec, execMxcw, unlessFatal_of_ok _ h, refuse_eq, StatusCode.toByte]

theorem exec_mxfmt (h : s.status.fatal = false) (m : Nat) : exec (.mxfmt m) s = .next (
    if s.mx.phase ≠ .data then refusedWith 5 s
    else if maskLegal m = false then refusedWith 1 s
    else answered (BitVec.ofNat 32 (formatWord s.mx.ecl.toNat m)) { s with mx := drawFormat s.mx m }) := by
  simp only [exec, execMxfmt, unlessFatal_of_ok _ h, refuse_eq, respond_eq, StatusCode.toByte]

theorem exec_mxmask (h : s.status.fatal = false) (m : Nat) : exec (.mxmask m) s = .next (
    if s.mx.phase ≠ .data then refusedWith 5 s
    else if maskLegal m = false then refusedWith 1 s
    else if s.mx.trial.toNat ≠ 8 ∧ s.mx.trial.toNat ≠ m then refusedWith 5 s
    else answered ((toggledTrial s.mx.trial m).setWidth 32) { s with mx := toggleMask s.mx m }) := by
  simp only [exec, execMxmask, unlessFatal_of_ok _ h, refuse_eq, respond_eq, StatusCode.toByte]

theorem exec_mxpen (h : s.status.fatal = false) : exec .mxpen s = .next (
    if s.mx.phase ≠ .data ∧ s.mx.phase ≠ .final then refusedWith 5 s
    else answered (scored s.mx).penTotal { s with mx := scored s.mx }) := by
  simp only [exec, execMxpen, unlessFatal_of_ok _ h, refuse_eq, respond_eq, StatusCode.toByte]

theorem exec_mxsel (h : s.status.fatal = false) (req : MaskRequest) : exec (.mxsel req) s = .next (
    if s.mx.phase ≠ .data ∨ s.mx.trial.toNat ≠ 8 then refusedWith 5 s
    else if requestLegal req = false then refusedWith 1 s
    else answered (BitVec.ofNat 32 (chooseMask s.mx req).2)
      { s with mx := finishSymbol (chooseMask s.mx req).1 (chooseMask s.mx req).2 }) := by
  simp only [exec, execMxsel, unlessFatal_of_ok _ h, refuse_eq, selectAndAnswer, respond_eq, StatusCode.toByte]

theorem exec_mxrd (h : s.status.fatal = false) (x y : Int) : exec (.mxrd x y) s = .next (
    if s.mx.phase ≠ .final then refusedWith 5 s else answered (BitVec.ofNat 32 (moduleAt s.mx x y)) s) := by
  simp only [exec, execMxrd, unlessFatal_of_ok _ h, refuse_eq, respond_eq, StatusCode.toByte]

theorem exec_mxpeek (h : s.status.fatal = false) (x y : Int) : exec (.mxpeek x y) s = .next (
    if s.mx.phase = .idle then refusedWith 5 s else answered (BitVec.ofNat 32 (peekAt s.mx x y)) s) := by
  simp only [exec, execMxpeek, unlessFatal_of_ok _ h, refuse_eq, respond_eq, StatusCode.toByte]

/-- Every command but RESET and RDCR in the fatal state (R344). -/
theorem exec_fatal (h : s.status.fatal = true) (i : Instr) (hr : i ≠ .reset) (hn : ∀ n, i ≠ .rdcr n) :
    exec i s = .next (refusedWith 3 s) := by
  cases i with
  | reset => exact absurd rfl hr
  | rdcr n => exact absurd rfl (hn n)
  | _ => exact unlessFatal_of_fatal _ h

end Sys2Proof.Laws
end

