-- ==== Sys2Proof/Laws/Content.lean ====
section
/-! SUPPORT. The builder's content: what a run of appends makes of it and of the invariant, and the tests of the appends as
arithmetic. -/

namespace Sys2Proof.Laws

open Sys2Proof.Machine Sys2Proof.Safety

/-- The capacity test of an append (R145, R147). -/
theorem appendFits_iff (bb : Builder) (n : Nat) : appendFits bb n = true ↔ bb.bblen.toNat + n ≤ 32768 := by
  simp only [appendFits, decide_eq_true_eq]
  exact Iff.rfl

/-- BBAPP's operand test (R145). -/
theorem appendOperandsLegal_iff (w : Nat) (v : Word) : appendOperandsLegal w v = true ↔ w ≤ 32 ∧ v.toNat < 2 ^ w := by
  have hv := v.isLt
  have hs : v.toNat >>> w = v.toNat / 2 ^ w := Nat.shiftRight_eq_div_pow ..
  have hp : 0 < 2 ^ w := Nat.two_pow_pos w
  have hz : v.toNat / 2 ^ w = 0 ↔ v.toNat < 2 ^ w := by
    rw [Nat.div_eq_zero_iff]
    omega
  simp only [appendOperandsLegal, Bool.and_eq_true, decide_eq_true_eq, Bool.not_eq_true', Bool.and_eq_false_iff,
    decide_eq_false_iff_not, hs, Decidable.not_not, hz]
  constructor
  · rintro ⟨h1, h2 | h2⟩
    · have h1' : w ≤ 32 := h1
      obtain rfl : w = 32 := by omega
      exact ⟨h1, hv⟩
    · exact ⟨h1, h2⟩
  · rintro ⟨h1, h2⟩
    exact ⟨h1, .inr h2⟩

/-- The bits BBAPP appends, as bits of the number (R146). -/
theorem msbFirst_eq (w : Nat) (v : Word) : msbFirst w v = (List.range w).map (fun k => v.toNat.testBit (w - 1 - k)) := by
  simp [msbFirst, BitVec.testBit_toNat]

/-- The bits BBAPPM appends, as bits of the bytes in `DMEM` (R10, R147). -/
theorem payloadBits_eq (s : State) (src n : Nat) : payloadBits s src n = (List.range n).map (memoryBit s src) := rfl

/-- A run of appends that fits keeps the invariant and concatenates the content (R24, R150). -/
theorem builderInv_appendBits {bb : Builder} {bits : List Bool} (h : BuilderInv bb)
    (hc : bb.bblen.toNat + bits.length ≤ 32768) :
    BuilderInv (appendBits bb bits) ∧ content (appendBits bb bits) = content bb ++ bits ∧
      (appendBits bb bits).bblen.toNat = bb.bblen.toNat + bits.length := by
  have hl := bblen_appendBits bits bb hc
  refine ⟨⟨?_, ?_⟩, ?_, hl⟩
  · rw [hl]
    exact hc
  · intro i hi
    rw [hl] at hi
    rw [builderBit_appendBits _ _ _ hc, if_neg (by omega)]
    exact h.2 i (by omega)
  · unfold content
    rw [hl]
    apply List.ext_getElem
    · simp
    · intro k h1 h2
      simp only [List.getElem_map, List.getElem_range, List.getElem_append, List.length_map, List.length_range]
      simp only [List.length_map, List.length_range] at h1
      rw [builderBit_appendBits _ _ _ hc]
      split
      · next hk =>
        rw [dif_neg (by omega), h.2 k hk.1, List.getD_eq_getElem?_getD, List.getElem?_eq_getElem (by omega)]
        simp
      · next hk => rw [dif_pos (by omega)]

/-- The empty builder meets the invariant (R24, R50). -/
theorem builderInv_reset : BuilderInv Builder.reset := by
  refine ⟨by decide, fun i _ => ?_⟩
  simp only [builderBit, seqBit, Builder.reset, readAt_replicate]
  split <;> simp

/-- Two builders with the same content and the invariant are equal. -/
theorem builder_eq_of_content {a b : Builder} (ha : BuilderInv a) (hb : BuilderInv b) (h : content a = content b) :
    a = b := by
  have hl : a.bblen.toNat = b.bblen.toNat := by simpa [content] using congrArg List.length h
  refine builder_ext (BitVec.eq_of_toNat_eq hl) fun i _ => ?_
  by_cases hi : i < a.bblen.toNat
  · have := congrArg (fun l => l.getD i false) h
    simpa [content, List.getD_eq_getElem?_getD, hi, hl ▸ hi] using this
  · rw [ha.2 i (by omega), hb.2 i (by omega)]

end Sys2Proof.Laws
end

