-- ==== Sys2Proof/Laws/Drawing.lean ====
section
/-! SUPPORT. Drawing function cells, applying a mask, placing bits: the fields they leave and the cells they give. -/

namespace Sys2Proof.Laws

open Sys2Proof.Machine

/-! ### SetFunction and lists of it -/

/-- Drawing changes the two grids alone. -/
theorem drawCells_frame (cells : List CellWrite) (mx : Matrix) :
    drawCells mx cells = { mx with modules := (drawCells mx cells).modules, isfunc := (drawCells mx cells).isfunc } := by
  induction cells generalizing mx with
  | nil => rfl
  | cons c rest ih =>
    show drawCells (setFunction mx c) rest = _
    rw [ih (setFunction mx c)]
    rfl

/-- The value the last write of the list gives a cell, if the list writes it. -/
def lastWrite (cells : List CellWrite) (x y : Nat) : Option Bool :=
  (cells.reverse.find? (fun c => c.1 == x && c.2.1 == y)).map (fun c => c.2.2)

/-- A cell after drawing: the last value drawn stands (R200). -/
theorem modules_drawCells (cells : List CellWrite) (mx : Matrix) {x y : Nat} (hx : x < Config.maxSide)
    (hy : y < Config.maxSide) :
    (drawCells mx cells).modules.cell x y = (lastWrite cells x y).getD (mx.modules.cell x y) := by
  induction cells generalizing mx with
  | nil => rfl
  | cons c rest ih =>
    show (drawCells (setFunction mx c) rest).modules.cell x y = _
    rw [ih (setFunction mx c)]
    simp only [lastWrite, List.reverse_cons, List.find?_append, setFunction, cell_put]
    cases hf : List.find? (fun c => c.1 == x && c.2.1 == y) rest.reverse with
    | some d => simp
    | none =>
      obtain ⟨a, b, v⟩ := c
      by_cases h : a = x ∧ b = y
      · obtain ⟨rfl, rfl⟩ := h
        simp [hx, hy]
      · have h' : ¬(x = a ∧ y = b) := fun e => h ⟨e.1.symm, e.2.symm⟩
        have hb : (a == x && b == y) = false := by simpa using h
        simp only [Option.map_none, Option.getD_none, Option.none_or, List.find?_singleton, hb]
        rw [if_neg (fun e => h' ⟨e.1, e.2.1⟩)]
        simp

/-- A flag after drawing: set where the list draws, as before elsewhere (R41 f). -/
theorem isfunc_drawCells (cells : List CellWrite) (mx : Matrix) {x y : Nat} (hx : x < Config.maxSide)
    (hy : y < Config.maxSide) :
    (drawCells mx cells).isfunc.cell x y = (mx.isfunc.cell x y || cells.any (fun c => c.1 == x && c.2.1 == y)) := by
  induction cells generalizing mx with
  | nil => simp [drawCells]
  | cons c rest ih =>
    show (drawCells (setFunction mx c) rest).isfunc.cell x y = _
    rw [ih (setFunction mx c)]
    simp only [setFunction, cell_put, List.any_cons]
    obtain ⟨a, b, v⟩ := c
    by_cases h : a = x ∧ b = y
    · obtain ⟨rfl, rfl⟩ := h
      simp [hx, hy]
    · have hb : (a == x && b == y) = false := by simpa using h
      rw [if_neg (fun e => h ⟨e.1.symm, e.2.1.symm⟩)]
      simp only [hb, Bool.false_or]

@[simp] theorem drawCells_phase (cells : List CellWrite) (mx : Matrix) : (drawCells mx cells).phase = mx.phase := by
  rw [drawCells_frame]
@[simp] theorem drawCells_version (cells : List CellWrite) (mx : Matrix) : (drawCells mx cells).version = mx.version := by
  rw [drawCells_frame]
@[simp] theorem drawCells_size (cells : List CellWrite) (mx : Matrix) : (drawCells mx cells).size = mx.size := by
  rw [drawCells_frame]
@[simp] theorem drawCells_ecl (cells : List CellWrite) (mx : Matrix) : (drawCells mx cells).ecl = mx.ecl := by
  rw [drawCells_frame]
@[simp] theorem drawCells_mask (cells : List CellWrite) (mx : Matrix) : (drawCells mx cells).mask = mx.mask := by
  rw [drawCells_frame]
@[simp] theorem drawCells_trial (cells : List CellWrite) (mx : Matrix) : (drawCells mx cells).trial = mx.trial := by
  rw [drawCells_frame]

/-- A cell no write of the list names keeps its value. -/
theorem lastWrite_eq_none {cells : List CellWrite} {x y : Nat} (h : ∀ c ∈ cells, ¬(c.1 = x ∧ c.2.1 = y)) :
    lastWrite cells x y = none := by
  simp only [lastWrite, Option.map_eq_none_iff, List.find?_eq_none, List.mem_reverse]
  intro c hc
  simpa using h c hc

/-- The last write of a list that ends in one that decides the cell. -/
theorem lastWrite_append (as bs : List CellWrite) (x y : Nat) :
    lastWrite (as ++ bs) x y = (lastWrite bs x y).or (lastWrite as x y) := by
  simp only [lastWrite, List.reverse_append, List.find?_append]
  cases List.find? (fun c => c.1 == x && c.2.1 == y) bs.reverse <;> rfl

/-! ### Masks -/

/-- A cell after `ApplyMask` (R251). -/
theorem modules_applyMask (mx : Matrix) (m x y : Nat) (hs : mx.size.toNat ≤ Config.maxSide) :
    (applyMask mx m).modules.cell x y = (mx.modules.cell x y ^^ maskFlips mx m x y) := by
  simp only [applyMask, cell_build]
  by_cases hx : x < Config.maxSide
  · by_cases hy : y < Config.maxSide
    · simp [hx, hy]
    · rw [cell_outside _ (.inr (by omega))]
      simp [maskFlips, show ¬y < mx.size.toNat by omega, hy]
  · rw [cell_outside _ (.inl (by omega))]
    simp [maskFlips, show ¬x < mx.size.toNat by omega, hx]

/-- Which cells a mask flips does not depend on the colours. -/
theorem maskFlips_congr {a b : Matrix} (hs : a.size = b.size) (hf : a.isfunc = b.isfunc) (m x y : Nat) :
    maskFlips a m x y = maskFlips b m x y := by
  simp [maskFlips, hs, hf]

/-! ### The codeword scan -/

/-- What the scan leaves unchanged and how far it has counted: one cell. -/
theorem placeBit_cases (isfunc : Grid) (bit : Nat → Bool) (nbits : Nat) (acc : Grid × Nat) (c : Nat × Nat) :
    (placeBit isfunc bit nbits acc c = (acc.1.put c.1 c.2 (bit acc.2), acc.2 + 1) ∧ isfunc.cell c.1 c.2 = false ∧
      acc.2 < nbits) ∨
    (placeBit isfunc bit nbits acc c = acc ∧ (isfunc.cell c.1 c.2 = true ∨ nbits ≤ acc.2)) := by
  unfold placeBit
  split
  · next h => exact .inl ⟨rfl, h⟩
  · next h =>
    refine .inr ⟨rfl, ?_⟩
    by_cases hf : isfunc.cell c.1 c.2 = false
    · exact .inr (Nat.le_of_not_lt fun hl => h ⟨hf, hl⟩)
    · exact .inl (by simpa using hf)

end Sys2Proof.Laws
end

