-- ==== Sys2Proof/Laws/Encoding.lean ====
section
/-! SUPPORT. The fields of a packed command word (spec/30_encoding.md R86). -/

namespace Sys2Proof.Laws

variable {op a b imm : Nat}

theorem packWord_toNat (hop : op < 2 ^ 8) (ha : a < 2 ^ 8) (hb : b < 2 ^ 16) (himm : imm < 2 ^ 32) :
    (packWord op a b imm).toNat = op * 2 ^ 56 + a * 2 ^ 48 + b * 2 ^ 32 + imm := by
  rw [packWord, BitVec.toNat_ofNat]
  omega

theorem opOf_packWord (hop : op < 2 ^ 8) (ha : a < 2 ^ 8) (hb : b < 2 ^ 16) (himm : imm < 2 ^ 32) :
    opOf (packWord op a b imm) = op := by
  rw [opOf, BitVec.extractLsb'_toNat, packWord_toNat hop ha hb himm, Nat.shiftRight_eq_div_pow]
  omega

theorem aOf_packWord (hop : op < 2 ^ 8) (ha : a < 2 ^ 8) (hb : b < 2 ^ 16) (himm : imm < 2 ^ 32) :
    aOf (packWord op a b imm) = a := by
  rw [aOf, BitVec.extractLsb'_toNat, packWord_toNat hop ha hb himm, Nat.shiftRight_eq_div_pow]
  omega

theorem bOf_packWord (hop : op < 2 ^ 8) (ha : a < 2 ^ 8) (hb : b < 2 ^ 16) (himm : imm < 2 ^ 32) :
    bOf (packWord op a b imm) = b := by
  rw [bOf, BitVec.extractLsb'_toNat, packWord_toNat hop ha hb himm, Nat.shiftRight_eq_div_pow]
  omega

theorem immOf_packWord (hop : op < 2 ^ 8) (ha : a < 2 ^ 8) (hb : b < 2 ^ 16) (himm : imm < 2 ^ 32) :
    immOf (packWord op a b imm) = imm := by
  rw [immOf, BitVec.extractLsb'_toNat, packWord_toNat hop ha hb himm, Nat.shiftRight_eq_div_pow]
  omega

theorem packImm_lt {hi lo : Nat} (h : hi < 2 ^ 16) (l : lo < 2 ^ 16) : packImm hi lo < 2 ^ 32 := by
  unfold packImm
  omega

theorem unsext16_lt (x : Int) : unsext16 x < 2 ^ 16 := by
  unfold unsext16
  omega

/-- A signed coordinate survives the 16-bit field (R9, R88). -/
theorem sext16_unsext16 {x : Int} (h : fitsSigned16 x = true) : sext16 (unsext16 x) = x := by
  simp only [fitsSigned16, Bool.and_eq_true, decide_eq_true_eq] at h
  unfold sext16 unsext16
  split <;> omega

end Sys2Proof.Laws
end

