-- ==== Sys2Proof/Laws/Memory.lean ====
section
/-! SUPPORT. `DMEM`: a read after a write, and the canonical form kept by every memory operation. -/

namespace Sys2Proof.Laws

open Sys2Proof.Machine

/-- What is written at an address after one store (spec/20_memory.md R71). -/
theorem written_store (m : Memory) (a b : Nat) (v : Byte) :
    (m.store a v).written b = if b = a then some v else m.written b := by
  induction m with
  | nil =>
    by_cases hb : b = a
    · simp [Memory.store, Memory.written, hb]
    · simp [Memory.store, Memory.written, hb, Ne.symm hb]
  | cons c rest ih =>
    obtain ⟨k, u⟩ := c
    by_cases hb : b = a
    · subst hb
      simp only [Memory.store, if_true] at ih ⊢
      split
      · simp [Memory.written]
      · split
        · simp [Memory.written]
        · next h => simp [Memory.written, ih, Ne.symm h]
    · simp only [Memory.store, hb, if_false] at ih ⊢
      split
      · simp [Memory.written, Ne.symm hb]
      · split
        · next h => subst h; simp [Memory.written, Ne.symm hb]
        · simp [Memory.written, ih]

theorem risingFrom_store {lo : Nat} {m : Memory} {a : Nat} {v : Byte} (h : m.risingFrom lo = true) (ha : lo < a) :
    (m.store a v).risingFrom lo = true := by
  induction m generalizing lo with
  | nil => simp [Memory.store, Memory.risingFrom, ha]
  | cons c rest ih =>
    obtain ⟨k, u⟩ := c
    simp only [Memory.risingFrom, Bool.and_eq_true, decide_eq_true_eq] at h
    simp only [Memory.store]
    split
    · next hk => simp [Memory.risingFrom, ha, hk, h.2]
    · split
      · next he => subst he; simp [Memory.risingFrom, ha, h.2]
      · next h1 h2 =>
        simp only [Memory.risingFrom, Bool.and_eq_true, decide_eq_true_eq]
        exact ⟨h.1, ih h.2 (by omega)⟩

theorem mem_store {m : Memory} {a : Nat} {v : Byte} {c : Host.Cell} (h : c ∈ m.store a v) : c = (a, v) ∨ c ∈ m := by
  induction m with
  | nil => simpa [Memory.store] using h
  | cons d rest ih =>
    obtain ⟨k, u⟩ := d
    simp only [Memory.store] at h
    split at h
    · simpa using h
    · split at h
      · rcases List.mem_cons.mp h with h | h <;> simp [h]
      · rcases List.mem_cons.mp h with h | h
        · simp [h]
        · rcases ih h with h | h <;> simp [h]

theorem wf_iff (m : Memory) :
    m.wf = true ↔ (∀ a v rest, m = (a, v) :: rest → Memory.risingFrom a rest = true) ∧
      ∀ c ∈ m, c.1 < Config.dmemSize := by
  cases m with
  | nil => simp [Memory.wf]
  | cons c rest =>
    obtain ⟨a, v⟩ := c
    simp only [Memory.wf, Bool.and_eq_true, List.all_eq_true, decide_eq_true_eq]
    constructor
    · rintro ⟨h1, h2⟩
      refine ⟨?_, h2⟩
      rintro a' v' rest' he
      cases he
      exact h1
    · rintro ⟨h1, h2⟩
      exact ⟨h1 a v rest rfl, h2⟩

/-- A store inside `DMEM` keeps the canonical form. -/
theorem wf_store {m : Memory} {a : Nat} {v : Byte} (h : m.wf = true) (ha : a < Config.dmemSize) :
    (m.store a v).wf = true := by
  rw [wf_iff] at h ⊢
  constructor
  · intro b w rest he
    cases m with
    | nil =>
      simp only [Memory.store, List.cons.injEq, Prod.mk.injEq] at he
      obtain ⟨_, rfl⟩ := he
      rfl
    | cons c tail =>
      obtain ⟨k, u⟩ := c
      have hk := h.1 k u tail rfl
      simp only [Memory.store] at he
      split at he
      · next hlt =>
        obtain ⟨⟨rfl, rfl⟩, rfl⟩ := by simpa using he
        simp [Memory.risingFrom, hlt, hk]
      · split at he
        · next heq =>
          obtain ⟨⟨rfl, rfl⟩, rfl⟩ := by simpa using he
          exact heq ▸ hk
        · next h1 h2 =>
          obtain ⟨⟨rfl, rfl⟩, rfl⟩ := by simpa using he
          exact risingFrom_store hk (by omega)
  · intro c hc
    rcases mem_store hc with rfl | hc
    · exact ha
    · exact h.2 c hc

/-- A byte read after one byte has been written (R71). -/
theorem readByte_writeByte (s : State) (a b : Nat) (v : Byte) :
    readByte (writeByte s a v) b = if b = a then v else readByte s b := by
  simp only [readByte, writeByte_dmem, writeByte_epoch, written_store]
  split <;> simp

/-- A read looks at `DMEM` and the epoch alone. -/
theorem readByte_congr {s t : State} (hd : s.dmem = t.dmem) (he : s.epoch = t.epoch) (a : Nat) :
    readByte s a = readByte t a := by
  simp [readByte, hd, he]

/-- A byte read after a range has been written: the range's byte inside it, the old byte outside. -/
theorem readByte_writeRange (s : State) (dst : Nat) (bytes : List Byte) (b : Nat) :
    readByte (writeRange s dst bytes) b =
      if dst ≤ b ∧ b < dst + bytes.length then bytes.getD (b - dst) 0 else readByte s b := by
  induction bytes generalizing s dst with
  | nil => simp [writeRange]
  | cons v rest ih =>
    rw [writeRange, ih, readByte_writeByte]
    by_cases hb : b = dst
    · subst hb; simp
    · by_cases h1 : dst + 1 ≤ b ∧ b < dst + 1 + rest.length
      · rw [if_pos h1, if_pos (by simp; omega)]
        obtain ⟨k, hk⟩ : ∃ k, b - dst = k + 1 := ⟨b - dst - 1, by omega⟩
        rw [hk, List.getD_cons_succ, show b - (dst + 1) = k by omega]
      · rw [if_neg h1, if_neg hb, if_neg (by simp; omega)]

/-- Writing a range changes `DMEM` alone. -/
theorem writeRange_frame (s : State) (dst : Nat) (bytes : List Byte) :
    (writeRange s dst bytes).bb = s.bb ∧ (writeRange s dst bytes).rs = s.rs ∧ (writeRange s dst bytes).mx = s.mx ∧
    (writeRange s dst bytes).status = s.status ∧ (writeRange s dst bytes).epoch = s.epoch ∧
    (writeRange s dst bytes).port = s.port ∧ (writeRange s dst bytes).response = s.response := by
  induction bytes generalizing s dst with
  | nil => simp [writeRange]
  | cons v rest ih => simpa [writeRange] using ih (writeByte s dst v) (dst + 1)

@[simp] theorem writeRange_bb (s : State) (dst : Nat) (l : List Byte) : (writeRange s dst l).bb = s.bb :=
  (writeRange_frame s dst l).1

@[simp] theorem writeRange_rs (s : State) (dst : Nat) (l : List Byte) : (writeRange s dst l).rs = s.rs :=
  (writeRange_frame s dst l).2.1

@[simp] theorem writeRange_mx (s : State) (dst : Nat) (l : List Byte) : (writeRange s dst l).mx = s.mx :=
  (writeRange_frame s dst l).2.2.1

@[simp] theorem writeRange_status (s : State) (dst : Nat) (l : List Byte) : (writeRange s dst l).status = s.status :=
  (writeRange_frame s dst l).2.2.2.1

@[simp] theorem writeRange_epoch (s : State) (dst : Nat) (l : List Byte) : (writeRange s dst l).epoch = s.epoch :=
  (writeRange_frame s dst l).2.2.2.2.1

@[simp] theorem writeRange_port (s : State) (dst : Nat) (l : List Byte) : (writeRange s dst l).port = s.port :=
  (writeRange_frame s dst l).2.2.2.2.2.1

/-- Writing a range inside `DMEM` keeps the canonical form. -/
theorem wf_writeRange {s : State} {dst : Nat} {bytes : List Byte} (h : s.dmem.wf = true)
    (hr : rangeFits dst bytes.length = true) : (writeRange s dst bytes).dmem.wf = true := by
  simp only [rangeFits, decide_eq_true_eq] at hr
  induction bytes generalizing s dst with
  | nil => exact h
  | cons v rest ih =>
    simp only [List.length_cons] at hr
    rw [writeRange]
    exact ih (by simpa using wf_store h (by omega)) (by omega)

@[simp] theorem length_readRange (s : State) (src len : Nat) : (readRange s src len).length = len := by
  simp [readRange]

end Sys2Proof.Laws
end

