-- ==== Sys2Proof/Laws/Inversion.lean ====
section
/-! SUPPORT. What a command can do to each part of the state, every case said once, so that an invariant or a frame is a short
case analysis. -/

namespace Sys2Proof.Laws

open Sys2Proof.Machine Sys2Proof.Safety

variable {s t : State} {i : Instr}

/-- A command that runs behind the FATAL test either is refused with code 3 or is outside the fatal state. -/
theorem exec_fatal_or (h : exec i s = .next t) (hr : i ≠ .reset) (hn : ∀ n, i ≠ .rdcr n) :
    t = refusedWith 3 s ∨ s.status.fatal = false := by
  cases hf : s.status.fatal with
  | false => exact .inr rfl
  | true =>
    rw [exec_fatal hf i hr hn] at h
    cases h
    exact .inl rfl

theorem finishCodewords_frame (placed : Grid × Nat) (n : Nat) (s : State) :
    (finishCodewords placed n s).bb = s.bb ∧ (finishCodewords placed n s).rs = s.rs ∧
    (finishCodewords placed n s).dmem = s.dmem ∧ (finishCodewords placed n s).epoch = s.epoch ∧
    (finishCodewords placed n s).port = s.port := by
  unfold finishCodewords
  split <;> simp

/-- What no matrix command and no GFMUL changes (R391). -/
structure OutsideMatrix (s t : State) : Prop where
  bb : t.bb = s.bb
  rs : t.rs = s.rs
  dmem : t.dmem = s.dmem
  epoch : t.epoch = s.epoch
  port : t.port = s.port

theorem outsideMatrix_refusedWith (c : Byte) (s : State) : OutsideMatrix s (refusedWith c s) := ⟨rfl, rfl, rfl, rfl, rfl⟩

theorem outsideMatrix_answered (v : Word) (s : State) (mx : Matrix) : OutsideMatrix s (answered v { s with mx := mx }) :=
  ⟨rfl, rfl, rfl, rfl, rfl⟩

/-- The frame of every matrix command (R391). -/
theorem exec_matrix_frame (h : exec i s = .next t) (hp : partOf i = .matrix) : OutsideMatrix s t := by
  rcases exec_fatal_or h (by rintro rfl; cases hp) (by rintro n rfl; cases hp) with rfl | hf
  · exact outsideMatrix_refusedWith 3 s
  · cases i with
    | mxnew v l =>
      rw [exec_mxnew hf] at h
      cases h
      repeat' split
      · exact outsideMatrix_refusedWith _ s
      · exact outsideMatrix_refusedWith _ s
      · exact outsideMatrix_answered _ s _
    | mxfunc =>
      rw [exec_mxfunc hf] at h
      cases h
      repeat' split
      · exact outsideMatrix_refusedWith _ s
      · exact outsideMatrix_answered _ s _
    | mxcw src n =>
      rw [exec_mxcw hf] at h
      cases h
      repeat' split
      · exact outsideMatrix_refusedWith _ s
      · exact outsideMatrix_refusedWith _ s
      · exact outsideMatrix_refusedWith _ s
      · obtain ⟨h1, h2, h3, h4, h5⟩ := finishCodewords_frame (placeBits s.mx (codewordBit s src) (8 * n)) n s
        exact ⟨h1, h2, h3, h4, h5⟩
    | mxfmt m =>
      rw [exec_mxfmt hf] at h
      cases h
      repeat' split
      · exact outsideMatrix_refusedWith _ s
      · exact outsideMatrix_refusedWith _ s
      · exact outsideMatrix_answered _ s _
    | mxmask m =>
      rw [exec_mxmask hf] at h
      cases h
      repeat' split
      · exact outsideMatrix_refusedWith _ s
      · exact outsideMatrix_refusedWith _ s
      · exact outsideMatrix_refusedWith _ s
      · exact outsideMatrix_answered _ s _
    | mxpen =>
      rw [exec_mxpen hf] at h
      cases h
      repeat' split
      · exact outsideMatrix_refusedWith _ s
      · exact outsideMatrix_answered _ s _
    | mxsel req =>
      rw [exec_mxsel hf] at h
      cases h
      repeat' split
      · exact outsideMatrix_refusedWith _ s
      · exact outsideMatrix_refusedWith _ s
      · exact outsideMatrix_answered _ s _
    | mxrd x y =>
      rw [exec_mxrd hf] at h
      cases h
      split
      · exact outsideMatrix_refusedWith _ s
      · exact outsideMatrix_answered _ s s.mx
    | mxpeek x y =>
      rw [exec_mxpeek hf] at h
      cases h
      split
      · exact outsideMatrix_refusedWith _ s
      · exact outsideMatrix_answered _ s s.mx
    | _ => cases hp

/-- The frame of every command outside the matrix engine but RESET (R391). -/
theorem exec_nonmatrix_frame (h : exec i s = .next t) (hp : partOf i ≠ .matrix) (hr : i ≠ .reset) :
    t.mx = s.mx ∧ t.epoch = s.epoch ∧ t.port = s.port := by
  by_cases hn : ∃ n, i = .rdcr n
  · obtain ⟨n, rfl⟩ := hn
    rw [exec_rdcr] at h
    cases h
    split <;> exact ⟨rfl, rfl, rfl⟩
  · rcases exec_fatal_or h hr (fun n e => hn ⟨n, e⟩) with rfl | hf
    · exact ⟨rfl, rfl, rfl⟩
    · cases i with
      | reset => exact absurd rfl hr
      | rdcr n => exact absurd ⟨n, rfl⟩ hn
      | ldb addr =>
        rw [exec_ldb hf] at h
        cases h
        (repeat' split) <;> exact ⟨rfl, rfl, rfl⟩
      | stb addr v =>
        rw [exec_stb hf] at h
        cases h
        (repeat' split) <;> exact ⟨rfl, rfl, rfl⟩
      | gfmul x y =>
        rw [exec_gfmul hf] at h
        cases h
        (repeat' split) <;> exact ⟨rfl, rfl, rfl⟩
      | rsinit d =>
        rw [exec_rsinit hf] at h
        cases h
        (repeat' split) <;> exact ⟨rfl, rfl, rfl⟩
      | rsrdc k =>
        rw [exec_rsrdc hf] at h
        cases h
        (repeat' split) <;> exact ⟨rfl, rfl, rfl⟩
      | rsrem src len dst =>
        rw [exec_rsrem hf] at h
        cases h
        (repeat' split) <;> simp
      | bbnew =>
        rw [exec_bbnew hf] at h
        cases h
        exact ⟨rfl, rfl, rfl⟩
      | bblen =>
        rw [exec_bblen hf] at h
        cases h
        exact ⟨rfl, rfl, rfl⟩
      | bbapp width value =>
        rw [exec_bbapp hf] at h
        cases h
        (repeat' split) <;> exact ⟨rfl, rfl, rfl⟩
      | bbappm src nbits =>
        rw [exec_bbappm hf] at h
        cases h
        (repeat' split) <;> exact ⟨rfl, rfl, rfl⟩
      | bbtob dst =>
        rw [exec_bbtob hf] at h
        cases h
        (repeat' split) <;> simp
      | _ => exact absurd rfl hp

/-- Everything a command can do to the bit builder. -/
theorem exec_bb_cases (h : exec i s = .next t) :
    t.bb = s.bb ∨
    ((i = .reset ∨ i = .bbnew) ∧ t.bb = Builder.reset ∧ statusOf t = some 0) ∨
    (∃ width value, i = .bbapp width value ∧ appendOperandsLegal width value = true ∧ appendFits s.bb width = true ∧
      t.bb = appendBits s.bb (msbFirst width value) ∧ statusOf t = some 0) ∨
    ∃ src nbits, i = .bbappm src nbits ∧ appendFits s.bb nbits = true ∧
      t.bb = appendBits s.bb (payloadBits s src nbits) ∧ statusOf t = some 0 := by
  by_cases hm : partOf i = .matrix
  · exact .inl (exec_matrix_frame h hm).bb
  · cases i with
    | reset => cases h; exact .inr (.inl ⟨.inl rfl, rfl, rfl⟩)
    | rdcr n => rw [exec_rdcr] at h; cases h; left; split <;> rfl
    | bbnew =>
      rcases exec_fatal_or h nofun nofun with rfl | hf
      · exact .inl rfl
      · rw [exec_bbnew hf] at h
        cases h
        exact .inr (.inl ⟨.inr rfl, rfl, rfl⟩)
    | bbapp width value =>
      rcases exec_fatal_or h nofun nofun with rfl | hf
      · exact .inl rfl
      · rw [exec_bbapp hf] at h
        cases h
        repeat' split
        · exact .inl rfl
        · exact .inl rfl
        · next h1 h2 =>
          exact .inr (.inr (.inl ⟨width, value, rfl, by simpa using h1, by simpa using h2, rfl, rfl⟩))
    | bbappm src nbits =>
      rcases exec_fatal_or h nofun nofun with rfl | hf
      · exact .inl rfl
      · rw [exec_bbappm hf] at h
        cases h
        repeat' split
        · exact .inl rfl
        · exact .inl rfl
        · next h1 h2 => exact .inr (.inr (.inr ⟨src, nbits, rfl, by simpa using h2, rfl, rfl⟩))
    | ldb addr =>
      rcases exec_fatal_or h nofun nofun with rfl | hf
      · exact .inl rfl
      · rw [exec_ldb hf] at h; cases h; left; (repeat' split) <;> rfl
    | stb addr v =>
      rcases exec_fatal_or h nofun nofun with rfl | hf
      · exact .inl rfl
      · rw [exec_stb hf] at h; cases h; left; (repeat' split) <;> rfl
    | gfmul x y =>
      rcases exec_fatal_or h nofun nofun with rfl | hf
      · exact .inl rfl
      · rw [exec_gfmul hf] at h; cases h; left; (repeat' split) <;> rfl
    | rsinit d =>
      rcases exec_fatal_or h nofun nofun with rfl | hf
      · exact .inl rfl
      · rw [exec_rsinit hf] at h; cases h; left; (repeat' split) <;> rfl
    | rsrdc k =>
      rcases exec_fatal_or h nofun nofun with rfl | hf
      · exact .inl rfl
      · rw [exec_rsrdc hf] at h; cases h; left; (repeat' split) <;> rfl
    | rsrem src len dst =>
      rcases exec_fatal_or h nofun nofun with rfl | hf
      · exact .inl rfl
      · rw [exec_rsrem hf] at h; cases h; left; (repeat' split) <;> simp
    | bblen =>
      rcases exec_fatal_or h nofun nofun with rfl | hf
      · exact .inl rfl
      · rw [exec_bblen hf] at h; cases h; left; rfl
    | bbtob dst =>
      rcases exec_fatal_or h nofun nofun with rfl | hf
      · exact .inl rfl
      · rw [exec_bbtob hf] at h; cases h; left; (repeat' split) <;> simp
    | _ => exact absurd rfl hm

/-- Everything a command can do to the Reed-Solomon generator. -/
theorem exec_rs_cases (h : exec i s = .next t) :
    t.rs = s.rs ∨ (i = .reset ∧ t.rs = RsGen.reset) ∨
    ∃ d, i = .rsinit d ∧ 1 ≤ d ∧ d ≤ 255 ∧ t.rs = generator d := by
  by_cases hm : partOf i = .matrix
  · exact .inl (exec_matrix_frame h hm).rs
  · cases i with
    | reset => cases h; exact .inr (.inl ⟨rfl, rfl⟩)
    | rdcr n => rw [exec_rdcr] at h; cases h; left; split <;> rfl
    | rsinit d =>
      rcases exec_fatal_or h nofun nofun with rfl | hf
      · exact .inl rfl
      · rw [exec_rsinit hf] at h
        cases h
        split
        · exact .inl rfl
        · next hd => exact .inr (.inr ⟨d, rfl, by omega, by omega, rfl⟩)
    | ldb addr =>
      rcases exec_fatal_or h nofun nofun with rfl | hf
      · exact .inl rfl
      · rw [exec_ldb hf] at h; cases h; left; (repeat' split) <;> rfl
    | stb addr v =>
      rcases exec_fatal_or h nofun nofun with rfl | hf
      · exact .inl rfl
      · rw [exec_stb hf] at h; cases h; left; (repeat' split) <;> rfl
    | gfmul x y =>
      rcases exec_fatal_or h nofun nofun with rfl | hf
      · exact .inl rfl
      · rw [exec_gfmul hf] at h; cases h; left; (repeat' split) <;> rfl
    | rsrdc k =>
      rcases exec_fatal_or h nofun nofun with rfl | hf
      · exact .inl rfl
      · rw [exec_rsrdc hf] at h; cases h; left; (repeat' split) <;> rfl
    | rsrem src len dst =>
      rcases exec_fatal_or h nofun nofun with rfl | hf
      · exact .inl rfl
      · rw [exec_rsrem hf] at h; cases h; left; (repeat' split) <;> simp
    | bbnew =>
      rcases exec_fatal_or h nofun nofun with rfl | hf
      · exact .inl rfl
      · rw [exec_bbnew hf] at h; cases h; left; rfl
    | bblen =>
      rcases exec_fatal_or h nofun nofun with rfl | hf
      · exact .inl rfl
      · rw [exec_bblen hf] at h; cases h; left; rfl
    | bbapp width value =>
      rcases exec_fatal_or h nofun nofun with rfl | hf
      · exact .inl rfl
      · rw [exec_bbapp hf] at h; cases h; left; (repeat' split) <;> rfl
    | bbappm src nbits =>
      rcases exec_fatal_or h nofun nofun with rfl | hf
      · exact .inl rfl
      · rw [exec_bbappm hf] at h; cases h; left; (repeat' split) <;> rfl
    | bbtob dst =>
      rcases exec_fatal_or h nofun nofun with rfl | hf
      · exact .inl rfl
      · rw [exec_bbtob hf] at h; cases h; left; (repeat' split) <;> simp
    | _ => exact absurd rfl hm

/-- Everything a command can do to `DMEM`. -/
theorem exec_dmem_cases (h : exec i s = .next t) :
    t.dmem = s.dmem ∨ (i = .reset ∧ t.dmem = []) ∨
    (∃ addr v, i = .stb addr v ∧ addr < 8192 ∧ t.dmem = s.dmem.store addr v) ∨
    (∃ src len dst, i = .rsrem src len dst ∧ rangeFits dst s.rs.rsdeg.toNat = true ∧
      t.dmem = (writeRange s dst (remainder (divCoefficients s.rs) (readRange s src len))).dmem) ∨
    ∃ dst, i = .bbtob dst ∧ rangeFits dst (bytesFor s.bb.bblen.toNat) = true ∧
      t.dmem = (writeRange s dst (builderBytes s.bb)).dmem := by
  by_cases hm : partOf i = .matrix
  · exact .inl (exec_matrix_frame h hm).dmem
  · cases i with
    | reset => cases h; exact .inr (.inl ⟨rfl, rfl⟩)
    | rdcr n => rw [exec_rdcr] at h; cases h; left; split <;> rfl
    | stb addr v =>
      rcases exec_fatal_or h nofun nofun with rfl | hf
      · exact .inl rfl
      · rw [exec_stb hf] at h
        cases h
        split
        · exact .inl rfl
        · next ha => exact .inr (.inr (.inl ⟨addr, v, rfl, by omega, rfl⟩))
    | rsrem src len dst =>
      rcases exec_fatal_or h nofun nofun with rfl | hf
      · exact .inl rfl
      · rw [exec_rsrem hf] at h
        cases h
        repeat' split
        · exact .inl rfl
        · exact .inl rfl
        · exact .inl rfl
        · next hd => exact .inr (.inr (.inr (.inl ⟨src, len, dst, rfl, by simpa using hd, rfl⟩)))
    | bbtob dst =>
      rcases exec_fatal_or h nofun nofun with rfl | hf
      · exact .inl rfl
      · rw [exec_bbtob hf] at h
        cases h
        split
        · exact .inl rfl
        · next hd => exact .inr (.inr (.inr (.inr ⟨dst, rfl, by simpa using hd, rfl⟩)))
    | ldb addr =>
      rcases exec_fatal_or h nofun nofun with rfl | hf
      · exact .inl rfl
      · rw [exec_ldb hf] at h; cases h; left; (repeat' split) <;> rfl
    | gfmul x y =>
      rcases exec_fatal_or h nofun nofun with rfl | hf
      · exact .inl rfl
      · rw [exec_gfmul hf] at h; cases h; left; (repeat' split) <;> rfl
    | rsinit d =>
      rcases exec_fatal_or h nofun nofun with rfl | hf
      · exact .inl rfl
      · rw [exec_rsinit hf] at h; cases h; left; (repeat' split) <;> rfl
    | rsrdc k =>
      rcases exec_fatal_or h nofun nofun with rfl | hf
      · exact .inl rfl
      · rw [exec_rsrdc hf] at h; cases h; left; (repeat' split) <;> rfl
    | bbnew =>
      rcases exec_fatal_or h nofun nofun with rfl | hf
      · exact .inl rfl
      · rw [exec_bbnew hf] at h; cases h; left; rfl
    | bblen =>
      rcases exec_fatal_or h nofun nofun with rfl | hf
      · exact .inl rfl
      · rw [exec_bblen hf] at h; cases h; left; rfl
    | bbapp width value =>
      rcases exec_fatal_or h nofun nofun with rfl | hf
      · exact .inl rfl
      · rw [exec_bbapp hf] at h; cases h; left; (repeat' split) <;> rfl
    | bbappm src nbits =>
      rcases exec_fatal_or h nofun nofun with rfl | hf
      · exact .inl rfl
      · rw [exec_bbappm hf] at h; cases h; left; (repeat' split) <;> rfl
    | _ => exact absurd rfl hm

/-- Everything a command can do to the matrix engine. -/
theorem exec_mx_cases (h : exec i s = .next t) :
    t.mx = s.mx ∨
    (i = .reset ∧ t.mx = Matrix.reset ∧ statusOf t = some 0) ∨
    (∃ v l, i = .mxnew v l ∧ 1 ≤ v ∧ v ≤ 40 ∧ l ≤ 3 ∧ t.mx = newSymbol v l ∧ statusOf t = some 0) ∨
    (i = .mxfunc ∧ s.mx.phase = .alloc ∧ t.mx = withPatterns s.mx ∧ statusOf t = some 0) ∨
    (∃ src n, i = .mxcw src n ∧ s.mx.phase = .patterns ∧ n = nfree s.mx / 8 ∧ s.status.fatal = false ∧
      t = finishCodewords (placeBits s.mx (codewordBit s src) (8 * n)) n s) ∨
    (∃ m, i = .mxfmt m ∧ s.mx.phase = .data ∧ m ≤ 7 ∧ t.mx = drawFormat s.mx m ∧ statusOf t = some 0) ∨
    (∃ m, i = .mxmask m ∧ s.mx.phase = .data ∧ m ≤ 7 ∧ (s.mx.trial.toNat = 8 ∨ s.mx.trial.toNat = m) ∧
      t.mx = toggleMask s.mx m ∧ statusOf t = some 0) ∨
    (i = .mxpen ∧ (s.mx.phase = .data ∨ s.mx.phase = .final) ∧ t.mx = scored s.mx ∧ statusOf t = some 0) ∨
    ∃ req, i = .mxsel req ∧ s.mx.phase = .data ∧ s.mx.trial.toNat = 8 ∧ requestLegal req = true ∧
      t = answered (BitVec.ofNat 32 (chooseMask s.mx req).2)
        { s with mx := finishSymbol (chooseMask s.mx req).1 (chooseMask s.mx req).2 } := by
  by_cases hm : partOf i ≠ .matrix
  · by_cases hr : i = .reset
    · subst hr
      cases h
      exact .inr (.inl ⟨rfl, rfl, rfl⟩)
    · exact .inl (exec_nonmatrix_frame h hm hr).1
  · cases i with
    | mxnew v l =>
      rcases exec_fatal_or h nofun nofun with rfl | hf
      · exact .inl rfl
      · rw [exec_mxnew hf] at h
        cases h
        repeat' split
        · exact .inl rfl
        · exact .inl rfl
        · next h1 h2 => exact .inr (.inr (.inl ⟨v, l, rfl, by omega, by omega, by omega, rfl, rfl⟩))
    | mxfunc =>
      rcases exec_fatal_or h nofun nofun with rfl | hf
      · exact .inl rfl
      · rw [exec_mxfunc hf] at h
        cases h
        split
        · exact .inl rfl
        · next hp => exact .inr (.inr (.inr (.inl ⟨rfl, by simpa using hp, rfl, rfl⟩)))
    | mxcw src n =>
      rcases exec_fatal_or h nofun nofun with rfl | hf
      · exact .inl rfl
      · rw [exec_mxcw hf] at h
        cases h
        repeat' split
        · exact .inl rfl
        · exact .inl rfl
        · exact .inl rfl
        · next h1 h2 h3 =>
          exact .inr (.inr (.inr (.inr (.inl ⟨src, n, rfl, by simpa using h1, by simpa using h2, hf, rfl⟩))))
    | mxfmt m =>
      rcases exec_fatal_or h nofun nofun with rfl | hf
      · exact .inl rfl
      · rw [exec_mxfmt hf] at h
        cases h
        repeat' split
        · exact .inl rfl
        · exact .inl rfl
        · next h1 h2 =>
          exact .inr (.inr (.inr (.inr (.inr (.inl ⟨m, rfl, by simpa using h1, by simpa [maskLegal] using h2, rfl, rfl⟩)))))
    | mxmask m =>
      rcases exec_fatal_or h nofun nofun with rfl | hf
      · exact .inl rfl
      · rw [exec_mxmask hf] at h
        cases h
        repeat' split
        · exact .inl rfl
        · exact .inl rfl
        · exact .inl rfl
        · next h1 h2 h3 =>
          exact .inr (.inr (.inr (.inr (.inr (.inr (.inl
            ⟨m, rfl, by simpa using h1, by simpa [maskLegal] using h2, by omega, rfl, rfl⟩))))))
    | mxpen =>
      rcases exec_fatal_or h nofun nofun with rfl | hf
      · exact .inl rfl
      · rw [exec_mxpen hf] at h
        cases h
        split
        · exact .inl rfl
        · next hp =>
          refine .inr (.inr (.inr (.inr (.inr (.inr (.inr (.inl ⟨rfl, ?_, rfl, rfl⟩)))))))
          by_cases hd : s.mx.phase = .data
          · exact .inl hd
          · exact .inr (by simpa [hd] using hp)
    | mxsel req =>
      rcases exec_fatal_or h nofun nofun with rfl | hf
      · exact .inl rfl
      · rw [exec_mxsel hf] at h
        cases h
        repeat' split
        · exact .inl rfl
        · exact .inl rfl
        · next h1 h2 =>
          simp only [not_or, Decidable.not_not] at h1
          exact .inr (.inr (.inr (.inr (.inr (.inr (.inr (.inr ⟨req, rfl, h1.1, h1.2, by simpa using h2, rfl⟩)))))))
    | mxrd x y =>
      rcases exec_fatal_or h nofun nofun with rfl | hf
      · exact .inl rfl
      · rw [exec_mxrd hf] at h; cases h; left; (repeat' split) <;> rfl
    | mxpeek x y =>
      rcases exec_fatal_or h nofun nofun with rfl | hf
      · exact .inl rfl
      · rw [exec_mxpeek hf] at h; cases h; left; (repeat' split) <;> rfl
    | _ => exact absurd nofun hm

end Sys2Proof.Laws
end

