-- ==== Sys2Proof/Laws/Patterns.lean ====
section
/-! SUPPORT. Where the function patterns lie: every drawn cell is inside the symbol, and what the drawing makes of a blank grid. -/

namespace Sys2Proof.Laws

open Sys2Proof.Machine Sys2Proof.Safety

/-- A cell write inside the symbol. -/
def Inside (size : Nat) (c : CellWrite) : Prop := c.1 < size ∧ c.2.1 < size

theorem timingCells_inside {size : Nat} (h : 21 ≤ size) : ∀ c ∈ timingCells size, Inside size c := by
  intro c hc
  simp only [timingCells, List.mem_flatMap, List.mem_range, List.mem_cons, List.not_mem_nil, or_false] at hc
  obtain ⟨i, hi, rfl | rfl⟩ := hc
  · exact ⟨show 6 < size by omega, hi⟩
  · exact ⟨hi, show 6 < size by omega⟩

theorem finderCells_inside (size : Nat) (cx cy : Int) : ∀ c ∈ finderCells size cx cy, Inside size c := by
  intro c hc
  simp only [finderCells, List.mem_flatMap, List.mem_filterMap] at hc
  obtain ⟨dy, _, dx, _, h⟩ := hc
  split at h
  · next hin =>
    cases h
    simp only [inSymbol, Bool.and_eq_true, decide_eq_true_eq] at hin
    refine ⟨?_, ?_⟩ <;> (simp only; omega)
  · cases h

/-- Every alignment position lies between 6 and SIZE − 7 (R206, R207). -/
theorem alignPos_bounds : ∀ v, v ≤ 40 → 1 ≤ v → ∀ p ∈ alignPos v, 6 ≤ p ∧ p ≤ 4 * v + 10 := by decide

theorem alignmentsCells_inside {v : Nat} (h : 1 ≤ v) (h' : v ≤ 40) : ∀ c ∈ alignmentsCells v, Inside (4 * v + 17) c := by
  intro c hc
  simp only [alignmentsCells, List.mem_flatMap, List.mem_range] at hc
  obtain ⟨i, hi, j, hj, hc⟩ := hc
  split at hc
  · cases hc
  · have hpi := alignPos_bounds v h' h _ (List.getElem_mem hi)
    have hpj := alignPos_bounds v h' h _ (List.getElem_mem hj)
    simp only [alignmentCells, offsets, List.mem_flatMap, List.mem_map] at hc
    obtain ⟨_, ⟨b, hb, rfl⟩, _, ⟨a, ha, rfl⟩, rfl⟩ := hc
    rw [List.mem_range] at ha hb
    simp only [List.getD_eq_getElem?_getD, List.getElem?_eq_getElem hi, List.getElem?_eq_getElem hj, Option.getD_some]
    constructor
    · show (_ + ((a : Int) - (2 : Nat))).toNat < _
      omega
    · show (_ + ((b : Int) - (2 : Nat))).toNat < _
      omega

theorem formatCells_inside {size : Nat} (h : 21 ≤ size) (w : Nat) : ∀ c ∈ formatCells size w, Inside size c := by
  intro c hc
  simp only [formatCells, List.mem_append, List.mem_map, List.mem_range, List.mem_cons, List.not_mem_nil, or_false] at hc
  rcases hc with ((((⟨k, hk, rfl⟩ | rfl | rfl | rfl) | ⟨k, hk, rfl⟩) | ⟨k, hk, rfl⟩) | ⟨k, hk, rfl⟩) | rfl <;>
    (refine ⟨?_, ?_⟩ <;> (simp only; omega))

theorem versionCells_inside {size ver : Nat} (h : 21 ≤ size) : ∀ c ∈ versionCells size ver, Inside size c := by
  intro c hc
  simp only [versionCells] at hc
  split at hc
  · cases hc
  · simp only [List.mem_flatMap, List.mem_range, List.mem_cons, List.not_mem_nil, or_false] at hc
    obtain ⟨i, hi, rfl | rfl⟩ := hc <;> (refine ⟨?_, ?_⟩ <;> (simp only; omega))

/-- Every drawn cell lies inside the symbol (R205, R208). -/
theorem functionCells_inside {v : Nat} (h : 1 ≤ v) (h' : v ≤ 40) (ecl : Nat) :
    ∀ c ∈ functionCells (4 * v + 17) v ecl, Inside (4 * v + 17) c := by
  intro c hc
  simp only [functionCells, List.mem_append] at hc
  rcases hc with (((((hc | hc) | hc) | hc) | hc) | hc) | hc
  · exact timingCells_inside (by omega) c hc
  · exact finderCells_inside _ _ _ c hc
  · exact finderCells_inside _ _ _ c hc
  · exact finderCells_inside _ _ _ c hc
  · exact alignmentsCells_inside h h' c hc
  · exact formatCells_inside (by omega) _ c hc
  · exact versionCells_inside (by omega) c hc

/-- 30 format-bit cells and the always-dark cell (R217). -/
theorem formatCells_length (size w : Nat) : (formatCells size w).length = 31 := by
  simp [formatCells]

/-! ### The drawn symbol -/

theorem newSymbol_version_toNat {v : Nat} (h : v ≤ 40) (l : Nat) : (newSymbol v l).version.toNat = v := by
  simp only [newSymbol_version, BitVec.toNat_ofNat]
  omega

theorem newSymbol_size_toNat {v : Nat} (h : v ≤ 40) (l : Nat) : (newSymbol v l).size.toNat = 4 * v + 17 := by
  simp only [newSymbol_size, BitVec.toNat_ofNat, Config.sizeOf]
  omega

theorem newSymbol_ecl_toNat {l : Nat} (h : l ≤ 3) (v : Nat) : (newSymbol v l).ecl.toNat = l := by
  simp only [newSymbol_ecl, BitVec.toNat_ofNat]
  omega

/-- The cells drawn into a fresh symbol. -/
theorem drawnSymbol_eq {v l : Nat} (hv : v ≤ 40) (hl : l ≤ 3) :
    drawnSymbol v l = { drawCells (newSymbol v l) (functionCells (4 * v + 17) v l) with phase := .patterns } := by
  simp only [drawnSymbol, withPatterns, drawFunctionPatterns, newSymbol_version_toNat hv, newSymbol_size_toNat hv,
    newSymbol_ecl_toNat hl]

/-- A flag of the drawn symbol: set exactly where a pattern draws (R200, R203). -/
theorem drawnSymbol_isfunc {v l : Nat} (h1 : 1 ≤ v) (hv : v ≤ 40) (hl : l ≤ 3) (x y : Nat) :
    (drawnSymbol v l).isfunc.cell x y = true ↔ ∃ b, (x, y, b) ∈ functionCells (4 * v + 17) v l := by
  have hin := functionCells_inside h1 hv l
  rw [drawnSymbol_eq hv hl]
  by_cases hx : x < Config.maxSide ∧ y < Config.maxSide
  · simp only [isfunc_drawCells _ _ hx.1 hx.2]
    have hb : (newSymbol v l).isfunc.cell x y = false := cell_blank x y
    rw [hb, Bool.false_or, List.any_eq_true]
    constructor
    · rintro ⟨⟨a, b, c⟩, hm, he⟩
      obtain ⟨rfl, rfl⟩ : a = x ∧ b = y := by simpa using he
      exact ⟨c, hm⟩
    · rintro ⟨b, hm⟩
      exact ⟨(x, y, b), hm, by simp⟩
  · constructor
    · intro h
      rw [cell_outside _ (by simp only [Config.maxSide] at *; omega)] at h
      cases h
    · rintro ⟨b, hm⟩
      have h1 := (hin _ hm).1
      have h2 := (hin _ hm).2
      simp only [Config.maxSide] at *
      omega

/-- A module of the drawn symbol: the last value drawn, light where nothing is drawn. -/
theorem drawnSymbol_modules {v l : Nat} (hv : v ≤ 40) (hl : l ≤ 3) {x y : Nat} (hx : x < Config.maxSide)
    (hy : y < Config.maxSide) :
    (drawnSymbol v l).modules.cell x y = (lastWrite (functionCells (4 * v + 17) v l) x y).getD false := by
  rw [drawnSymbol_eq hv hl]
  simp only [modules_drawCells _ _ hx hy]
  rw [show (newSymbol v l).modules.cell x y = false from cell_blank x y]

end Sys2Proof.Laws
end

