-- ==== Sys2Proof/Laws/MatrixInv.lean ====
section
/-! SUPPORT. Matrix states of every phase that meet the invariant of R41. -/

namespace Sys2Proof.Laws

open Sys2Proof.Machine Sys2Proof.Safety

/-- A phase in which the patterns are drawn is neither IDLE nor ALLOC. -/
theorem patternsDrawn_ne {p : Phase} (h : patternsDrawn p) : p ≠ .idle ∧ p ≠ .alloc := by
  rcases h with rfl | rfl | rfl <;> decide

/-- The state after reset (R50). -/
theorem matrixInv_reset : MatrixInv Matrix.reset where
  idle_version := by decide
  idle_size := by decide
  version_size h := absurd rfl h
  mask_final := by decide
  trial_data h := absurd rfl h
  mask_range := by decide
  trial_range := by decide
  alloc_blank h := by cases h
  outside_zero x y _ := ⟨cell_blank x y, cell_blank x y⟩
  flags_drawn h := absurd rfl (patternsDrawn_ne h).1
  functions_stand h := absurd rfl (patternsDrawn_ne h).1

theorem version_ne_zero {v : Nat} (h1 : 1 ≤ v) (hv : v ≤ 40) (l : Nat) : (newSymbol v l).version ≠ 0 := by
  intro h
  have := newSymbol_version_toNat hv l
  rw [h] at this
  simp only [BitVec.toNat_zero, BitVec.ofNat_eq_ofNat] at this
  omega

theorem size_ne_zero {v : Nat} (hv : v ≤ 40) (l : Nat) : (newSymbol v l).size ≠ 0 := by
  intro h
  have := newSymbol_size_toNat hv l
  rw [h] at this
  simp only [BitVec.toNat_zero, BitVec.ofNat_eq_ofNat] at this
  omega

/-- A fresh blank symbol (R201). -/
theorem matrixInv_newSymbol {v : Nat} (h1 : 1 ≤ v) (hv : v ≤ 40) (l : Nat) : MatrixInv (newSymbol v l) where
  idle_version := ⟨fun h => absurd h (by decide : Phase.alloc ≠ .idle), fun h => absurd h (version_ne_zero h1 hv l)⟩
  idle_size := ⟨fun h => absurd h (by decide : Phase.alloc ≠ .idle), fun h => absurd h (size_ne_zero hv l)⟩
  version_size _ := by
    rw [newSymbol_version_toNat hv, newSymbol_size_toNat hv]
    exact ⟨h1, hv, rfl⟩
  mask_final := ⟨fun h => absurd rfl h, fun h => absurd h (by decide : Phase.alloc ≠ .final)⟩
  trial_data h := absurd rfl h
  mask_range := by rw [newSymbol_mask]; decide
  trial_range := by rw [newSymbol_trial]; decide
  alloc_blank _ x y := ⟨cell_blank x y, cell_blank x y⟩
  outside_zero x y _ := ⟨cell_blank x y, cell_blank x y⟩
  flags_drawn h := absurd rfl (patternsDrawn_ne h).2
  functions_stand h := absurd rfl (patternsDrawn_ne h).2

/-- The drawing leaves every field but the grids and the phase. -/
theorem drawnSymbol_frame (v l : Nat) :
    drawnSymbol v l =
      { newSymbol v l with
        phase := .patterns
        modules := (drawnSymbol v l).modules
        isfunc := (drawnSymbol v l).isfunc } := by
  unfold drawnSymbol withPatterns drawFunctionPatterns
  rw [drawCells_frame]

/-- No pattern reaches outside the symbol. -/
theorem drawnSymbol_outside {v l : Nat} (h1 : 1 ≤ v) (hv : v ≤ 40) (hl : l ≤ 3) {x y : Nat}
    (h : 4 * v + 17 ≤ x ∨ 4 * v + 17 ≤ y) :
    (drawnSymbol v l).modules.cell x y = false ∧ (drawnSymbol v l).isfunc.cell x y = false := by
  have hin := functionCells_inside h1 hv l
  constructor
  · by_cases hxy : x < Config.maxSide ∧ y < Config.maxSide
    · rw [drawnSymbol_modules hv hl hxy.1 hxy.2, lastWrite_eq_none]
      · rfl
      · intro c hc he
        have := hin c hc
        unfold Inside at this
        omega
    · exact cell_outside _ (by omega)
  · rw [Bool.eq_false_iff]
    intro hf
    obtain ⟨b, hb⟩ := (drawnSymbol_isfunc h1 hv hl x y).mp hf
    have := hin _ hb
    unfold Inside at this
    simp only at this
    omega

/-- A matrix state with the flags and cells of the drawn patterns meets the invariant, in any phase from PATTERNS on. -/
theorem matrixInv_of_drawn {mx : Matrix} {v l : Nat} (h1 : 1 ≤ v) (hv : v ≤ 40) (hl : l ≤ 3) (hp : patternsDrawn mx.phase)
    (hver : mx.version.toNat = v) (hsize : mx.size.toNat = 4 * v + 17) (hecl : mx.ecl.toNat = l)
    (hmask : mx.mask ≠ 8 ↔ mx.phase = .final) (hmask' : mx.mask.toNat ≤ 8) (htrial : mx.trial ≠ 8 → mx.phase = .data)
    (htrial' : mx.trial.toNat ≤ 8) (hmod : mx.modules = (drawnSymbol v l).modules)
    (hisf : mx.isfunc = (drawnSymbol v l).isfunc) : MatrixInv mx where
  idle_version := by
    refine ⟨fun h => absurd h (patternsDrawn_ne hp).1, fun h => ?_⟩
    rw [h] at hver
    simp only [BitVec.toNat_zero, BitVec.ofNat_eq_ofNat] at hver
    omega
  idle_size := by
    refine ⟨fun h => absurd h (patternsDrawn_ne hp).1, fun h => ?_⟩
    rw [h] at hsize
    simp only [BitVec.toNat_zero, BitVec.ofNat_eq_ofNat] at hsize
    omega
  version_size _ := by
    rw [hver, hsize]
    exact ⟨h1, hv, rfl⟩
  mask_final := hmask
  trial_data := htrial
  mask_range := hmask'
  trial_range := htrial'
  alloc_blank h := absurd h (patternsDrawn_ne hp).2
  outside_zero x y h := by
    rw [hmod, hisf]
    rw [hsize] at h
    exact drawnSymbol_outside h1 hv hl h
  flags_drawn _ := by rw [hver, hecl, hisf]
  functions_stand _ x y _ _ := by rw [hver, hecl, hmod]

/-- A symbol with the drawn patterns and nothing else, in the phase given. -/
def symbolIn (v l : Nat) (p : Phase) (mask trial : BitVec 4) : Matrix where
  phase := p
  version := BitVec.ofNat 6 v
  size := BitVec.ofNat 8 (4 * v + 17)
  ecl := BitVec.ofNat 2 l
  mask := mask
  trial := trial
  modules := (drawnSymbol v l).modules
  isfunc := (drawnSymbol v l).isfunc
  penTotal := 0
  penN1 := 0
  penN2 := 0
  penN3 := 0
  penN4 := 0

theorem symbolIn_isfunc (v l : Nat) (p : Phase) (mask trial : BitVec 4) :
    (symbolIn v l p mask trial).isfunc = (drawnSymbol v l).isfunc := by
  simp only [symbolIn]

/-- Such a symbol meets the invariant (R41). -/
theorem matrixInv_symbolIn {v l : Nat} (h1 : 1 ≤ v) (hv : v ≤ 40) (hl : l ≤ 3) {p : Phase} (hp : patternsDrawn p)
    {mask trial : BitVec 4} (hm : mask ≠ 8 ↔ p = .final) (hm' : mask.toNat ≤ 8) (ht : trial ≠ 8 → p = .data)
    (ht' : trial.toNat ≤ 8) : MatrixInv (symbolIn v l p mask trial) := by
  refine matrixInv_of_drawn (mx := symbolIn v l p mask trial) (v := v) (l := l) h1 hv hl hp ?_ ?_ ?_ hm hm' ht ht' ?_ ?_
  · simp only [symbolIn, BitVec.toNat_ofNat]; omega
  · simp only [symbolIn, BitVec.toNat_ofNat]; omega
  · simp only [symbolIn, BitVec.toNat_ofNat]; omega
  · simp only [symbolIn]
  · simp only [symbolIn]

end Sys2Proof.Laws
end

