-- ==== Sys2Proof/Laws/PerInstr.lean ====
section
/-! SUPPORT. One statement about the syntax of every instruction, by constructor: the opcode byte of its word is the one that
the opcode map gives its mnemonic (spec/30_encoding.md R89). -/

namespace Sys2Proof.Laws.OpcodeByte

open Sys2Proof

/-- The word of a well-formed instruction lies in the row of the opcode map that has its mnemonic (R89). -/
def Statement (i : Instr) : Prop := i.wf = true → (rowOf (opOf (encode i))).map OpRow.mnemonic = some i.mnemonic

/-- A packed word lies in the row of its `op`. -/
theorem row_of_packWord {op a b imm : Nat} {m : Mnemonic} (hrow : (rowOf op).map OpRow.mnemonic = some m)
    (hop : op < 2 ^ 8) (ha : a < 2 ^ 8) (hb : b < 2 ^ 16) (himm : imm < 2 ^ 32) :
    (rowOf (opOf (packWord op a b imm))).map OpRow.mnemonic = some m := by
  rw [opOf_packWord hop ha hb himm]
  exact hrow

/-- The form of a well-formedness test. -/
theorem lt_of_fits {bits n : Nat} (h : fits bits n = true) : n < 2 ^ bits := by
  simpa [fits] using h

theorem reset : Statement .reset :=
  fun _ => row_of_packWord rfl (by decide) (by decide) (by decide) (by decide)

theorem rdcr (n : Nat) : Statement (.rdcr n) :=
  fun h => row_of_packWord rfl (by decide) (by decide) (by decide) (lt_of_fits h)

theorem ldb (addr : Nat) : Statement (.ldb addr) :=
  fun h => row_of_packWord rfl (by decide) (by decide) (by decide) (Nat.lt_trans (lt_of_fits h) (by decide))

theorem stb (addr : Nat) (v : Byte) : Statement (.stb addr v) :=
  fun h => row_of_packWord rfl (by decide) v.isLt (by decide) (Nat.lt_trans (lt_of_fits h) (by decide))

theorem gfmul (x y : Nat) : Statement (.gfmul x y) := fun h => by
  simp only [Instr.wf, Bool.and_eq_true] at h
  exact row_of_packWord rfl (by decide) (by decide) (by decide) (packImm_lt (lt_of_fits h.2) (lt_of_fits h.1))

theorem rsinit (degree : Nat) : Statement (.rsinit degree) :=
  fun h => row_of_packWord rfl (by decide) (by decide) (by decide) (lt_of_fits h)

theorem rsrdc (i : Nat) : Statement (.rsrdc i) :=
  fun h => row_of_packWord rfl (by decide) (by decide) (by decide) (lt_of_fits h)

theorem rsrem (src len dst : Nat) : Statement (.rsrem src len dst) := fun h => by
  simp only [Instr.wf, Bool.and_eq_true] at h
  exact row_of_packWord rfl (by decide) (by decide) (lt_of_fits h.1.2)
    (packImm_lt (lt_of_fits h.2) (lt_of_fits h.1.1))

theorem bbnew : Statement .bbnew :=
  fun _ => row_of_packWord rfl (by decide) (by decide) (by decide) (by decide)

theorem bblen : Statement .bblen :=
  fun _ => row_of_packWord rfl (by decide) (by decide) (by decide) (by decide)

theorem bbapp (width : Nat) (value : Word) : Statement (.bbapp width value) :=
  fun h => row_of_packWord rfl (by decide) (lt_of_fits h) (by decide) value.isLt

theorem bbappm (src nbits : Nat) : Statement (.bbappm src nbits) := fun h => by
  simp only [Instr.wf, Bool.and_eq_true] at h
  exact row_of_packWord rfl (by decide) (by decide) (lt_of_fits h.2)
    (Nat.lt_trans (lt_of_fits h.1) (by decide))

theorem bbtob (dst : Nat) : Statement (.bbtob dst) :=
  fun h => row_of_packWord rfl (by decide) (by decide) (by decide) (Nat.lt_trans (lt_of_fits h) (by decide))

theorem mxnew (version level : Nat) : Statement (.mxnew version level) := fun h => by
  simp only [Instr.wf, Bool.and_eq_true] at h
  exact row_of_packWord rfl (by decide) (lt_of_fits h.2) (by decide) (lt_of_fits h.1)

theorem mxfunc : Statement .mxfunc :=
  fun _ => row_of_packWord rfl (by decide) (by decide) (by decide) (by decide)

theorem mxcw (src count : Nat) : Statement (.mxcw src count) := fun h => by
  simp only [Instr.wf, Bool.and_eq_true] at h
  exact row_of_packWord rfl (by decide) (by decide) (lt_of_fits h.2)
    (Nat.lt_trans (lt_of_fits h.1) (by decide))

theorem mxfmt (m : Nat) : Statement (.mxfmt m) :=
  fun h => row_of_packWord rfl (by decide) (by decide) (by decide) (lt_of_fits h)

theorem mxmask (m : Nat) : Statement (.mxmask m) :=
  fun h => row_of_packWord rfl (by decide) (by decide) (by decide) (lt_of_fits h)

theorem mxpen : Statement .mxpen :=
  fun _ => row_of_packWord rfl (by decide) (by decide) (by decide) (by decide)

theorem mxsel (req : MaskRequest) : Statement (.mxsel req) := fun h => by
  refine row_of_packWord rfl (by decide) (by decide) (by decide) ?_
  cases req with
  | auto => decide
  | forced m => exact Nat.lt_trans (of_decide_eq_true h) (by decide)

theorem mxrd (x y : Int) : Statement (.mxrd x y) :=
  fun _ => row_of_packWord rfl (by decide) (by decide) (by decide) (packImm_lt (unsext16_lt y) (unsext16_lt x))

theorem mxpeek (x y : Int) : Statement (.mxpeek x y) :=
  fun _ => row_of_packWord rfl (by decide) (by decide) (by decide) (packImm_lt (unsext16_lt y) (unsext16_lt x))

end Sys2Proof.Laws.OpcodeByte
end

