-- ==== Sys2Proof/Laws/ReedSolomon.lean ====
section
/-! SUPPORT. Lengths of the Reed-Solomon vectors. -/

namespace Sys2Proof.Laws

open Sys2Proof.Machine

theorem length_timesRoot (root : Byte) (c : List Byte) : (timesRoot root c).length = c.length := by
  induction c with
  | nil => rfl
  | cons a rest ih =>
    cases rest with
    | nil => rfl
    | cons b tail => simp [timesRoot, ih]

theorem length_divisorRounds (k : Nat) (root : Byte) (c : List Byte) : (divisorRounds k root c).length = c.length := by
  induction k generalizing root c with
  | zero => rfl
  | succ k ih => rw [divisorRounds, ih, length_timesRoot]

/-- The divisor of degree `d` has `d` coefficients (R176). -/
theorem length_divisor {d : Nat} (h : 1 ≤ d) : (divisor d).length = d := by
  simp only [divisor, length_divisorRounds, List.length_append, List.length_replicate, List.length_singleton]
  omega

theorem length_remainderStep {div rem : List Byte} (b : Byte) (h : rem.length = div.length) :
    (remainderStep div rem b).length = div.length := by
  unfold remainderStep
  simp only [List.length_zipWith, List.length_append, List.length_tail, List.length_singleton]
  omega

/-- The remainder has as many bytes as the divisor (R182). -/
theorem length_remainder (div data : List Byte) : (remainder div data).length = div.length := by
  unfold remainder
  have h : ∀ rem : List Byte, rem.length = div.length →
      (data.foldl (remainderStep div) rem).length = div.length := by
    induction data with
    | nil => exact fun _ h => h
    | cons b rest ih => exact fun rem h => ih _ (length_remainderStep b h)
  exact h _ (by simp)

@[simp] theorem length_divCoefficients (rs : RsGen) : (divCoefficients rs).length = rs.rsdeg.toNat := by
  simp [divCoefficients]

/-- The stored coefficients of the generator of degree `d` are the divisor (R28). -/
theorem divCoefficients_generator {d : Nat} (h : 1 ≤ d) (h' : d ≤ 255) : divCoefficients (generator d) = divisor d := by
  have hd : (generator d).rsdeg.toNat = d := by
    simp only [generator, BitVec.toNat_ofNat]
    omega
  apply List.ext_getElem
  · rw [length_divCoefficients, hd, length_divisor h]
  · intro k h1 h2
    simp only [divCoefficients, List.getElem_map, List.getElem_range, generator, readAt_tabulate]
    rw [length_divCoefficients, hd] at h1
    rw [if_pos (show k < Config.rsMaxDegree by show k < 255; omega), List.getD_eq_getElem?_getD,
      List.getElem?_eq_getElem h2]
    rfl

end Sys2Proof.Laws
end

