-- ==== Sys2Proof/Laws/Step.lean ====
section
/-! SUPPORT. What one step can do, said once. -/

namespace Sys2Proof.Laws

open Sys2Proof.Machine Sys2Proof.Safety

/-- A step leaves the state, or takes one input from the port and resets, refuses an illegal word or runs an instruction. -/
theorem step_cases {s t : State} (h : step s = .next t) :
    t = s ∨ ∃ i rest, s.port = i :: rest ∧
      (i = .hardReset ∧ t = hardReset { s with port := rest } ∨
      ∃ w, i = .command w ∧
        ((∃ e, decode w = .error e) ∧ t = refusedWith 4 { s with port := rest } ∨
        ∃ ins, decode w = .ok ins ∧ exec ins { s with port := rest } = .next t)) := by
  unfold step takeInput at h
  cases hp : s.port with
  | nil =>
    simp only [hp, Host.Outcome.next.injEq] at h
    exact .inl h.symm
  | cons i rest =>
    simp only [hp] at h
    refine .inr ⟨i, rest, rfl, ?_⟩
    cases i with
    | hardReset => exact .inl ⟨rfl, by simpa [runInput] using h.symm⟩
    | command w =>
      refine .inr ⟨w, rfl, ?_⟩
      simp only [runInput, execute] at h
      split at h
      · next e he =>
        cases h
        exact .inl ⟨⟨e, he⟩, by simp [illegalWord, refuse_eq, StatusCode.toByte]⟩
      · next ins he => exact .inr ⟨ins, he, h⟩

/-- A property of the block's state that reset gives, every refusal keeps and every instruction keeps is kept by every step:
the induction over what a step can do, packaged once. The property must not look at the port. -/
theorem step_keeps {P : State → Prop} {s t : State} (hport : ∀ u rest, P u → P { u with port := rest })
    (hreset : ∀ u, P (hardReset u)) (hillegal : ∀ u, P u → P (refusedWith 4 u))
    (hexec : ∀ i u v, P u → exec i u = .next v → P v) (hs : P s) (h : step s = .next t) : P t := by
  rcases step_cases h with rfl | ⟨i, rest, -, ⟨-, rfl⟩ | ⟨w, -, ⟨-, rfl⟩ | ⟨ins, -, he⟩⟩⟩
  · exact hs
  · exact hreset _
  · exact hillegal _ (hport _ _ hs)
  · exact hexec _ _ _ (hport _ _ hs) he

end Sys2Proof.Laws
end

