-- ==== Sys2Proof/Tests/Slice0.lean ====
section
/-! SUPPORT. Small tests of the model, with values from the spec's tables and vectors, and for every statement with
hypotheses a witness that meets them. -/

namespace Sys2Proof.Tests

open Sys2Proof Sys2Proof.Machine Sys2Proof.Safety Sys2Proof.Laws

set_option Elab.async false

/-! ### Helpers -/

/-- Status code and result of the answer (R85). -/
def answer : Result → Option (Byte × Word)
  | .next t => t.response.map (fun r => (r.st, r.res))
  | .fault _ => none
  | .refused _ => none

/-- The state after an answer. -/
def after : Result → State
  | .next t => t
  | .fault _ => State.reset
  | .refused _ => State.reset

/-- The reset state with a symbol of version 1, level LOW, that holds the drawn patterns and nothing else. -/
def symbolState (p : Phase) (mask trial : BitVec 4) : State := { State.reset with mx := symbolIn 1 0 p mask trial }

/-- The reset state with `n` zero bits in the builder. -/
def bitsState (n : Nat) : State := { State.reset with bb := ⟨Vector.replicate Config.bbCapBytes 0, BitVec.ofNat 16 n⟩ }

/-- The reset state with a generator. -/
def generatorState (d : Nat) : State := { State.reset with rs := generator d }

/-- The reset state with bytes stored from an address on. -/
def bytesState (addr : Nat) (bytes : List Byte) : State := writeRange State.reset addr bytes

/-- The fatal state of vector V62. -/
def fatalState : State := { State.reset with status := ⟨3, true, true⟩ }

/-- A picture row of the spec: `#` is dark. -/
def picture (row : String) : List Bool := row.toList.map (fun c => c == '#')

/-! ### Well-formedness: an ill-formed term for each check (R88) -/

theorem test_wf_refuses_wide_numbers :
    (Instr.rdcr 0x100000000).wf = false ∧ (Instr.rsinit 0x100000000).wf = false ∧ (Instr.rsrdc 0x100000000).wf = false ∧
    (Instr.mxfmt 0x100000000).wf = false ∧ (Instr.mxmask 0x100000000).wf = false ∧
    (Instr.mxnew 0x100000000 0).wf = false ∧ (Instr.mxnew 1 256).wf = false ∧ (Instr.bbapp 256 0).wf = false := by decide

theorem test_wf_refuses_wide_addresses :
    (Instr.ldb 65536).wf = false ∧ (Instr.stb 65536 0).wf = false ∧ (Instr.bbtob 65536).wf = false ∧
    (Instr.gfmul 65536 0).wf = false ∧ (Instr.gfmul 0 65536).wf = false ∧ (Instr.rsrem 65536 0 0).wf = false ∧
    (Instr.rsrem 0 65536 0).wf = false ∧ (Instr.rsrem 0 0 65536).wf = false ∧ (Instr.bbappm 65536 0).wf = false ∧
    (Instr.bbappm 0 65536).wf = false ∧ (Instr.mxcw 65536 0).wf = false ∧ (Instr.mxcw 0 65536).wf = false := by decide

theorem test_wf_refuses_coordinates_and_mask_patterns :
    (Instr.mxrd 32768 0).wf = false ∧ (Instr.mxrd 0 (-32769)).wf = false ∧ (Instr.mxpeek (-32769) 0).wf = false ∧
    (Instr.mxpeek 0 32768).wf = false ∧ (Instr.mxsel (.forced 0xFFFFFFFF)).wf = false := by decide

theorem test_wf_accepts_out_of_range_operands :
    (Instr.rsinit 256).wf = true ∧ (Instr.ldb 65535).wf = true ∧ (Instr.mxnew 41 255).wf = true ∧
    (Instr.mxrd (-32768) 32767).wf = true ∧ (Instr.mxsel (.forced 0xFFFFFFFE)).wf = true := by decide

/-! ### Decoding: words written out from R86 to R89, R98 and the vectors -/

theorem test_decode_reset : decode 0x0100000000000000 = .ok .reset := by decide
theorem test_decode_rdcr : decode 0x0200000000000004 = .ok (.rdcr 4) := by decide
theorem test_decode_ldb : decode 0x0300000000001FFF = .ok (.ldb 8191) := by decide
theorem test_decode_stb : decode 0x04EC000000000010 = .ok (.stb 0x0010 0xEC) := by decide
theorem test_decode_gfmul : decode 0x1000000000CA0053 = .ok (.gfmul 0x53 0xCA) := by decide
theorem test_decode_rsinit : decode 0x20000000FFFFFFFF = .ok (.rsinit 4294967295) := by decide
theorem test_decode_rsrdc : decode 0x21000000000003E7 = .ok (.rsrdc 999) := by decide
theorem test_decode_rsrem : decode 0x2200000300001FFE = .ok (.rsrem 8190 3 0) := by decide
theorem test_decode_bbnew : decode 0x3000000000000000 = .ok .bbnew := by decide
theorem test_decode_bblen : decode 0x3100000000000000 = .ok .bblen := by decide
theorem test_decode_bbapp : decode 0x320B00000000030B = .ok (.bbapp 11 779) := by decide
theorem test_decode_bbappm : decode 0x3300000900001FFF = .ok (.bbappm 8191 9) := by decide
theorem test_decode_bbtob : decode 0x3400000000001001 = .ok (.bbtob 4097) := by decide
theorem test_decode_mxnew : decode 0x4003000000000007 = .ok (.mxnew 7 3) := by decide
theorem test_decode_mxfunc : decode 0x4100000000000000 = .ok .mxfunc := by decide
theorem test_decode_mxcw : decode 0x4200001A00001FE7 = .ok (.mxcw 8167 26) := by decide
theorem test_decode_mxfmt : decode 0x4300000000000007 = .ok (.mxfmt 7) := by decide
theorem test_decode_mxmask : decode 0x44000000FFFFFFFF = .ok (.mxmask 4294967295) := by decide
theorem test_decode_mxpen : decode 0x4500000000000000 = .ok .mxpen := by decide
theorem test_decode_mxsel :
    decode 0x46000000FFFFFFFF = .ok (.mxsel .auto) ∧ decode 0x46000000FFFFFFFE = .ok (.mxsel (.forced 4294967294)) := by decide
theorem test_decode_mxrd : decode 0x470000000000FFFF = .ok (.mxrd (-1) 0) ∧ decode 0x4700000080008000 =
    .ok (.mxrd (-32768) (-32768)) := by decide
theorem test_decode_mxpeek : decode 0x4800000000160015 = .ok (.mxpeek 21 22) := by decide

/-- The illegal words of V1. -/
def illegalWords : List Cmd :=
  [0x0000000000000000, 0xFFFFFFFFFFFFFFFF, 0x0500000000000000, 0x1100000000000000, 0x2300000000000000,
    0x3500000000000000, 0x4900000000000000, 0x0100000000000001, 0x3001000000000000, 0x0200000100000000,
    0x0300000000010000, 0x0401000100000000] ++
  [0x0401000000010000, 0x1001000000010001, 0x2201000300030000, 0x3203000100000005, 0x3301000800000000,
    0x3300000800010000, 0x4000000100000001, 0x4200001A00010000, 0x4500000000000001, 0x46010000FFFFFFFF]

theorem test_decode_rejects_illegal_words : illegalWords.all (fun w => (decodeSome w).isNone) = true := by decide +kernel

theorem test_decode_rejects_by_name :
    decode 0x0500000000000000 = .error (.undefinedOpcode 5) ∧ decode 0x3001000000000000 = .error (.fieldNotZero .a) ∧
    decode 0x0200000100000000 = .error (.fieldNotZero .b) ∧ decode 0x4500000000000001 = .error (.fieldNotZero .imm) ∧
    decode 0x0300000000010000 = .error (.fieldNotZero .hi) := by decide

/-! ### Steps (R342, R355, R381) -/

theorem test_step_runs_the_presented_word :
    answer (step (State.reset.withFetchWord 64 0x0200000000000000)) = some (0, 0x51524301) := by decide
theorem test_step_refuses_an_illegal_word :
    answer (step (State.reset.withFetchWord 64 0)) = some (4, 0) ∧
    (after (step (State.reset.withFetchWord 64 0))).status = ⟨4, true, false⟩ := by decide
theorem test_step_of_the_reset_input :
    (after (step { fatalState with port := [.hardReset, .command 0] })).status = ⟨0, false, false⟩ ∧
    (after (step { fatalState with port := [.hardReset, .command 0] })).port = [.command 0] := by decide
theorem test_step_idle : (after (step fatalState)).status = fatalState.status := by decide

/-! ### System commands (V10 to V12, V62) -/

theorem test_reset_clears_the_status :
    answer (exec .reset fatalState) = some (0, 0) ∧ (after (exec .reset fatalState)).status = ⟨0, false, false⟩ := by decide
theorem test_reset_empties_builder_and_generator :
    (after (exec .reset { bitsState 8 with rs := generator 2 })).bb.bblen = 0 ∧
    (after (exec .reset { bitsState 8 with rs := generator 2 })).rs.rsdeg = 0 := by decide
theorem test_rdcr_matrix_register :
    answer (exec (.rdcr 4) State.reset) = some (0, 0x880000) ∧
    answer (exec (.rdcr 4) { State.reset with mx := newSymbol 2 3 }) = some (0, 0x18819C2) := by decide
theorem test_rdcr_status_and_bad_number :
    answer (exec (.rdcr 1) fatalState) = some (0, 0x303) ∧ answer (exec (.rdcr 10) State.reset) = some (1, 0) := by decide
theorem test_ldb_reads_a_stored_byte :
    answer (exec (.ldb 8191) (bytesState 8190 [0x12, 0xAB])) = some (0, 0xAB) ∧
    answer (exec (.ldb 8192) State.reset) = some (6, 0) := by decide
theorem test_stb_stores_one_byte :
    readByte (after (exec (.stb 0 0xEC) (bytesState 0 [1, 2]))) 0 = 0xEC ∧
    readByte (after (exec (.stb 0 0xEC) (bytesState 0 [1, 2]))) 1 = 2 ∧
    answer (exec (.stb 8192 1) State.reset) = some (6, 0) := by decide
theorem test_fatal_refusals :
    answer (exec .bblen fatalState) = some (3, 0) ∧ answer (exec (.gfmul 1 1) fatalState) = some (3, 0) ∧
    answer (execute 0 fatalState) = some (4, 0) := by decide

/-! ### Field and Reed-Solomon (V30, V35 to V37, R179) -/

theorem test_gfmul_products :
    answer (exec (.gfmul 0x53 0xCA) State.reset) = some (0, 0x8F) ∧ answer (exec (.gfmul 2 0x8E) State.reset) = some (0, 1) ∧
    answer (exec (.gfmul 255 255) State.reset) = some (0, 0xE2) := by decide
theorem test_gfmul_bad_operand : answer (exec (.gfmul 1 256) State.reset) = some (1, 0) := by decide
theorem test_rsinit_divisor :
    divCoefficients (after (exec (.rsinit 7) State.reset)).rs = [127, 122, 154, 164, 11, 68, 117] := by decide +kernel
theorem test_rsinit_bad_degree :
    answer (exec (.rsinit 0) State.reset) = some (1, 0) ∧ answer (exec (.rsinit 256) State.reset) = some (1, 0) := by decide
theorem test_rsrdc_reads_the_last_coefficient :
    answer (exec (.rsrdc 9) (generatorState 10)) = some (0, 193) ∧
    answer (exec (.rsrdc 10) (generatorState 10)) = some (1, 0) := by decide +kernel
theorem test_rsrdc_without_generator : answer (exec (.rsrdc 0) State.reset) = some (5, 0) := by decide
theorem test_rsrem_inside_its_source :
    readRange (after (exec (.rsrem 0 3 1) { bytesState 0 [0x12, 0x34, 0x56] with rs := generator 2 })) 0 3 =
      [0x12, 0x98, 0xE8] := by decide +kernel
theorem test_rsrem_bounds :
    answer (exec (.rsrem 8192 0 100) (generatorState 2)) = some (0, 2) ∧
    answer (exec (.rsrem 8193 0 100) (generatorState 2)) = some (6, 0) := by decide +kernel

/-! ### Bit builder (V20 to V23) -/

theorem test_bbnew_empties : (after (exec .bbnew (bitsState 9))).bb.bblen = 0 := by decide
theorem test_bblen_reports : answer (exec .bblen (bitsState 32768)) = some (0, 32768) := by decide
theorem test_bbapp_is_big_endian :
    (List.range 4).map (readAt (after (exec (.bbapp 32 0x12345678) State.reset)).bb.bitbuf 0) = [0x12, 0x34, 0x56, 0x78] := by
  decide +kernel
theorem test_bbapp_refusals :
    answer (exec (.bbapp 3 8) State.reset) = some (1, 0) ∧ answer (exec (.bbapp 33 0) State.reset) = some (1, 0) ∧
    answer (exec (.bbapp 2 0) (bitsState 32767)) = some (6, 0) ∧
    answer (exec (.bbapp 0 0) (bitsState 32768)) = some (0, 32768) := by decide +kernel
theorem test_bbappm_takes_the_high_bits :
    (List.range 2).map (readAt (after (exec (.bbappm 0 10) (bytesState 0 [0xB4, 0xC0]))).bb.bitbuf 0) = [0xB4, 0xC0] ∧
    (List.range 2).map (readAt (after (exec (.bbappm 0 3) (bytesState 0 [0xB4, 0xC0]))).bb.bitbuf 0) = [0xA0, 0] := by
  decide +kernel
theorem test_bbappm_bounds :
    answer (exec (.bbappm 8192 0) State.reset) = some (0, 0) ∧ answer (exec (.bbappm 8191 9) State.reset) = some (6, 0) ∧
    answer (exec (.bbappm 8193 0) State.reset) = some (6, 0) := by decide
theorem test_bbtob_copies :
    readRange (after (exec (.bbtob 16) { bytesState 16 [9, 9, 9] with
      bb := appendBits Builder.reset (picture "#.##.#..##") })) 16 3 = [0xB4, 0xC0, 9] := by decide +kernel
theorem test_bbtob_bounds : answer (exec (.bbtob 4097) (bitsState 32768)) = some (6, 0) := by decide

/-! ### Matrix patterns (R206, R212, R216, R219, V40 to V45) -/

theorem test_mxnew_starts_a_symbol :
    answer (exec (.mxnew 40 2) State.reset) = some (0, 177) ∧
    answer (exec (.rdcr 4) (after (exec (.mxnew 40 2) State.reset))) = some (0, 0x188B1A8) := by decide
theorem test_mxnew_refusals :
    answer (exec (.mxnew 0 0) State.reset) = some (1, 0) ∧ answer (exec (.mxnew 41 0) State.reset) = some (1, 0) ∧
    answer (exec (.mxnew 1 4) State.reset) = some (1, 0) := by decide
theorem test_alignment_positions :
    alignPos 1 = [] ∧ alignPos 2 = [6, 18] ∧ alignPos 7 = [6, 22, 38] ∧ alignPos 14 = [6, 26, 46, 66] ∧
    alignPos 32 = [6, 34, 60, 86, 112, 138] ∧ alignPos 36 = [6, 24, 50, 76, 102, 128, 154] ∧
    alignPos 40 = [6, 30, 58, 86, 114, 142, 170] := by decide
theorem test_version_words :
    versionWord 7 = 0x07C94 ∧ versionWord 21 = 0x15683 ∧ versionWord 32 = 0x209D5 ∧ versionWord 40 = 0x28C69 := by decide
theorem test_format_words :
    (List.range 8).map (formatWord 0) = [0x77C4, 0x72F3, 0x7DAA, 0x789D, 0x662F, 0x6318, 0x6C41, 0x6976] ∧
    (List.range 4).map (fun l => formatWord l 7) = [0x6976, 0x4AA0, 0x2BED, 0x083B] := by decide

/-- The value the drawing of version 1 leaves in each cell of a row; light where nothing is drawn. -/
def drawnRow (y : Nat) : List Bool := (List.range 21).map (fun x => (lastWrite (functionCells 21 1 0) x y).getD false)

/-- Rows 6 and 8 of the picture of R219. -/
theorem test_mxfunc_pictures :
    drawnRow 6 = picture "#######.#.#.#.#######" ∧ drawnRow 8 = picture "###.#####....##...#.." := by decide +kernel
theorem test_mxfunc_counts_the_free_cells : nfree (drawnSymbol 1 0) = 208 := by decide +kernel
theorem test_mxcw_first_cells :
    (freeScan { Matrix.reset with size := 21 }).take 4 = [(20, 20), (19, 20), (20, 19), (19, 19)] := by decide +kernel

/-- An unreachable state in which the scan misses column 6 (R225's argument fails there): the internal fault of R220. -/
theorem test_mxcw_internal_fault :
    answer (exec (.mxcw 0 6) { State.reset with mx := { Matrix.reset with phase := .patterns, size := 7 } }) =
      some (3, 0) := by decide +kernel
theorem test_mxfmt_answers_the_word : answer (exec (.mxfmt 7) (symbolState .data 8 8)) = some (0, 0x6976) := by decide +kernel
theorem test_mxfmt_refusals :
    answer (exec (.mxfmt 8) (symbolState .data 8 8)) = some (1, 0) ∧
    answer (exec (.mxfmt 0) (symbolState .final 3 8)) = some (5, 0) := by decide +kernel

/-! ### Masks, penalty, selection, read-out (R250, R260, V51) -/

theorem test_mxmask_toggles :
    answer (exec (.mxmask 3) (symbolState .data 8 8)) = some (0, 3) ∧
    answer (exec (.mxmask 3) (symbolState .data 8 3)) = some (0, 8) := by decide +kernel
theorem test_mxmask_refusals :
    answer (exec (.mxmask 8) (symbolState .data 8 8)) = some (1, 0) ∧
    answer (exec (.mxmask 4) (symbolState .data 8 3)) = some (5, 0) ∧
    answer (exec (.mxmask 9) State.reset) = some (5, 0) := by decide +kernel

/-- All-light lines and grids by R256, R257, R259: a line of 21 cells scores 19, and a light 7 × 7 grid 14 × 5 for its lines,
36 × 3 for its blocks and 90 for its balance. -/
theorem test_penalty_of_light_cells :
    n1Line (List.replicate 21 false) = 19 ∧ penalty Grid.blank 7 = ⟨70, 108, 0, 90⟩ := by decide +kernel
theorem test_mxpen_of_a_light_grid :
    answer (exec .mxpen { State.reset with mx := { Matrix.reset with phase := .data, size := 7 } }) = some (0, 268) ∧
    answer (exec .mxpen State.reset) = some (5, 0) := by decide +kernel
theorem test_finder_like_windows :
    finderLike (picture "#.###.#....") 0 = true ∧ finderLike (picture "....#.###.#") 0 = true ∧
    finderLike (picture "#.###.#...#") 0 = false := by decide
theorem test_mxsel_forced_answers_the_mask :
    answer (exec (.mxsel (.forced 7)) (symbolState .data 8 8)) = some (0, 7) := by decide +kernel
theorem test_mxsel_refusals :
    answer (exec (.mxsel .auto) (symbolState .data 8 3)) = some (5, 0) ∧
    answer (exec (.mxsel (.forced 8)) (symbolState .data 8 8)) = some (1, 0) ∧
    answer (exec (.mxsel (.forced 9)) State.reset) = some (5, 0) := by decide +kernel
theorem test_mxrd_outside_the_symbol :
    answer (exec (.mxrd (-1) (-1)) (symbolState .final 3 8)) = some (0, 0) ∧
    answer (exec (.mxrd 21 21) (symbolState .final 3 8)) = some (0, 0) ∧
    answer (exec (.mxrd 0 0) (symbolState .data 8 8)) = some (5, 0) := by decide +kernel
theorem test_mxrd_inside_the_symbol :
    answer (exec (.mxrd 20 0) { State.reset with mx := { Matrix.reset with
      phase := .final, size := 21, modules := Grid.blank.put 20 0 true } }) = some (0, 1) := by decide +kernel
/-- A symbol in phase PATTERNS with one dark function cell, at (4, 5). -/
def peekMatrix : Matrix := setFunction { Matrix.reset with phase := .patterns, size := 21 } (4, 5, true)

theorem test_mxpeek_reads_both_grids :
    answer (exec (.mxpeek 4 5) { State.reset with mx := peekMatrix }) = some (0, 3) ∧
    answer (exec (.mxpeek 5 4) { State.reset with mx := peekMatrix }) = some (0, 0) ∧
    answer (exec (.mxpeek 0 0) State.reset) = some (5, 0) := by decide +kernel

/-! ### Assembler and host tables (R96 to R98, S7, S10) -/

theorem test_assembler_lines :
    assembleLine "STB 0x0010, 0xEC ; pad".toList = .command 0x04EC000000000010 ∧
    assembleLine "MXRD −1, −1".toList = .command 0x47000000FFFFFFFF := by decide
theorem test_host_tables :
    charValue 'A' = some 10 ∧ charValue ':' = some 44 ∧ rawCodewords 1 = 26 ∧ rawCodewords 40 = 3706 ∧
    dataCodewordCapacity 1 0 = 19 ∧ dataCodewordCapacity 2 0 = 34 := by decide

/-- CR4 of the finished symbol of R269, and the kinds of R345. -/
theorem test_host_read_out_and_failures :
    attributesOf 0x04801501 = ⟨1, 0, 21, 0⟩ ∧ HostFailure.ofStatus 1 = .invalidArgument ∧
    HostFailure.ofStatus 3 = .internalConsistencyFault ∧ HostFailure.ofStatus 6 = .driverDefect 6 := by decide

/-! ### Witnesses: states and operands that meet the hypotheses of the statements, at the boundaries of their clauses -/

/-- Every command answers a next state. -/
theorem exec_next (i : Instr) (s : State) : exec i s = .next (after (exec i s)) := by
  cases i <;> rfl

theorem symbolState_inv {p : Phase} {mask trial : BitVec 4} (hp : patternsDrawn p) (hm : mask ≠ 8 ↔ p = .final)
    (hm' : mask.toNat ≤ 8) (ht : trial ≠ 8 → p = .data) (ht' : trial.toNat ≤ 8) :
    (symbolState p mask trial).status.fatal = false ∧ MatrixInv (symbolState p mask trial).mx ∧
      (symbolState p mask trial).mx.phase = p ∧ (symbolState p mask trial).mx.trial = trial :=
  ⟨rfl, matrixInv_symbolIn (by decide) (by decide) (by decide) hp hm hm' ht ht', rfl, rfl⟩

/-- The states of phases PATTERNS, DATA (no mask applied and mask 3 applied) and FINAL meet R41. -/
theorem witness_phases :
    ((symbolState .patterns 8 8).status.fatal = false ∧ MatrixInv (symbolState .patterns 8 8).mx ∧
      (symbolState .patterns 8 8).mx.phase = .patterns ∧ (symbolState .patterns 8 8).mx.trial = 8) ∧
    ((symbolState .data 8 8).status.fatal = false ∧ MatrixInv (symbolState .data 8 8).mx ∧
      (symbolState .data 8 8).mx.phase = .data ∧ (symbolState .data 8 8).mx.trial = 8) ∧
    ((symbolState .data 8 3).status.fatal = false ∧ MatrixInv (symbolState .data 8 3).mx ∧
      (symbolState .data 8 3).mx.phase = .data ∧ (symbolState .data 8 3).mx.trial = 3) ∧
    ((symbolState .final 7 8).status.fatal = false ∧ MatrixInv (symbolState .final 7 8).mx ∧
      (symbolState .final 7 8).mx.phase = .final ∧ (symbolState .final 7 8).mx.trial = 8) :=
  ⟨symbolState_inv (.inl rfl) (by decide) (by decide) (by decide) (by decide),
    symbolState_inv (.inr (.inl rfl)) (by decide) (by decide) (by decide) (by decide),
    symbolState_inv (.inr (.inl rfl)) (by decide) (by decide) (by decide) (by decide),
    symbolState_inv (.inr (.inr rfl)) (by decide) (by decide) (by decide) (by decide)⟩

/-- The states of phases IDLE and ALLOC meet R41. -/
theorem witness_idle_and_alloc :
    State.reset.status.fatal = false ∧ MatrixInv State.reset.mx ∧ State.reset.mx.phase = .idle ∧
    MatrixInv (newSymbol 1 0) ∧ MatrixInv (newSymbol 40 3) ∧ (newSymbol 40 3).phase = .alloc :=
  ⟨rfl, matrixInv_reset, rfl, matrixInv_newSymbol (by decide) (by decide) 0, matrixInv_newSymbol (by decide) (by decide) 3,
    rfl⟩

/-- A builder of zeros meets R24 at every length up to the capacity. -/
theorem builderInv_zeros {n : Nat} (h : n ≤ 32768) : BuilderInv ⟨Vector.replicate Config.bbCapBytes 0, BitVec.ofNat 16 n⟩ := by
  constructor
  · show n % 2 ^ 16 ≤ 8 * 4096
    omega
  · intro i _
    simp only [builderBit, seqBit, readAt_replicate]
    split <;> simp

theorem witness_DecodeOfEncodeIsTheInstruction :
    (Instr.mxrd (-32768) 32767).wf = true ∧ (Instr.mxsel (.forced 0xFFFFFFFE)).wf = true ∧ (Instr.bbapp 255 0).wf = true := by
  decide

theorem witness_EncodeOfDecodeIsTheWord : decode 0x46000000FFFFFFFF = .ok (.mxsel .auto) := by decide

theorem witness_MatchAndMaskSelectTheCommand :
    ∃ w, ∃ r ∈ matchTable, ∃ q ∈ matchTable, r.accepts w ∧ q.accepts w :=
  ⟨0x0300000000001FFF, ⟨.LDB, 0x0300000000000000, 0xFFFFFFFFFFFF0000⟩, by decide,
    ⟨.LDB, 0x0300000000000000, 0xFFFFFFFFFFFF0000⟩, by decide, by unfold MatchRow.accepts; decide,
    by unfold MatchRow.accepts; decide⟩

theorem witness_IllegalWordsAreRefused :
    illegal 0x0500000000000000 ∧ illegal 0x3001000000000000 ∧ ¬illegal 0x3000000000000000 := by
  unfold illegal
  decide

theorem witness_StepRunsTheNextInput :
    decode 0x3100000000000000 = .ok .bblen ∧
    ({ State.reset with port := [.command 0x3100000000000000] } : State).port = .command 0x3100000000000000 :: [] ∧
    ({ State.reset with port := [.hardReset] } : State).port = .hardReset :: [] ∧ State.reset.port = [] ∧
    illegal 0 := by
  refine ⟨by decide, rfl, rfl, rfl, ?_⟩
  unfold illegal
  decide

theorem witness_ResetGivesEveryElementItsValue :
    ∃ t, exec .bblen fatalState = .next t ∧ Instr.bblen ≠ .reset ∧ fatalState.status.err = true ∧
      fatalState.status.fatal = true ∧ fatalState.status.lasterr ≠ 0 :=
  ⟨_, exec_next _ _, by decide, rfl, rfl, by decide⟩

theorem witness_ResetStateThroughTheCommands : 8191 < 8192 ∧ 0 < 8192 := by decide

theorem witness_RefusalChangesStatusAlone :
    (∃ t, exec .bblen State.reset = .next t ∧ statusOf t = some 0) ∧
    (∃ t, exec .mxfunc State.reset = .next t ∧ statusOf t = some 5) ∧
    ∃ t, exec (.mxcw 0 6) { State.reset with mx := { Matrix.reset with phase := .patterns, size := 7 } } = .next t ∧
      statusOf t = some 3 :=
  ⟨⟨_, exec_next _ _, by decide⟩, ⟨_, exec_next _ _, by decide⟩, ⟨_, exec_next _ _, by decide +kernel⟩⟩

theorem witness_FatalStateStopsAllButResetAndRdcr :
    fatalState.status.fatal = true ∧ (9 ≤ 9) ∧ illegal 0 ∧ Instr.bblen ≠ .reset ∧ ∀ n, Instr.bblen ≠ .rdcr n := by
  refine ⟨rfl, by decide, ?_, by decide, nofun⟩
  unfold illegal
  decide

theorem witness_EveryCommandGetsAResponse :
    ∃ t r, execute 0 State.reset = .next t ∧ t.response = some r ∧ r.st ≠ 0 :=
  ⟨_, ⟨4, 0⟩, rfl, rfl, by decide⟩

theorem witness_RefusalCodeOfEveryCommand :
    State.reset.status.fatal = false ∧ MatrixInv State.reset.mx ∧ expectedCode .mxfunc State.reset = 5 ∧
    expectedCode (.rdcr 10) State.reset = 1 ∧ expectedCode (.mxmask 4) (symbolState .data 8 3) = 5 ∧
    expectedCode (.ldb 8192) State.reset = 6 ∧ expectedCode (.ldb 8191) State.reset = 0 :=
  ⟨rfl, matrixInv_reset, by decide, by decide, by decide, by decide, by decide⟩

theorem witness_RefusedCommandIsRefusedAgain :
    ∃ t, exec (.ldb 8192) State.reset = .next t ∧ statusOf t = some 6 ∧ (6 : Byte) ≠ 0 :=
  ⟨_, exec_next _ _, by decide, by decide⟩

theorem witness_ControlRegistersReadTheState : 9 ≤ 9 ∧ 10 > 9 := by decide

theorem witness_LoadAndStoreOneByte :
    State.reset.status.fatal = false ∧ 8191 < 8192 ∧ 8192 ≥ 8192 ∧ (8190 : Nat) ≠ 8191 := by decide

theorem witness_GfmulIsThePolynomialProduct :
    State.reset.status.fatal = false ∧ (255 ≤ 255) ∧ (256 > 255 ∨ 0 > 255) := by decide

theorem witness_FieldLawsAndPowersOfTwo :
    (1 : Byte) ≠ 0 ∧ gfmul 1 1 = 1 ∧ 254 < 255 ∧ powerOfTwo 0 = 1 := by decide

theorem witness_RsinitBuildsTheDivisorPolynomial :
    State.reset.status.fatal = false ∧ (1 ≤ 1 ∧ 1 ≤ 255) ∧ (1 ≤ 255 ∧ 255 ≤ 255) ∧ (0 < 1 ∨ 0 > 255) ∧
    (256 < 1 ∨ 256 > 255) := by decide

theorem witness_RsrdcReadsOneCoefficient :
    State.reset.status.fatal = false ∧ State.reset.rs.rsdeg = 0 ∧ (generatorState 255).status.fatal = false ∧
    (generatorState 255).rs.rsdeg ≠ 0 ∧ (generatorState 255).rs.rsdeg.toNat ≤ 255 ∧
    254 < (generatorState 255).rs.rsdeg.toNat := by decide

theorem witness_RsremWritesTheRemainder :
    State.reset.rs.rsdeg = 0 ∧ (generatorState 7).status.fatal = false ∧ (generatorState 7).rs.rsdeg ≠ 0 ∧
    (8190 + 3 > 8192 ∨ 0 + (generatorState 7).rs.rsdeg.toNat > 8192) ∧ 8189 + 3 ≤ 8192 ∧
    8185 + (generatorState 7).rs.rsdeg.toNat ≤ 8192 ∧ 8186 + (generatorState 7).rs.rsdeg.toNat > 8192 := by decide

theorem witness_RemainderLaws :
    ([1, 2] : List Byte).length = ([3, 4] : List Byte).length ∧ 1 ≤ 255 ∧ 255 ≤ 255 := by decide

theorem witness_CodewordBlockHasZeroSyndromes :
    (generatorState 7).status.fatal = false ∧ 1 ≤ 7 ∧ 7 ≤ 255 ∧ (generatorState 7).rs = generator 7 ∧ 0 + 19 + 7 ≤ 8192 ∧
    8166 + 19 + 7 ≤ 8192 ∧ 6 < 7 :=
  ⟨rfl, by decide, by decide, rfl, by decide, by decide, by decide⟩

theorem witness_BbnewEmptiesAndBblenReports : (bitsState 32768).status.fatal = false ∧ 4095 < 4096 := by decide

theorem witness_BbappAppendsTheLowBits :
    (bitsState 32767).status.fatal = false ∧ BuilderInv (bitsState 32767).bb ∧
    (33 > 32 ∨ 2 ^ 33 ≤ (0 : Word).toNat) ∧ (3 > 32 ∨ 2 ^ 3 ≤ (8 : Word).toNat) ∧
    (2 ≤ 32 ∧ (0 : Word).toNat < 2 ^ 2 ∧ (bitsState 32767).bb.bblen.toNat + 2 > 32768) ∧
    (1 ≤ 32 ∧ (1 : Word).toNat < 2 ^ 1 ∧ (bitsState 32767).bb.bblen.toNat + 1 ≤ 32768) ∧
    (32 ≤ 32 ∧ (0xFFFFFFFF : Word).toNat < 2 ^ 32 ∧ (bitsState 0).bb.bblen.toNat + 32 ≤ 32768) :=
  ⟨rfl, builderInv_zeros (by decide), by decide, by decide, by decide, by decide, by decide⟩

theorem witness_BbappLaws :
    (∃ t, BuilderInv State.reset.bb ∧ exec (.bbapp 0 0) State.reset = .next t ∧ statusOf t = some 0) ∧
    (BuilderInv State.reset.bb ∧ 12 + 20 ≤ 32 ∧ (0x123 : Word).toNat < 2 ^ 12 ∧ (0x45678 : Word).toNat < 2 ^ 20 ∧
      State.reset.bb.bblen.toNat + 12 + 20 ≤ 32768) ∧
    (BuilderInv (bitsState 32760).bb ∧ (bitsState 32760).bb.bblen.toNat % 8 = 0 ∧ (255 : Word).toNat < 256 ∧
      (bitsState 32760).bb.bblen.toNat + 8 ≤ 32768) ∧
    (bitsState 32736).status.fatal = false ∧ BuilderInv (bitsState 32736).bb ∧ 32 ≤ 32 ∧
      (bitsState 32736).bb.bblen.toNat + 32 ≤ 32768 :=
  ⟨⟨_, builderInv_reset, exec_next _ _, by decide⟩, ⟨builderInv_reset, by decide, by decide, by decide, by decide⟩,
    ⟨builderInv_zeros (by decide), by decide, by decide, by decide⟩, rfl, builderInv_zeros (by decide), by decide,
    by decide⟩

theorem witness_BbappmAppendsThePayload :
    (bitsState 32759).status.fatal = false ∧ BuilderInv (bitsState 32759).bb ∧
    (8191 + (9 + 7) / 8 > 8192 ∨ (bitsState 32759).bb.bblen.toNat + 9 > 32768) ∧
    (0 + (10 + 7) / 8 > 8192 ∨ (bitsState 32759).bb.bblen.toNat + 10 > 32768) ∧
    (8190 + (9 + 7) / 8 ≤ 8192 ∧ (bitsState 32759).bb.bblen.toNat + 9 ≤ 32768) ∧
    (8192 + (0 + 7) / 8 ≤ 8192 ∧ (bitsState 32759).bb.bblen.toNat + 0 ≤ 32768) :=
  ⟨rfl, builderInv_zeros (by decide), by decide, by decide, by decide, by decide⟩

/-- Three bits `101` read from the byte `0xA0`, and the value 5. -/
theorem witness_BbappmAgreesWithBbapp :
    (bytesState 0 [0xA0]).status.fatal = false ∧ BuilderInv (bytesState 0 [0xA0]).bb ∧ 0 + (3 + 7) / 8 ≤ 8192 ∧
    (bytesState 0 [0xA0]).bb.bblen.toNat + 3 ≤ 32768 ∧ 3 ≤ 32 ∧ (5 : Word).toNat < 2 ^ 3 ∧
    ∀ k, k < 3 → (5 : Word).toNat.testBit (3 - 1 - k) = memoryBit (bytesState 0 [0xA0]) 0 k :=
  ⟨rfl, builderInv_reset, by decide, by decide, by decide, by decide, by decide⟩

theorem witness_BbtobCopiesTheContent :
    (bitsState 32761).status.fatal = false ∧ BuilderInv (bitsState 32761).bb ∧
    4097 + ((bitsState 32761).bb.bblen.toNat + 7) / 8 > 8192 ∧ 4096 + ((bitsState 32761).bb.bblen.toNat + 7) / 8 ≤ 8192 ∧
    4095 < ((bitsState 32761).bb.bblen.toNat + 7) / 8 ∧ 32760 < (bitsState 32761).bb.bblen.toNat ∧
    (bitsState 32761).bb.bblen.toNat ≤ 32767 ∧ 32767 < 8 * (((bitsState 32761).bb.bblen.toNat + 7) / 8) :=
  ⟨rfl, builderInv_zeros (by decide), by decide, by decide, by decide, by decide, by decide, by decide⟩

theorem witness_BuilderContentOnlyGrows :
    ∃ t, BuilderInv State.reset.bb ∧ exec (.bbapp 3 7) State.reset = .next t ∧ Instr.bbapp 3 7 ≠ .reset ∧
      Instr.bbapp 3 7 ≠ .bbnew :=
  ⟨_, builderInv_reset, exec_next _ _, by decide, by decide⟩

theorem witness_EveryStepKeepsTheBuilderInvariant :
    ∃ t, BuilderInv State.reset.bb ∧ step (State.reset.withFetchWord 64 0x3203000000000007) = .next t :=
  ⟨_, builderInv_reset, rfl⟩

theorem witness_EveryStepKeepsGeneratorAndMemory :
    ∃ t, GeneratorInv (generatorState 7).rs ∧ (generatorState 7).dmem.wf = true ∧
      step ((generatorState 7).withFetchWord 64 0x04EC000000000010) = .next t :=
  ⟨_, .inr ⟨7, by decide, by decide, rfl⟩, by decide, rfl⟩

theorem witness_EveryStepKeepsTheMatrixInvariant :
    ∃ t, MatrixInv (symbolState .data 8 8).mx ∧ step ((symbolState .data 8 8).withFetchWord 64 0x4300000000000007) = .next t :=
  ⟨_, witness_phases.2.1.2.1, rfl⟩

theorem witness_NoStepReachesTheFatalState :
    ∃ t, MatrixInv (symbolState .patterns 8 8).mx ∧ StatusInv (symbolState .patterns 8 8).status ∧
      step ((symbolState .patterns 8 8).withFetchWord 64 0x4200001A00000000) = .next t :=
  ⟨_, witness_phases.1.2.1, ⟨rfl, by decide, by decide⟩, rfl⟩

theorem witness_PhaseChangesOnlyAsListed :
    (∃ t, exec (.mxmask 4) (symbolState .data 8 3) = .next t ∧ (symbolState .data 8 3).status.fatal = false ∧
      partOf (.mxmask 4) = .matrix ∧ phaseLegal (.mxmask 4) (symbolState .data 8 3).mx.phase = true) ∧
    (∃ t, exec (.mxnew 1 0) State.reset = .next t ∧ t.mx.phase ≠ State.reset.mx.phase ∧ statusOf t = some 0) ∧
    (State.reset.status.fatal = false ∧ phaseLegal (.mxrd 0 0) State.reset.mx.phase = false) ∧
    ∃ t, exec (.mxrd 0 0) (symbolState .final 7 8) = .next t ∧ (symbolState .final 7 8).mx.phase = .final ∧
      Instr.mxrd 0 0 ≠ .reset ∧ ∀ v l, Instr.mxrd 0 0 ≠ .mxnew v l :=
  ⟨⟨_, exec_next _ _, rfl, rfl, rfl⟩, ⟨_, exec_next _ _, by decide, by decide⟩, ⟨rfl, by decide⟩,
    ⟨_, exec_next _ _, rfl, by decide, nofun⟩⟩

/-- The corner cell is a function cell. -/
theorem symbolState_corner (p : Phase) (mask trial : BitVec 4) : (symbolState p mask trial).mx.isfunc.cell 0 0 = true := by
  rw [symbolState, symbolIn_isfunc]
  exact (drawnSymbol_isfunc (by decide) (by decide) (by decide) 0 0).mpr ⟨true, by decide⟩

theorem witness_FunctionFlagsAreWriteOnce :
    ∃ t, exec (.mxfmt 7) (symbolState .data 8 8) = .next t ∧ Instr.mxfmt 7 ≠ .reset ∧ (∀ v l, Instr.mxfmt 7 ≠ .mxnew v l) ∧
      MatrixInv (symbolState .data 8 8).mx ∧ patternsDrawn (symbolState .data 8 8).mx.phase ∧
      (symbolState .data 8 8).mx.isfunc.cell 0 0 = true :=
  ⟨_, exec_next _ _, by decide, nofun, witness_phases.2.1.2.1, .inr (.inl rfl),
    symbolState_corner _ _ _⟩

theorem witness_MxnewStartsABlankSymbol :
    State.reset.status.fatal = false ∧ (0 < 1 ∨ 0 > 40 ∨ 0 > 3) ∧ (41 < 1 ∨ 41 > 40 ∨ 0 > 3) ∧ (1 < 1 ∨ 1 > 40 ∨ 4 > 3) ∧
    (1 ≤ 1 ∧ 1 ≤ 40 ∧ 0 ≤ 3) ∧ (1 ≤ 40 ∧ 40 ≤ 40 ∧ 3 ≤ 3) := by decide

theorem witness_MxfuncDrawsThePatterns :
    (State.reset.status.fatal = false ∧ MatrixInv State.reset.mx ∧ State.reset.mx.phase ≠ .alloc) ∧
    ({ State.reset with mx := newSymbol 7 3 } : State).status.fatal = false ∧
    MatrixInv ({ State.reset with mx := newSymbol 7 3 } : State).mx ∧
    ({ State.reset with mx := newSymbol 7 3 } : State).mx.phase = .alloc :=
  ⟨⟨rfl, matrixInv_reset, by decide⟩, rfl, matrixInv_newSymbol (by decide) (by decide) 3, rfl⟩

theorem witness_TimingAndFinderPatternsStand :
    1 ≤ 1 ∧ 1 ≤ 40 ∧ 3 ≤ 3 ∧ 8 ≤ 8 ∧ 12 + 9 ≤ 4 * 1 + 17 ∧
    ((4 * (1 : Nat) + 13 : Int), (3 : Int)) ∈ [((3 : Int), (3 : Int)), (4 * (1 : Nat) + 13, 3), (3, 4 * (1 : Nat) + 13)] ∧
    20 < 4 * 1 + 17 ∧ cheb ((20 : Nat) - (4 * (1 : Nat) + 13 : Int)) ((0 : Nat) - 3) ≤ 4 := by decide

theorem witness_AlignmentPatternsStand :
    (1 ≤ 1 ∧ 1 ≤ 40) ∧ (1 ≤ 40 ∧ 40 ≤ 40) ∧ 1 ≤ 7 ∧ 7 ≤ 40 ∧ 3 ≤ 3 ∧ 0 < (alignPos 7).length ∧ 1 < (alignPos 7).length ∧ ¬(0 = 0 ∧ 1 = 0) ∧
    ¬(0 = 0 ∧ 1 + 1 = (alignPos 7).length) ∧ ¬(0 + 1 = (alignPos 7).length ∧ 1 = 0) ∧
    cheb ((4 : Nat) - ((alignPos 7).getD 0 0 : Int)) ((24 : Nat) - ((alignPos 7).getD 1 0 : Int)) ≤ 2 := by decide

theorem witness_FormatAndVersionCellsStand :
    1 ≤ 7 ∧ 7 ≤ 40 ∧ 3 ≤ 3 ∧ 14 < 15 ∧ 7 ≤ 7 ∧ 17 < 18 ∧
    (formatFirstCopy.getD 14 (0, 0)) ∈ [formatFirstCopy.getD 14 (0, 0), (formatSecondCopy 45).getD 14 (0, 0)] := by decide

theorem witness_FormatAndVersionWordsAreCodewords : 3 ≤ 3 ∧ 7 ≤ 7 ∧ 7 ≤ 40 ∧ 40 ≤ 40 := by decide

theorem witness_FreeCellCountOfEveryVersion : 1 ≤ 1 ∧ 1 ≤ 40 ∧ 40 ≤ 40 ∧ 3 ≤ 3 := by decide

theorem witness_MxfmtDrawsTheFormatWord :
    MatrixInv (symbolState .final 7 8).mx ∧ (symbolState .final 7 8).mx.phase ≠ .data ∧
    (symbolState .data 8 8).status.fatal = false ∧ MatrixInv (symbolState .data 8 8).mx ∧
    (symbolState .data 8 8).mx.phase = .data ∧ 8 > 7 ∧ 7 ≤ 7 ∧ 14 < 15 :=
  ⟨witness_phases.2.2.2.2.1, by decide, rfl, witness_phases.2.1.2.1, rfl, by decide, by decide, by decide⟩

theorem witness_ScanColumnsAndDirections : 1 ≤ 1 ∧ 40 ≤ 40 ∧ 9 < 2 * 1 + 8 ∧ 20 < 4 * 1 + 17 := by decide

theorem witness_ScanVisitsEachFreeCellOnce :
    ∃ mx s t, MatrixInv mx ∧ patternsDrawn mx.phase ∧ s.mx = mx ∧ s.status.fatal = false ∧
      exec (.mxcw 0 26) s = .next t :=
  ⟨_, symbolState .patterns 8 8, _, witness_phases.1.2.1, .inl rfl, rfl, rfl, exec_next _ _⟩

/-- Each refusal of MXCW and its success, the count taken from the state. -/
theorem witness_MxcwPlacesTheCodewordBits :
    (MatrixInv (symbolState .data 8 8).mx ∧ (symbolState .data 8 8).mx.phase ≠ .patterns) ∧
    (symbolState .patterns 8 8).status.fatal = false ∧ MatrixInv (symbolState .patterns 8 8).mx ∧
    (symbolState .patterns 8 8).mx.phase = .patterns ∧
    nfree (symbolState .patterns 8 8).mx / 8 + 1 ≠ nfree (symbolState .patterns 8 8).mx / 8 ∧
    8193 + nfree (symbolState .patterns 8 8).mx / 8 > 8192 ∧ 0 + nfree (symbolState .patterns 8 8).mx / 8 ≤ 8192 := by
  have hn : nfree (symbolState .patterns 8 8).mx ≤ 441 := by
    refine Nat.le_trans List.countP_le_length ?_
    decide +kernel
  exact ⟨⟨witness_phases.2.1.2.1, by decide⟩, rfl, witness_phases.1.2.1, rfl, by omega, by omega, by omega⟩

theorem witness_ApplyMaskIsAnInvolutionOnFreeCells : (newSymbol 40 0).size.toNat ≤ 177 := by decide

theorem witness_MxmaskTogglesTheTrialMask :
    (0 ≤ 7 ∧ 7 ≤ 7 ∧ 0 ≤ 5 ∧ 5 ≤ 5) ∧
    (MatrixInv (symbolState .final 7 8).mx ∧ (symbolState .final 7 8).mx.phase ≠ .data) ∧
    (symbolState .data 8 3).status.fatal = false ∧ MatrixInv (symbolState .data 8 3).mx ∧
    (symbolState .data 8 3).mx.phase = .data ∧ 8 > 7 ∧
    ((symbolState .data 8 3).mx.trial.toNat ≠ 8 ∧ (symbolState .data 8 3).mx.trial.toNat ≠ 4) ∧
    ((symbolState .data 8 3).mx.trial.toNat = 8 ∨ (symbolState .data 8 3).mx.trial.toNat = 3) ∧
    ((symbolState .data 8 8).mx.trial.toNat = 8 ∨ (symbolState .data 8 8).mx.trial.toNat = 7) :=
  ⟨by decide, ⟨witness_phases.2.2.2.2.1, by decide⟩, rfl, witness_phases.2.2.1.2.1, rfl, by decide, by decide, by decide, by decide⟩

theorem witness_MxpenScoresTheGrid :
    177 ≤ 177 ∧ (State.reset.mx.phase ≠ .data ∧ State.reset.mx.phase ≠ .final ∧ MatrixInv State.reset.mx) ∧
    (symbolState .final 7 8).status.fatal = false ∧ MatrixInv (symbolState .final 7 8).mx ∧
    ((symbolState .final 7 8).mx.phase = .data ∨ (symbolState .final 7 8).mx.phase = .final) :=
  ⟨by decide, ⟨by decide, by decide, matrixInv_reset⟩, rfl, witness_phases.2.2.2.2.1, .inr rfl⟩

/-- The premise of the last clause: a light grid's step is 9, so there are lower ones. -/
theorem witness_RunsWindowsAndBalanceOfThePenalty : penaltyN4 Grid.blank 7 = 10 * 9 ∧ 8 < 9 := by decide +kernel

theorem witness_MxselForcedFinishesTheSymbol :
    ((symbolState .data 8 3).mx.phase ≠ .data ∨ (symbolState .data 8 3).mx.trial.toNat ≠ 8) ∧
    MatrixInv (symbolState .data 8 3).mx ∧ (symbolState .data 8 8).status.fatal = false ∧
    MatrixInv (symbolState .data 8 8).mx ∧ (symbolState .data 8 8).mx.phase = .data ∧
    (symbolState .data 8 8).mx.trial.toNat = 8 ∧ 8 > 7 ∧ 7 ≤ 7 ∧ inGrid (symbolState .data 8 8).mx 20 20 :=
  ⟨by decide, witness_phases.2.2.1.2.1, rfl, witness_phases.2.1.2.1, rfl, by decide, by decide, by decide, by decide⟩

theorem witness_MxselAutoPicksTheLowestScore :
    (symbolState .data 8 8).status.fatal = false ∧ (symbolState .data 8 8).mx.phase = .data ∧
    (symbolState .data 8 8).mx.trial.toNat = 8 ∧ 7 ≤ 7 := by decide

theorem witness_HandLoopGivesTheTrialScores :
    (symbolState .data 8 8).status.fatal = false ∧ MatrixInv (symbolState .data 8 8).mx ∧
    (symbolState .data 8 8).mx.phase = .data ∧ (symbolState .data 8 8).mx.trial.toNat = 8 ∧ 7 ≤ 7 :=
  ⟨rfl, witness_phases.2.1.2.1, rfl, by decide, by decide⟩

/-- The case that stays in DATA (MXMASK) and the case that ends in FINAL (MXSEL). -/
theorem witness_MaskingTouchesFreeCellsOnce :
    MatrixInv (symbolState .data 8 8).mx ∧ (symbolState .data 8 8).mx.phase = .data ∧
    (∃ t, exec (.mxmask 7) (symbolState .data 8 8) = .next t ∧ t.mx.phase = .data) ∧
    (∃ t, exec (.mxsel (.forced 7)) (symbolState .data 8 8) = .next t ∧ t.mx.phase = .final) ∧
    (Instr.mxmask 7 ≠ .reset ∧ ∀ v l, Instr.mxmask 7 ≠ .mxnew v l) ∧
    (Instr.mxsel (.forced 7) ≠ .reset ∧ ∀ v l, Instr.mxsel (.forced 7) ≠ .mxnew v l) :=
  ⟨witness_phases.2.1.2.1, rfl, ⟨_, exec_next _ _, by decide +kernel⟩, ⟨_, exec_next _ _, by decide +kernel⟩,
    ⟨by decide, nofun⟩, by decide, nofun⟩

theorem witness_ReadOutOfTheGrids :
    (symbolState .final 7 8).status.fatal = false ∧ (symbolState .data 8 8).mx.phase ≠ .final ∧
    State.reset.mx.phase = .idle ∧ (symbolState .final 7 8).mx.phase = .final ∧ inGrid (symbolState .final 7 8).mx 20 0 ∧
    ((-1 : Int) < 0 ∨ (0 : Int) < 0) ∧ ((symbolState .final 7 8).mx.size.toNat : Int) ≤ 21 := by decide

theorem witness_UnitsWriteTheirOwnState :
    ∃ t, exec (.rsrem 0 3 16) (generatorState 2) = .next t ∧ Instr.rsrem 0 3 16 ≠ .reset ∧
      partOf (.rsrem 0 3 16) ≠ .builder ∧ (∀ v, Instr.rsrem 0 3 16 ≠ .stb 18 v) ∧ (∀ d, Instr.rsrem 0 3 16 ≠ .bbtob d) ∧
      (18 < 16 ∨ 16 + (generatorState 2).rs.rsdeg.toNat ≤ 18) :=
  ⟨_, exec_next _ _, by decide, by decide, nofun, nofun, by decide⟩

/-- Pairs of states that meet the premises of each part and differ elsewhere: for GFMUL and MXPEEK in a byte of `DMEM`. -/
theorem witness_UnitsReadTheirOwnState :
    (∃ s' t', exec (.gfmul 3 7) (bytesState 0 [1]) = .next s' ∧ exec (.gfmul 3 7) (bytesState 0 [2]) = .next t' ∧
      (bytesState 0 [1]).status.fatal = (bytesState 0 [2]).status.fatal ∧ partOf (.gfmul 3 7) = .field ∧
      readByte (bytesState 0 [1]) 0 ≠ readByte (bytesState 0 [2]) 0) ∧
    (∃ s' t', exec (.mxpeek 0 0) (bytesState 0 [1]) = .next s' ∧ exec (.mxpeek 0 0) (bytesState 0 [2]) = .next t' ∧
      (bytesState 0 [1]).status.fatal = (bytesState 0 [2]).status.fatal ∧
      partOf (.mxpeek 0 0) = .matrix ∧ (bytesState 0 [1]).mx = (bytesState 0 [2]).mx ∧
      ∀ src count, Instr.mxpeek 0 0 ≠ .mxcw src count) ∧
    (∃ s' t', exec (.mxcw 0 26) (generatorState 7) = .next s' ∧ exec (.mxcw 0 26) State.reset = .next t' ∧
      (generatorState 7).status.fatal = State.reset.status.fatal ∧
      (∀ a, readByte (generatorState 7) a = readByte State.reset a) ∧ partOf (.mxcw 0 26) = .matrix ∧
      (generatorState 7).mx = State.reset.mx) ∧
    (∃ s' t', exec .bblen (generatorState 7) = .next s' ∧ exec .bblen State.reset = .next t' ∧
      (generatorState 7).status.fatal = State.reset.status.fatal ∧
      (∀ a, readByte (generatorState 7) a = readByte State.reset a) ∧ partOf .bblen = .builder ∧
      (generatorState 7).bb = State.reset.bb) ∧
    (∃ s' t', exec (.rsrem 0 3 16) (generatorState 7) = .next s' ∧
      exec (.rsrem 0 3 16) { generatorState 7 with status := ⟨1, true, false⟩ } = .next t' ∧
      (generatorState 7).status.fatal = { generatorState 7 with status := ⟨1, true, false⟩ }.status.fatal ∧
      (∀ a, readByte (generatorState 7) a = readByte { generatorState 7 with status := ⟨1, true, false⟩ } a) ∧
      partOf (.rsrem 0 3 16) = .reedSolomon ∧
      (generatorState 7).rs = { generatorState 7 with status := ⟨1, true, false⟩ }.rs) :=
  ⟨⟨_, _, exec_next _ _, exec_next _ _, rfl, rfl, by decide⟩,
    ⟨_, _, exec_next _ _, exec_next _ _, rfl, rfl, rfl, nofun⟩,
    ⟨_, _, exec_next _ _, exec_next _ _, rfl, fun _ => rfl, rfl, rfl⟩,
    ⟨_, _, exec_next _ _, exec_next _ _, rfl, fun _ => rfl, rfl, rfl⟩,
    ⟨_, _, exec_next _ _, exec_next _ _, rfl, fun _ => rfl, rfl, rfl⟩⟩

theorem witness_VersionSearchAndBoost : 0 ≤ 3 ∧ boost [] 1 0 < 4 ∧ 1 ≤ 1 ∧ 1 ≤ 40 := by decide

end Sys2Proof.Tests
end

section
/-! SUPPORT. Which answers a command can give, said once, and what the status fields and the control registers make of it. -/

namespace Sys2Proof.Proofs

open Sys2Proof.Machine Sys2Proof.Safety Sys2Proof.Laws

/-- An answer of the ordinary kind (R343): a success that leaves `STATUS`, or a refusal with code 1, 5 or 6. -/
inductive Ordinary (s : State) : State → Prop where
  | answered (v : Word) (u : State) (h : u.status = s.status) : Ordinary s (answered v u)
  | refused (c : Byte) (h : c ∈ [(1 : Byte), 5, 6]) : Ordinary s (refusedWith c s)

/-- A test keeps the answer ordinary if both its branches are. -/
theorem Ordinary.ite {s a b : State} {p : Prop} [Decidable p] (ha : Ordinary s a) (hb : Ordinary s b) :
    Ordinary s (if p then a else b) := by
  split
  · exact ha
  · exact hb

/-- RDCR answers in the ordinary way in every state, the fatal one among them (R122). -/
theorem ordinary_rdcr (s : State) (n : Nat) : ∃ t, exec (.rdcr n) s = .next t ∧ Ordinary s t :=
  ⟨_, exec_rdcr n, .ite (.refused 1 (by decide)) (.answered _ _ rfl)⟩

/-- Outside the fatal state every command but RESET and MXCW answers in the ordinary way. -/
theorem exec_ordinary {s : State} (hf : s.status.fatal = false) {i : Instr} (hr : i ≠ .reset)
    (hc : ∀ src n, i ≠ .mxcw src n) : ∃ t, exec i s = .next t ∧ Ordinary s t := by
  cases i with
  | reset => exact absurd rfl hr
  | rdcr n => exact ordinary_rdcr s n
  | ldb a => exact ⟨_, exec_ldb hf a, .ite (.refused 6 (by decide)) (.answered _ _ rfl)⟩
  | stb a v => exact ⟨_, exec_stb hf a v, .ite (.refused 6 (by decide)) (.answered _ _ rfl)⟩
  | gfmul x y => exact ⟨_, exec_gfmul hf x y, .ite (.refused 1 (by decide)) (.answered _ _ rfl)⟩
  | rsinit d => exact ⟨_, exec_rsinit hf d, .ite (.refused 1 (by decide)) (.answered _ _ rfl)⟩
  | rsrdc k =>
    exact ⟨_, exec_rsrdc hf k, .ite (.refused 5 (by decide)) (.ite (.refused 1 (by decide)) (.answered _ _ rfl))⟩
  | rsrem src len dst =>
    exact ⟨_, exec_rsrem hf src len dst, .ite (.refused 5 (by decide)) (.ite (.refused 6 (by decide))
      (.ite (.refused 6 (by decide)) (.answered _ _ (writeRange_status _ _ _))))⟩
  | bbnew => exact ⟨_, exec_bbnew hf, .answered _ _ rfl⟩
  | bblen => exact ⟨_, exec_bblen hf, .answered _ _ rfl⟩
  | bbapp w v =>
    exact ⟨_, exec_bbapp hf w v, .ite (.refused 1 (by decide)) (.ite (.refused 6 (by decide)) (.answered _ _ rfl))⟩
  | bbappm src n =>
    exact ⟨_, exec_bbappm hf src n, .ite (.refused 6 (by decide)) (.ite (.refused 6 (by decide)) (.answered _ _ rfl))⟩
  | bbtob dst =>
    exact ⟨_, exec_bbtob hf dst, .ite (.refused 6 (by decide)) (.answered _ _ (writeRange_status _ _ _))⟩
  | mxnew v l =>
    exact ⟨_, exec_mxnew hf v l, .ite (.refused 1 (by decide)) (.ite (.refused 1 (by decide)) (.answered _ _ rfl))⟩
  | mxfunc => exact ⟨_, exec_mxfunc hf, .ite (.refused 5 (by decide)) (.answered _ _ rfl)⟩
  | mxcw src n => exact absurd rfl (hc src n)
  | mxfmt m =>
    exact ⟨_, exec_mxfmt hf m, .ite (.refused 5 (by decide)) (.ite (.refused 1 (by decide)) (.answered _ _ rfl))⟩
  | mxmask m =>
    exact ⟨_, exec_mxmask hf m, .ite (.refused 5 (by decide)) (.ite (.refused 1 (by decide))
      (.ite (.refused 5 (by decide)) (.answered _ _ rfl)))⟩
  | mxpen => exact ⟨_, exec_mxpen hf, .ite (.refused 5 (by decide)) (.answered _ _ rfl)⟩
  | mxsel req =>
    exact ⟨_, exec_mxsel hf req, .ite (.refused 5 (by decide)) (.ite (.refused 1 (by decide)) (.answered _ _ rfl))⟩
  | mxrd x y => exact ⟨_, exec_mxrd hf x y, .ite (.refused 5 (by decide)) (.answered _ _ rfl)⟩
  | mxpeek x y => exact ⟨_, exec_mxpeek hf x y, .ite (.refused 5 (by decide)) (.answered _ _ rfl)⟩

/-- The end of MXCW (R220): the answer with phase DATA, or the internal fault with the bits placed so far in the grid. -/
theorem finishCodewords_cases (placed : Grid × Nat) (n : Nat) (s : State) :
    (placed.2 = 8 * n ∧ finishCodewords placed n s =
      answered (BitVec.ofNat 32 placed.2) { s with mx := { s.mx with modules := placed.1, phase := .data } }) ∨
    (placed.2 ≠ 8 * n ∧ finishCodewords placed n s =
      refusedWith 3 { s with mx := { s.mx with modules := placed.1 } }) := by
  unfold finishCodewords
  split
  · next h => exact .inr ⟨h, by rw [refuse_eq]; rfl⟩
  · next h => exact .inl ⟨by simpa using h, by rw [respond_eq]⟩

/-- Outside the fatal state MXCW answers in the ordinary way or comes to its last test (R220). -/
theorem exec_mxcw_cases {s t : State} (hf : s.status.fatal = false) {src n : Nat} (h : exec (.mxcw src n) s = .next t) :
    Ordinary s t ∨ s.mx.phase = .patterns ∧ n = nfree s.mx / 8 ∧
      t = finishCodewords (placeBits s.mx (codewordBit s src) (8 * n)) n s := by
  rw [exec_mxcw hf] at h
  cases h
  repeat' split
  · exact .inl (.refused 5 (by decide))
  · exact .inl (.refused 1 (by decide))
  · exact .inl (.refused 6 (by decide))
  · next hp hn _ => exact .inr ⟨by simpa using hp, by simpa using hn, rfl⟩

/-- Everything a command can answer (R343, R344). -/
theorem exec_answer_cases {i : Instr} {s t : State} (h : exec i s = .next t) :
    (i = .reset ∧ t = answered 0 (resetBlock s)) ∨ Ordinary s t ∨ (s.status.fatal = true ∧ t = refusedWith 3 s) ∨
    ∃ src n, i = .mxcw src n ∧ s.status.fatal = false ∧ s.mx.phase = .patterns ∧ n = nfree s.mx / 8 ∧
      t = finishCodewords (placeBits s.mx (codewordBit s src) (8 * n)) n s := by
  have ordinary {i : Instr} (h : exec i s = .next t) (ho : ∃ u, exec i s = .next u ∧ Ordinary s u) : Ordinary s t := by
    obtain ⟨u, hu, ho⟩ := ho
    rw [h] at hu
    cases hu
    exact ho
  by_cases hr : i = .reset
  · subst hr
    cases h
    exact .inl ⟨rfl, rfl⟩
  · by_cases hn : ∃ n, i = .rdcr n
    · obtain ⟨n, rfl⟩ := hn
      exact .inr (.inl (ordinary h (ordinary_rdcr s n)))
    · cases hf : s.status.fatal with
      | true =>
        rw [exec_fatal hf i hr (fun n e => hn ⟨n, e⟩)] at h
        cases h
        exact .inr (.inr (.inl ⟨rfl, rfl⟩))
      | false =>
        by_cases hc : ∃ src n, i = .mxcw src n
        · obtain ⟨src, n, rfl⟩ := hc
          rcases exec_mxcw_cases hf h with ho | ⟨hp, hn, ht⟩
          · exact .inr (.inl ho)
          · exact .inr (.inr (.inr ⟨src, n, rfl, rfl, hp, hn, ht⟩))
        · exact .inr (.inl (ordinary h (exec_ordinary hf hr (fun src n e => hc ⟨src, n, e⟩))))

/-- What a command but RESET can do to `STATUS`: nothing, or take the code of a refusal (R343). -/
theorem exec_status_cases {i : Instr} {s t : State} (h : exec i s = .next t) (hr : i ≠ .reset) :
    t.status = s.status ∨ ∃ c ∈ [(1 : Byte), 3, 5, 6], t.status = ⟨c, true, s.status.fatal || decide (c = 3)⟩ := by
  rcases exec_answer_cases h with ⟨rfl, -⟩ | ho | ⟨-, rfl⟩ | ⟨src, n, -, -, -, -, rfl⟩
  · exact absurd rfl hr
  · cases ho with
    | answered v u hu => exact .inl hu
    | refused c hc => exact .inr ⟨c, by simp only [List.mem_cons] at hc ⊢; tauto, rfl⟩
  · exact .inr ⟨3, by decide, rfl⟩
  · rcases finishCodewords_cases (placeBits s.mx (codewordBit s src) (8 * n)) n s with ⟨-, h⟩ | ⟨-, h⟩
    · exact .inl (by rw [h]; rfl)
    · exact .inr ⟨3, by decide, by rw [h]; rfl⟩

/-! ### Reset -/

/-- The values of R50, for any state whose five groups are at reset. -/
theorem resetValues_of_groups {s : State} (hbb : s.bb = Builder.reset) (hrs : s.rs = RsGen.reset)
    (hmx : s.mx = Matrix.reset) (hdmem : s.dmem = []) (hst : s.status = ⟨0, false, false⟩) : ResetValues s := by
  constructor
  case bitbuf => intro i hi; rw [hbb, Builder.reset, readAt_replicate, if_pos hi]
  case div => intro j hj; rw [hrs, RsGen.reset, readAt_replicate, if_pos hj]
  case modules => intro x y _ _; rw [hmx]; exact cell_blank x y
  case isfunc => intro x y _ _; rw [hmx]; exact cell_blank x y
  case dmem => intro a; rw [hdmem]; rfl
  case bblen => rw [hbb]; rfl
  case rsdeg => rw [hrs]; rfl
  case lasterr | err | fatal => rw [hst]
  all_goals rw [hmx]; rfl

/-- Settles O7: RESET, the reset input and the reset state have the same five groups; every other command leaves `STATUS` or
takes a non-zero code. -/
theorem resetGivesEveryElementItsValue : Obligations.ResetGivesEveryElementItsValue := by
  refine ⟨resetValues_of_groups rfl rfl rfl rfl rfl,
    fun s => ⟨_, exec_reset, resetValues_of_groups rfl rfl rfl rfl rfl, rfl⟩,
    fun s => resetValues_of_groups rfl rfl rfl rfl rfl, fun i s t h hr => ?_⟩
  rcases exec_status_cases h hr with hs | ⟨c, hc, hs⟩
  · rw [hs]
    exact ⟨id, id, id⟩
  · have hc0 : c ≠ 0 := by rintro rfl; simp at hc
    rw [hs]
    exact ⟨fun _ => rfl, fun hf => by simp [hf], fun _ => hc0⟩

/-! ### Control registers -/

/-- A field placed above a value that lies below it adds its weight (R36). -/
theorem toNat_or_shiftLeft {x y : Word} {a b k : Nat} (hx : x.toNat = a) (hy : y.toNat = b) (ha : a < 2 ^ k)
    (hb : 2 ^ k * b < 2 ^ 32) : (x ||| y <<< k).toNat = a + 2 ^ k * b := by
  subst hx hy
  rw [BitVec.toNat_or, BitVec.toNat_shiftLeft, Nat.shiftLeft_eq, Nat.mul_comm, Nat.mod_eq_of_lt hb, Nat.or_comm,
    ← Nat.two_pow_add_eq_or_of_lt ha, Nat.add_comm]

theorem toNat_ofNat_bit01 (b : Bool) : (BitVec.ofNat 32 (bit01 b)).toNat = b.toNat := by
  cases b <;> rfl

theorem toNat_ofNat_phase_code (p : Phase) : (BitVec.ofNat 32 p.code).toNat = p.code := by
  cases p <;> rfl

theorem phase_code_le (p : Phase) : p.code ≤ 4 := by
  cases p <;> decide

/-- CR1 as a number (R37). -/
theorem statusWord_toNat (st : Status) :
    (statusWord st).toNat = st.lasterr.toNat + 2 ^ 8 * st.err.toNat + 2 ^ 9 * st.fatal.toNat := by
  have hl := st.lasterr.isLt
  have he := st.err.toNat_le
  have hf := st.fatal.toNat_le
  exact toNat_or_shiftLeft
    (toNat_or_shiftLeft (BitVec.toNat_setWidth_of_le (by decide)) (toNat_ofNat_bit01 _) hl (by omega))
    (toNat_ofNat_bit01 _) (by omega) (by omega)

/-- CR4 as a number (R37). -/
theorem configWord_toNat (mx : Matrix) :
    (configWord mx).toNat = mx.version.toNat + 2 ^ 6 * mx.ecl.toNat + 2 ^ 8 * mx.size.toNat + 2 ^ 16 * mx.mask.toNat +
      2 ^ 20 * mx.trial.toNat + 2 ^ 24 * mx.phase.code := by
  have hv := mx.version.isLt
  have he := mx.ecl.isLt
  have hs := mx.size.isLt
  have hm := mx.mask.isLt
  have ht := mx.trial.isLt
  have hp := phase_code_le mx.phase
  have wide {n : Nat} (b : BitVec n) (hn : n ≤ 32) : (b.setWidth 32).toNat = b.toNat := BitVec.toNat_setWidth_of_le hn
  have h1 := toNat_or_shiftLeft (wide mx.version (by decide)) (wide mx.ecl (by decide)) hv (by omega)
  have h2 := toNat_or_shiftLeft h1 (wide mx.size (by decide)) (k := 8) (by omega) (by omega)
  have h3 := toNat_or_shiftLeft h2 (wide mx.mask (by decide)) (k := 16) (by omega) (by omega)
  have h4 := toNat_or_shiftLeft h3 (wide mx.trial (by decide)) (k := 20) (by omega) (by omega)
  exact toNat_or_shiftLeft h4 (toNat_ofNat_phase_code mx.phase) (k := 24) (by omega) (by omega)

/-- What a control register reads as, as the sum of its fields at their weights (R36, R37). -/
theorem controlRegister_toNat (s : State) (n : Nat) : (controlRegister s n).toNat = registerNumber s n := by
  match n with
  | 0 => rfl
  | 1 => exact statusWord_toNat s.status
  | 2 => exact BitVec.toNat_setWidth_of_le (by decide)
  | 3 => exact BitVec.toNat_setWidth_of_le (by decide)
  | 4 => exact configWord_toNat s.mx
  | 5 | 6 | 7 | 8 | 9 => rfl
  | _ + 10 => rfl

/-- Settles O14: a register is a 32-bit word, and its number is the sum of its fields. -/
theorem controlRegistersReadTheState : Obligations.ControlRegistersReadTheState := by
  refine ⟨fun s n => ⟨fun hn => ⟨?_, ?_⟩, fun hn => ?_⟩, by decide⟩
  · rw [exec_rdcr, if_neg (by omega), ← controlRegister_toNat, BitVec.ofNat_toNat, BitVec.setWidth_eq]
  · rw [← controlRegister_toNat]
    exact (controlRegister s n).isLt
  · rw [exec_rdcr, if_pos (by omega)]

end Sys2Proof.Proofs
end

section
/-! SUPPORT. The builder, the generator and `DMEM`: their invariants at reset and across a step. -/

namespace Sys2Proof.Proofs

open Sys2Proof.Machine Sys2Proof.Safety Sys2Proof.Laws

/-- A command keeps the builder invariant: it leaves or empties the builder, or appends what its capacity test has
admitted (R24, R145, R147). -/
theorem exec_keeps_builderInv {i : Instr} {s t : State} (hb : BuilderInv s.bb) (h : exec i s = .next t) :
    BuilderInv t.bb := by
  rcases exec_bb_cases h with ht | ⟨-, ht, -⟩ | ⟨w, v, -, -, hfit, ht, -⟩ | ⟨src, n, -, hfit, ht, -⟩
  · rw [ht]
    exact hb
  · rw [ht]
    exact builderInv_reset
  · rw [ht]
    exact (builderInv_appendBits hb (by rwa [length_msbFirst, ← appendFits_iff])).1
  · rw [ht]
    exact (builderInv_appendBits hb (by rwa [length_payloadBits, ← appendFits_iff])).1

/-- Settles O30, with `exec_keeps_builderInv` for the instructions. -/
theorem everyStepKeepsTheBuilderInvariant : Obligations.EveryStepKeepsTheBuilderInvariant := by
  intro s t hs h
  exact step_keeps (P := fun u => BuilderInv u.bb) (fun _ _ hu => hu) (fun _ => builderInv_reset) (fun _ hu => hu)
    (fun _ _ _ hu he => exec_keeps_builderInv hu he) hs h

/-- A command keeps the generator invariant: only RSINIT and RESET write the generator (R27, R28). -/
theorem exec_keeps_generatorInv {i : Instr} {s t : State} (hg : GeneratorInv s.rs) (h : exec i s = .next t) :
    GeneratorInv t.rs := by
  rcases exec_rs_cases h with ht | ⟨-, ht⟩ | ⟨d, -, h1, h255, ht⟩
  · rw [ht]
    exact hg
  · exact .inl ht
  · exact .inr ⟨d, h1, h255, ht⟩

/-- A command keeps the canonical form of `DMEM`: every range is tested before it is written (R64, log 6). -/
theorem exec_keeps_dmem_wf {i : Instr} {s t : State} (hw : s.dmem.wf = true) (h : exec i s = .next t) :
    t.dmem.wf = true := by
  rcases exec_dmem_cases h with ht | ⟨-, ht⟩ | ⟨a, v, -, ha, ht⟩ | ⟨src, len, dst, -, hfit, ht⟩ | ⟨dst, -, hfit, ht⟩
  · rw [ht]
    exact hw
  · rw [ht]
    rfl
  · rw [ht]
    exact wf_store hw ha
  · rw [ht]
    exact wf_writeRange hw (by rwa [length_remainder, length_divCoefficients])
  · rw [ht]
    exact wf_writeRange hw (by simpa [builderBytes] using hfit)

/-- Settles O31, with `exec_keeps_generatorInv` and `exec_keeps_dmem_wf` for the instructions. -/
theorem everyStepKeepsGeneratorAndMemory : Obligations.EveryStepKeepsGeneratorAndMemory := by
  refine ⟨fun s t hs h => ?_, fun s t hs h => ?_⟩
  · exact step_keeps (P := fun u => GeneratorInv u.rs) (fun _ _ hu => hu) (fun _ => .inl rfl) (fun _ hu => hu)
      (fun _ _ _ hu he => exec_keeps_generatorInv hu he) hs h
  · exact step_keeps (P := fun u => u.dmem.wf = true) (fun _ _ hu => hu) (fun _ => rfl) (fun _ hu => hu)
      (fun _ _ _ hu he => exec_keeps_dmem_wf hu he) hs h

theorem statusInv_reset : StatusInv ⟨0, false, false⟩ := ⟨rfl, by decide, by decide⟩

/-- Settles O34: each invariant's own lemma for the reset value of its group. -/
theorem invariantsHoldAtReset : Obligations.InvariantsHoldAtReset :=
  ⟨builderInv_reset, .inl rfl, matrixInv_reset, statusInv_reset, rfl⟩

end Sys2Proof.Proofs
end

section
/-! SUPPORT. The codeword scan (spec/44_matrix_patterns.md R220, R221): it passes every cell of the symbol outside column 6
exactly once, and column 6 holds function cells alone, so it passes every free cell exactly once. -/

namespace Sys2Proof.Proofs

open Sys2Proof.Machine Sys2Proof.Safety Sys2Proof.Laws

theorem scanRights_zero (fuel : Nat) : scanRights fuel 0 = [] := by
  cases fuel <;> rfl

/-- The right columns from column 6 on: 5, 3, 1 (R221). -/
theorem scanRights_six (n : Nat) : scanRights (n + 3) 6 = [5, 3, 1] := by
  simp [scanRights, scanRights_zero]

/-- The right columns from an even column `2*k + 6` on (R221). -/
theorem scanRights_even (k n : Nat) :
    scanRights (k + n + 3) (2 * k + 6) = (List.range k).map (fun j => 2 * k + 6 - 2 * j) ++ [5, 3, 1] := by
  induction k with
  | zero =>
    rw [Nat.zero_add]
    exact scanRights_six n
  | succ k ih =>
    rw [show k + 1 + n + 3 = (k + n + 3) + 1 by omega, scanRights, if_neg (by omega), if_neg (by omega),
      show 2 * (k + 1) + 6 - 2 = 2 * k + 6 by omega, ih, List.range_succ_eq_map, List.map_cons, List.map_map,
      List.cons_append]
    congr 3
    funext j
    simp only [Function.comp]
    omega

/-- The right columns of a symbol's scan (R221). -/
theorem scanRights_symbol (v : Nat) :
    scanRights (4 * v + 17) (4 * v + 17 - 1) =
      (List.range (2 * v + 5)).map (fun j => 4 * v + 16 - 2 * j) ++ [5, 3, 1] := by
  have h := scanRights_even (2 * v + 5) (2 * v + 9)
  rw [show 2 * v + 5 + (2 * v + 9) + 3 = 4 * v + 17 by omega, show 2 * (2 * v + 5) + 6 = 4 * v + 16 by omega] at h
  exact h

/-- The right columns are positive and lie at least two apart. -/
theorem scanRights_apart (v : Nat) :
    (scanRights (4 * v + 17) (4 * v + 17 - 1)).Pairwise (fun a b => b + 2 ≤ a) ∧
      ∀ r ∈ scanRights (4 * v + 17) (4 * v + 17 - 1), 1 ≤ r := by
  rw [scanRights_symbol]
  constructor
  · rw [List.pairwise_append, List.pairwise_map]
    refine ⟨List.pairwise_lt_range.imp_of_mem fun ha hb hab => ?_, by decide, fun a ha b hb => ?_⟩
    · simp only [List.mem_range] at ha hb
      omega
    · simp only [List.mem_map, List.mem_range, List.mem_cons, List.not_mem_nil, or_false] at ha hb
      obtain ⟨j, hj, rfl⟩ := ha
      omega
  · intro r hr
    simp only [List.mem_append, List.mem_map, List.mem_range, List.mem_cons, List.not_mem_nil, or_false] at hr
    omega

/-- A pair's cells: its two columns over all rows (R220). -/
theorem mem_scanPair {size right x y : Nat} : (x, y) ∈ scanPair size right ↔ (x = right ∨ x = right - 1) ∧ y < size := by
  simp only [scanPair, List.mem_flatMap, List.mem_range, List.mem_cons, List.not_mem_nil, or_false, Prod.mk.injEq]
  constructor
  · rintro ⟨vert, hv, ⟨rfl, rfl⟩ | ⟨rfl, rfl⟩⟩ <;> (split <;> omega)
  · rintro ⟨hx, hy⟩
    refine ⟨if scanUpward right then size - 1 - y else y, by split <;> omega, ?_⟩
    have hrow : y = if scanUpward right then size - 1 - (if scanUpward right then size - 1 - y else y)
        else (if scanUpward right then size - 1 - y else y) := by
      split <;> omega
    exact hx.imp (fun h => ⟨h, hrow⟩) (fun h => ⟨h, hrow⟩)

theorem nodup_scanPair {size right : Nat} (h : 1 ≤ right) : (scanPair size right).Nodup := by
  rw [scanPair, List.nodup_flatMap]
  refine ⟨fun vert _ => ?_, List.pairwise_lt_range.imp_of_mem fun {a b} ha hb hab => ?_⟩
  · simp only [List.nodup_cons, List.mem_singleton, Prod.mk.injEq, List.not_mem_nil, not_false_iff, List.nodup_nil,
      and_true]
    omega
  · simp only [List.mem_range] at ha hb
    simp only [Function.onFun, List.disjoint_left, List.mem_cons, List.not_mem_nil, or_false]
    rintro _ (rfl | rfl) <;> (simp only [Prod.mk.injEq]; split <;> omega)

/-- The scan passes the cells of the symbol outside column 6 (R221). -/
theorem mem_scanOrder {v x y : Nat} :
    (x, y) ∈ scanOrder (4 * v + 17) ↔ x < 4 * v + 17 ∧ y < 4 * v + 17 ∧ x ≠ 6 := by
  simp only [scanOrder, List.mem_flatMap, mem_scanPair, scanRights_symbol, List.mem_append, List.mem_map, List.mem_range,
    List.mem_cons, List.not_mem_nil, or_false]
  constructor
  · rintro ⟨r, ⟨j, hj, rfl⟩ | hr, hx, hy⟩ <;> omega
  · rintro ⟨hx, hy, h6⟩
    by_cases hlow : x < 6
    · exact ⟨2 * (x / 2) + 1, .inr (by omega), by omega, hy⟩
    · exact ⟨2 * ((x + 1) / 2), .inl ⟨2 * v + 8 - (x + 1) / 2, by omega, by omega⟩, by omega, hy⟩

/-- No cell is passed twice (R221). -/
theorem nodup_scanOrder (v : Nat) : (scanOrder (4 * v + 17)).Nodup := by
  obtain ⟨hapart, hpos⟩ := scanRights_apart v
  rw [scanOrder, List.nodup_flatMap]
  refine ⟨fun r hr => nodup_scanPair (hpos r hr), hapart.imp_of_mem fun {a b} ha hb hab => ?_⟩
  have hb1 := hpos b hb
  rw [Function.onFun, List.disjoint_left]
  rintro ⟨x, y⟩ hx hy
  rw [mem_scanPair] at hx hy
  omega

theorem mem_symbolCells {size x y : Nat} : (x, y) ∈ symbolCells size ↔ x < size ∧ y < size := by
  simp only [symbolCells, List.mem_flatMap, List.mem_map, List.mem_range, Prod.mk.injEq]
  constructor
  · rintro ⟨b, hb, a, ha, rfl, rfl⟩
    exact ⟨ha, hb⟩
  · rintro ⟨hx, hy⟩
    exact ⟨y, hy, x, hx, rfl, rfl⟩

theorem nodup_symbolCells (size : Nat) : (symbolCells size).Nodup := by
  rw [symbolCells, List.nodup_flatMap]
  refine ⟨fun y _ => List.nodup_range.map fun a b h => congrArg Prod.fst h,
    List.nodup_range.imp fun {a b} hab => ?_⟩
  rw [Function.onFun, List.disjoint_left]
  rintro ⟨x, y⟩ hx hy
  simp only [List.mem_map, Prod.mk.injEq] at hx hy
  obtain ⟨_, _, _, rfl⟩ := hx
  obtain ⟨_, _, _, rfl⟩ := hy
  exact hab rfl

/-- Column 6 of a drawn symbol holds function cells alone (R204). -/
theorem drawnSymbol_isfunc_column_six {v l y : Nat} (h1 : 1 ≤ v) (hv : v ≤ 40) (hl : l ≤ 3) (hy : y < 4 * v + 17) :
    (drawnSymbol v l).isfunc.cell 6 y = true := by
  rw [drawnSymbol_isfunc h1 hv hl]
  refine ⟨y % 2 == 0, ?_⟩
  have ht : (6, y, y % 2 == 0) ∈ timingCells (4 * v + 17) := by
    simp only [timingCells, List.mem_flatMap, List.mem_range]
    exact ⟨y, hy, List.mem_cons_self⟩
  simp only [functionCells, List.mem_append]
  tauto

/-! ### Symbols whose patterns are drawn -/

theorem ecl_le (mx : Matrix) : mx.ecl.toNat ≤ 3 := Nat.lt_succ_iff.mp mx.ecl.isLt

section Drawn

variable {mx : Matrix} (hi : MatrixInv mx) (hp : patternsDrawn mx.phase)
include hi hp

/-- The ranges of version and size, and the size's formula (R41). -/
theorem drawn_sizes : 1 ≤ mx.version.toNat ∧ mx.version.toNat ≤ 40 ∧ mx.size.toNat = 4 * mx.version.toNat + 17 :=
  hi.version_size (patternsDrawn_ne hp).1

theorem drawn_isfunc_column_six {y : Nat} (hy : y < mx.size.toNat) : mx.isfunc.cell 6 y = true := by
  obtain ⟨h1, hv, hs⟩ := drawn_sizes hi hp
  rw [hi.flags_drawn hp]
  exact drawnSymbol_isfunc_column_six h1 hv (ecl_le mx) (hs ▸ hy)

/-- The free cells the scan passes are the free cells of the symbol (R221, R225). -/
theorem mem_freeScan {x y : Nat} : (x, y) ∈ freeScan mx ↔ inGrid mx x y ∧ mx.isfunc.cell x y = false := by
  obtain ⟨h1, hv, hs⟩ := drawn_sizes hi hp
  rw [freeScan, List.mem_filter, hs, mem_scanOrder, Bool.not_eq_true', inGrid, hs]
  constructor
  · rintro ⟨⟨hx, hy, -⟩, hf⟩
    exact ⟨⟨hx, hy⟩, hf⟩
  · rintro ⟨⟨hx, hy⟩, hf⟩
    refine ⟨⟨hx, hy, ?_⟩, hf⟩
    rintro rfl
    rw [drawn_isfunc_column_six hi hp (hs ▸ hy)] at hf
    cases hf

/-- No free cell is passed twice (R225). -/
theorem nodup_freeScan : (freeScan mx).Nodup := by
  rw [freeScan, (drawn_sizes hi hp).2.2]
  exact (nodup_scanOrder _).filter _

/-- As many free cells are passed as there are (R225). -/
theorem length_freeScan : (freeScan mx).length = nfree mx := by
  have hperm : (freeScan mx).Perm ((symbolCells mx.size.toNat).filter (fun c => !mx.isfunc.cell c.1 c.2)) := by
    rw [List.perm_ext_iff_of_nodup (nodup_freeScan hi hp) ((nodup_symbolCells _).filter _)]
    rintro ⟨x, y⟩
    rw [mem_freeScan hi hp, List.mem_filter, mem_symbolCells, Bool.not_eq_true']
  rw [hperm.length_eq, nfree, List.countP_eq_length_filter]

end Drawn

/-! ### Placing the bits -/

/-- The number of bits placed along a list of cells: one per free cell, up to the number asked for (R220). -/
theorem placed_foldl (isfunc : Grid) (bit : Nat → Bool) (nbits : Nat) (cells : List (Nat × Nat)) (acc : Grid × Nat)
    (h : acc.2 ≤ nbits) :
    (cells.foldl (placeBit isfunc bit nbits) acc).2 =
      min nbits (acc.2 + cells.countP (fun c => !isfunc.cell c.1 c.2)) := by
  induction cells generalizing acc with
  | nil => simpa using h
  | cons c rest ih =>
    rw [List.foldl_cons, List.countP_cons]
    rcases placeBit_cases isfunc bit nbits acc c with ⟨he, hf, hlt⟩ | ⟨he, hf | hfull⟩
    · rw [he, ih (_, acc.2 + 1) hlt, hf]
      simp only [Bool.not_false, if_true]
      omega
    · rw [he, ih _ h, hf]
      simp
    · rw [he, ih _ h]
      omega

/-- The cells that placing bits along a list leaves as they are: function cells, and cells not in the list (R220). -/
theorem cell_placed_foldl (isfunc : Grid) (bit : Nat → Bool) (nbits : Nat) (cells : List (Nat × Nat)) (acc : Grid × Nat)
    {x y : Nat} (h : (x, y) ∉ cells ∨ isfunc.cell x y = true) :
    (cells.foldl (placeBit isfunc bit nbits) acc).1.cell x y = acc.1.cell x y := by
  induction cells generalizing acc with
  | nil => rfl
  | cons c rest ih =>
    rw [List.foldl_cons, ih _ (h.imp_left fun hn hm => hn (List.mem_cons_of_mem _ hm))]
    rcases placeBit_cases isfunc bit nbits acc c with ⟨he, hf, -⟩ | ⟨he, -⟩
    · rw [he, cell_put, if_neg]
      rintro ⟨rfl, rfl, -⟩
      rcases h with hn | ht
      · exact hn List.mem_cons_self
      · rw [hf] at ht
        cases ht
    · rw [he]

/-- MXCW places all its bits (R225). -/
theorem placeBits_count {mx : Matrix} (hi : MatrixInv mx) (hp : patternsDrawn mx.phase) (bit : Nat → Bool) {nbits : Nat}
    (h : nbits ≤ nfree mx) : (placeBits mx bit nbits).2 = nbits := by
  rw [placeBits, placed_foldl _ _ _ _ _ (Nat.zero_le _), List.countP_eq_length_filter]
  have hlen : ((scanOrder mx.size.toNat).filter (fun c => !mx.isfunc.cell c.1 c.2)).length = nfree mx :=
    length_freeScan hi hp
  rw [hlen]
  omega

/-- The scan leaves every function cell and every cell outside the symbol (R220). -/
theorem placeBits_cell_of_not_free {mx : Matrix} (hi : MatrixInv mx) (hp : patternsDrawn mx.phase) (bit : Nat → Bool)
    (nbits : Nat) {x y : Nat} (h : ¬inGrid mx x y ∨ mx.isfunc.cell x y = true) :
    (placeBits mx bit nbits).1.cell x y = mx.modules.cell x y := by
  refine cell_placed_foldl _ _ _ _ _ (h.imp_left fun hn hm => hn ?_)
  have hs := (drawn_sizes hi hp).2.2
  rw [hs, mem_scanOrder, ← hs] at hm
  exact ⟨hm.1, hm.2.1⟩

end Sys2Proof.Proofs
end

section
/-! SUPPORT. Drawing a format word and applying a mask to a symbol whose patterns are drawn (spec/44_matrix_patterns.md R217,
spec/45_matrix_masking.md R251): the function flags stay, and so does every function cell but the 30 format-bit cells. -/

namespace Sys2Proof.Proofs

open Sys2Proof.Machine Sys2Proof.Safety Sys2Proof.Laws

theorem mem_of_lastWrite {cells : List CellWrite} {x y : Nat} {b : Bool} (h : lastWrite cells x y = some b) :
    (x, y, b) ∈ cells := by
  simp only [lastWrite, Option.map_eq_some_iff] at h
  obtain ⟨⟨x', y', b'⟩, hf, rfl⟩ := h
  obtain ⟨rfl, rfl⟩ : x' = x ∧ y' = y := by simpa using List.find?_some hf
  simpa using List.mem_of_find?_eq_some hf

/-- A cell that a drawing does not write keeps its colour (R200). -/
theorem modules_drawCells_of_not_mem {cells : List CellWrite} {mx : Matrix} {x y : Nat} (h : ∀ b, (x, y, b) ∉ cells) :
    (drawCells mx cells).modules.cell x y = mx.modules.cell x y := by
  by_cases hxy : x < Config.maxSide ∧ y < Config.maxSide
  · rw [modules_drawCells _ _ hxy.1 hxy.2]
    cases hw : lastWrite cells x y with
    | none => rfl
    | some b => exact absurd (mem_of_lastWrite hw) (h b)
  · have hout : Config.maxSide ≤ x ∨ Config.maxSide ≤ y := by omega
    rw [cell_outside _ hout, cell_outside _ hout]

/-- A drawing clears no flag (R41 f). -/
theorem isfunc_drawCells_mono (cells : List CellWrite) {mx : Matrix} {x y : Nat} (h : mx.isfunc.cell x y = true) :
    (drawCells mx cells).isfunc.cell x y = true := by
  have hxy : x < Config.maxSide ∧ y < Config.maxSide := by
    by_contra hn
    rw [cell_outside _ (by omega)] at h
    cases h
  rw [isfunc_drawCells _ _ hxy.1 hxy.2, h, Bool.true_or]

/-- A drawing over cells whose flags are set changes no flag. -/
theorem isfunc_drawCells_of_set {cells : List CellWrite} {mx : Matrix}
    (h : ∀ c ∈ cells, mx.isfunc.cell c.1 c.2.1 = true) : (drawCells mx cells).isfunc = mx.isfunc := by
  refine grid_ext fun x y hx hy => ?_
  rw [isfunc_drawCells _ _ hx hy]
  cases ha : cells.any (fun c => c.1 == x && c.2.1 == y) with
  | false => exact Bool.or_false _
  | true =>
    obtain ⟨⟨x', y', b⟩, hc, he⟩ := List.any_eq_true.mp ha
    obtain ⟨rfl, rfl⟩ : x' = x ∧ y' = y := by simpa using he
    rw [h _ hc, Bool.true_or]

/-! ### The format cells -/

/-- Every format word is drawn in the same cells (R217). -/
theorem formatCells_position {size w : Nat} {x y : Nat} {b : Bool} (h : (x, y, b) ∈ formatCells size w) (w' : Nat) :
    ∃ b', (x, y, b') ∈ formatCells size w' := by
  have hpos (w : Nat) : (formatCells size w).map (fun c => (c.1, c.2.1)) = (formatCells size 0).map (fun c => (c.1, c.2.1)) := by
    simp [formatCells, Function.comp_def]
  have hm : (x, y) ∈ (formatCells size w').map (fun c => (c.1, c.2.1)) := by
    rw [hpos w', ← hpos w]
    exact List.mem_map.mpr ⟨_, h, rfl⟩
  obtain ⟨⟨x', y', b'⟩, hc, he⟩ := List.mem_map.mp hm
  cases he
  exact ⟨b', hc⟩

/-- The format cells are the 30 format-bit cells and the always-dark cell (R217). -/
theorem formatCells_cases {size w : Nat} (hs : 21 ≤ size) {c : CellWrite} (h : c ∈ formatCells size w) :
    (c.1, c.2.1) ∈ formatBitCells size ∨ c = (8, size - 8, true) := by
  obtain ⟨n, rfl⟩ : ∃ n, size = n + 21 := ⟨size - 21, by omega⟩
  simp only [formatCells, List.mem_append, List.mem_map, List.mem_range, List.mem_cons, List.not_mem_nil, or_false] at h
  rcases h with ((((⟨k, hk, rfl⟩ | rfl | rfl | rfl) | ⟨k, hk, rfl⟩) | ⟨k, hk, rfl⟩) | ⟨k, hk, rfl⟩) | rfl
  · exact .inl (by interval_cases k <;> simp [formatBitCells, formatFirstCopy])
  · exact .inl (by simp [formatBitCells, formatFirstCopy])
  · exact .inl (by simp [formatBitCells, formatFirstCopy])
  · exact .inl (by simp [formatBitCells, formatFirstCopy])
  · exact .inl (by interval_cases k <;> simp [formatBitCells, formatFirstCopy])
  · exact .inl (by interval_cases k <;> simp [formatBitCells, formatSecondCopy])
  · exact .inl (by interval_cases k <;> simp [formatBitCells, formatSecondCopy])
  · exact .inr rfl

/-- The always-dark cell is drawn last, and dark (R217). -/
theorem lastWrite_formatCells_dark (size w : Nat) : lastWrite (formatCells size w) 8 (size - 8) = some true := by
  rw [formatCells, lastWrite_append]
  simp [lastWrite]

/-- The always-dark cell of the drawn patterns is dark (R217). -/
theorem drawnSymbol_dark_cell {v l : Nat} (hv : v ≤ 40) (hl : l ≤ 3) :
    (drawnSymbol v l).modules.cell 8 (4 * v + 17 - 8) = true := by
  have hversion : lastWrite (versionCells (4 * v + 17) v) 8 (4 * v + 17 - 8) = none := by
    refine lastWrite_eq_none fun c hc => ?_
    rw [versionCells] at hc
    split at hc
    · cases hc
    · simp only [List.mem_flatMap, List.mem_range, List.mem_cons, List.not_mem_nil, or_false] at hc
      obtain ⟨i, hi, rfl | rfl⟩ := hc <;> (simp only; omega)
  rw [drawnSymbol_modules hv hl (by decide) (by simp only [Config.maxSide]; omega), functionCells, lastWrite_append, hversion,
    Option.none_or, lastWrite_append, lastWrite_formatCells_dark]
  rfl

/-! ### Symbols redrawn -/

/-- What every command of the phases from PATTERNS on keeps of a symbol (R41, R274): version, size, level and flags, the cells
outside the symbol, and the function cells but the 30 format-bit cells. -/
structure Redrawn (a b : Matrix) : Prop where
  version : b.version = a.version
  size : b.size = a.size
  ecl : b.ecl = a.ecl
  isfunc : b.isfunc = a.isfunc
  outside : ∀ x y, ¬inGrid a x y → b.modules.cell x y = a.modules.cell x y
  functions : ∀ x y, a.isfunc.cell x y = true → (x, y) ∉ formatBitCells a.size.toNat →
    b.modules.cell x y = a.modules.cell x y

/-- A redrawn symbol meets the invariant if its phase and masks do. -/
theorem matrixInv_of_redrawn {a b : Matrix} (hi : MatrixInv a) (hp : patternsDrawn a.phase) (hr : Redrawn a b)
    (hphase : patternsDrawn b.phase) (hmask : b.mask ≠ 8 ↔ b.phase = .final) (hmask' : b.mask.toNat ≤ 8)
    (htrial : b.trial ≠ 8 → b.phase = .data) (htrial' : b.trial.toNat ≤ 8) : MatrixInv b := by
  obtain ⟨hversion, hsize, hecl, hisfunc, houtside, hfunctions⟩ := hr
  have hna := patternsDrawn_ne hp
  have hnb := patternsDrawn_ne hphase
  constructor
  case idle_version => rw [hversion, ← hi.idle_version]; exact iff_of_false hnb.1 hna.1
  case idle_size => rw [hsize, ← hi.idle_size]; exact iff_of_false hnb.1 hna.1
  case version_size => rw [hversion, hsize]; exact fun _ => hi.version_size hna.1
  case mask_final => exact hmask
  case trial_data => exact htrial
  case mask_range => exact hmask'
  case trial_range => exact htrial'
  case alloc_blank => exact fun h => absurd h hnb.2
  case outside_zero =>
    intro x y hxy
    rw [hsize] at hxy
    rw [hisfunc, houtside x y (by omega)]
    exact hi.outside_zero x y hxy
  case flags_drawn => rw [hversion, hecl, hisfunc]; exact fun _ => hi.flags_drawn hp
  case functions_stand =>
    intro _ x y hf hn
    rw [hisfunc] at hf
    rw [hsize] at hn
    rw [hfunctions x y hf hn, hversion, hecl]
    exact hi.functions_stand hp x y hf hn

section Drawn

variable {mx : Matrix} (hi : MatrixInv mx) (hp : patternsDrawn mx.phase)
include hi hp

/-- The format cells are function cells. -/
theorem drawn_isfunc_formatCells {w : Nat} {c : CellWrite} (hc : c ∈ formatCells mx.size.toNat w) :
    mx.isfunc.cell c.1 c.2.1 = true := by
  obtain ⟨h1, hv, hs⟩ := drawn_sizes hi hp
  rw [hi.flags_drawn hp, drawnSymbol_isfunc h1 hv (ecl_le mx)]
  obtain ⟨b, hb⟩ := formatCells_position hc (formatWord mx.ecl.toNat 0)
  refine ⟨b, ?_⟩
  simp only [functionCells, List.mem_append, ← hs]
  tauto

/-- The always-dark cell is dark. -/
theorem drawn_dark_cell : mx.modules.cell 8 (mx.size.toNat - 8) = true := by
  obtain ⟨h1, hv, hs⟩ := drawn_sizes hi hp
  have hf : mx.isfunc.cell 8 (mx.size.toNat - 8) = true :=
    drawn_isfunc_formatCells hi hp (w := 0) (c := (8, mx.size.toNat - 8, true)) (by simp [formatCells])
  rw [hi.functions_stand hp _ _ hf, hs]
  · exact drawnSymbol_dark_cell hv (ecl_le mx)
  · simp only [formatBitCells, formatFirstCopy, formatSecondCopy, List.mem_append, List.mem_cons, List.not_mem_nil,
      Prod.mk.injEq, or_false]
    omega

/-- DrawFormat (R217). -/
theorem redrawn_drawFormat (m : Nat) : Redrawn mx (drawFormat mx m) := by
  have hs21 : 21 ≤ mx.size.toNat := by
    have := drawn_sizes hi hp
    omega
  constructor
  case version => exact drawCells_version _ _
  case size => exact drawCells_size _ _
  case ecl => exact drawCells_ecl _ _
  case isfunc => exact isfunc_drawCells_of_set fun c hc => drawn_isfunc_formatCells hi hp hc
  case outside =>
    intro x y hxy
    exact modules_drawCells_of_not_mem fun b hb => hxy (formatCells_inside hs21 _ _ hb)
  case functions =>
    intro x y _ hn
    by_cases hdark : x = 8 ∧ y = mx.size.toNat - 8
    · obtain ⟨rfl, rfl⟩ := hdark
      have hside : mx.size.toNat - 8 < Config.maxSide := by
        have := drawn_sizes hi hp
        simp only [Config.maxSide]
        omega
      rw [drawFormat, modules_drawCells _ _ (by decide) hside, lastWrite_formatCells_dark, drawn_dark_cell hi hp]
      rfl
    · refine modules_drawCells_of_not_mem fun b hb => ?_
      rcases formatCells_cases hs21 hb with h | h
      · exact hn h
      · cases h
        exact hdark ⟨rfl, rfl⟩

/-- ApplyMask (R251) flips free cells of the symbol alone. -/
theorem redrawn_applyMask (m : Nat) : Redrawn mx (applyMask mx m) := by
  have hs : mx.size.toNat ≤ Config.maxSide := by
    have := drawn_sizes hi hp
    simp only [Config.maxSide]
    omega
  have hkeep (x y : Nat) (h : maskFlips mx m x y = false) :
      (applyMask mx m).modules.cell x y = mx.modules.cell x y := by
    rw [modules_applyMask _ _ _ _ hs, h, Bool.xor_false]
  refine ⟨rfl, rfl, rfl, rfl, fun x y hxy => hkeep x y ?_, fun x y hf _ => hkeep x y ?_⟩
  · rw [maskFlips, ← Bool.decide_and, decide_eq_false hxy, Bool.false_and, Bool.false_and]
  · rw [maskFlips, hf, Bool.not_true, Bool.and_false, Bool.false_and]

/-- MXCW's scan (R220) writes free cells of the symbol alone. -/
theorem redrawn_placeBits (bit : Nat → Bool) (nbits : Nat) (p : Phase) :
    Redrawn mx { mx with modules := (placeBits mx bit nbits).1, phase := p } :=
  ⟨rfl, rfl, rfl, rfl, fun _ _ h => placeBits_cell_of_not_free hi hp bit nbits (.inl h),
    fun _ _ h _ => placeBits_cell_of_not_free hi hp bit nbits (.inr h)⟩

end Drawn

end Sys2Proof.Proofs
end

section
/-! SUPPORT. The invariants of the matrix state (spec/10_state.md R41) and of `STATUS` (R35, R344) across a step. -/

namespace Sys2Proof.Proofs

open Sys2Proof.Machine Sys2Proof.Safety Sys2Proof.Laws

/-! ### MXFUNC -/

/-- The patterns drawn over blank grids are those of a fresh symbol of the same version, size and level (R203). -/
theorem withPatterns_grids {mx : Matrix} (hi : MatrixInv mx) (hp : mx.phase = .alloc) :
    (withPatterns mx).modules = (drawnSymbol mx.version.toNat mx.ecl.toNat).modules ∧
      (withPatterns mx).isfunc = (drawnSymbol mx.version.toNat mx.ecl.toNat).isfunc := by
  obtain ⟨-, hv, hs⟩ := hi.version_size (by rw [hp]; decide)
  have hblank := hi.alloc_blank hp
  rw [drawnSymbol_eq hv (ecl_le mx), withPatterns_modules, withPatterns_isfunc, drawFunctionPatterns, hs]
  refine ⟨grid_ext fun x y hx hy => ?_, grid_ext fun x y hx hy => ?_⟩
  · simp only [modules_drawCells _ _ hx hy, newSymbol_modules, cell_blank, (hblank x y).1]
  · simp only [isfunc_drawCells _ _ hx hy, newSymbol_isfunc, cell_blank, (hblank x y).2]

/-- Before phase DATA no mask is chosen and none is tried (R41). -/
theorem marks_before_data {mx : Matrix} (hi : MatrixInv mx) (hf : mx.phase ≠ .final) (hd : mx.phase ≠ .data) :
    mx.mask = 8 ∧ mx.trial = 8 :=
  ⟨Decidable.not_not.mp (mt hi.mask_final.mp hf), Decidable.not_not.mp (mt hi.trial_data hd)⟩

/-- MXFUNC establishes the invariant of the drawn patterns (R203). -/
theorem matrixInv_withPatterns {mx : Matrix} (hi : MatrixInv mx) (hp : mx.phase = .alloc) : MatrixInv (withPatterns mx) := by
  obtain ⟨h1, hv, hs⟩ := hi.version_size (by rw [hp]; decide)
  obtain ⟨hmod, hisf⟩ := withPatterns_grids hi hp
  obtain ⟨hmask, htrial⟩ := marks_before_data hi (by rw [hp]; decide) (by rw [hp]; decide)
  have hmask' : (withPatterns mx).mask = 8 := by rw [withPatterns_mask, drawFunctionPatterns, drawCells_mask, hmask]
  have htrial' : (withPatterns mx).trial = 8 := by rw [withPatterns_trial, drawFunctionPatterns, drawCells_trial, htrial]
  refine matrixInv_of_drawn h1 hv (ecl_le mx) (.inl rfl) ?_ ?_ ?_ ?_ ?_ ?_ ?_ hmod hisf
  · rw [withPatterns_version, drawFunctionPatterns, drawCells_version]
  · rw [withPatterns_size, drawFunctionPatterns, drawCells_size, hs]
  · rw [withPatterns_ecl, drawFunctionPatterns, drawCells_ecl]
  · rw [hmask', withPatterns_phase]
    decide
  · rw [hmask']
    decide
  · exact fun h => absurd htrial' h
  · rw [htrial']
    decide

/-! ### The commands of phase DATA -/

/-- A symbol in phase DATA with no trial mask applied: what MXSEL's loop carries (R266). -/
def Selectable (mx : Matrix) : Prop := MatrixInv mx ∧ mx.phase = .data ∧ mx.trial = 8

/-- A command that stays in a phase and leaves `MASK` and `TRIAL` keeps the invariant. -/
theorem matrixInv_of_redrawn_same {a b : Matrix} (hi : MatrixInv a) (hp : patternsDrawn a.phase) (hr : Redrawn a b)
    (hphase : b.phase = a.phase) (hmask : b.mask = a.mask) (htrial : b.trial = a.trial) : MatrixInv b := by
  refine matrixInv_of_redrawn hi hp hr (hphase ▸ hp) ?_ ?_ ?_ ?_
  · rw [hmask, hphase]
    exact hi.mask_final
  · rw [hmask]
    exact hi.mask_range
  · rw [htrial, hphase]
    exact hi.trial_data
  · rw [htrial]
    exact hi.trial_range

theorem matrixInv_drawFormat {mx : Matrix} (hi : MatrixInv mx) (hp : patternsDrawn mx.phase) (m : Nat) :
    MatrixInv (drawFormat mx m) :=
  matrixInv_of_redrawn_same hi hp (redrawn_drawFormat hi hp m) (drawCells_phase _ _) (drawCells_mask _ _)
    (drawCells_trial _ _)

theorem matrixInv_applyMask {mx : Matrix} (hi : MatrixInv mx) (hp : patternsDrawn mx.phase) (m : Nat) :
    MatrixInv (applyMask mx m) :=
  matrixInv_of_redrawn_same hi hp (redrawn_applyMask hi hp m) rfl rfl rfl

theorem selectable_drawFormat {mx : Matrix} (h : Selectable mx) (m : Nat) : Selectable (drawFormat mx m) := by
  obtain ⟨hi, hp, ht⟩ := h
  exact ⟨matrixInv_drawFormat hi (.inr (.inl hp)) m, by rw [drawFormat, drawCells_phase, hp],
    by rw [drawFormat, drawCells_trial, ht]⟩

theorem selectable_applyMask {mx : Matrix} (h : Selectable mx) (m : Nat) : Selectable (applyMask mx m) := by
  obtain ⟨hi, hp, ht⟩ := h
  exact ⟨matrixInv_applyMask hi (.inr (.inl hp)) m, hp, ht⟩

theorem selectable_trialGrid {mx : Matrix} (h : Selectable mx) (m : Nat) : Selectable (trialGrid mx m) :=
  selectable_applyMask (selectable_drawFormat h m) m

theorem isfunc_trialGrid {mx : Matrix} (h : Selectable mx) (m : Nat) : (trialGrid mx m).isfunc = mx.isfunc := by
  obtain ⟨hi, hp, -⟩ := h
  rw [trialGrid, applyMask_isfunc]
  exact (redrawn_drawFormat hi (.inr (.inl hp)) m).isfunc

/-- MXPEN writes the penalty registers alone (R262). -/
theorem matrixInv_scored {mx : Matrix} (hi : MatrixInv mx) (hp : patternsDrawn mx.phase) : MatrixInv (scored mx) :=
  matrixInv_of_redrawn_same hi hp ⟨rfl, rfl, rfl, rfl, fun _ _ _ => rfl, fun _ _ _ _ => rfl⟩ rfl rfl rfl

/-- `TRIAL` after a toggle with a legal mask (R252). -/
theorem toggledTrial_range (trial : BitVec 4) {m : Nat} (h : m ≤ 7) : (toggledTrial trial m).toNat ≤ 8 := by
  unfold toggledTrial
  split
  · decide
  · rw [BitVec.toNat_ofNat]
    omega

/-- MXMASK (R252). -/
theorem matrixInv_toggleMask {mx : Matrix} (hi : MatrixInv mx) (hp : mx.phase = .data) {m : Nat} (hm : m ≤ 7) :
    MatrixInv (toggleMask mx m) := by
  have hd : patternsDrawn mx.phase := .inr (.inl hp)
  have hr : Redrawn mx (toggleMask mx m) := by
    obtain ⟨_, _, _, _, houtside, hfunctions⟩ := redrawn_applyMask hi hd m
    exact ⟨rfl, rfl, rfl, rfl, houtside, hfunctions⟩
  exact matrixInv_of_redrawn hi hd hr hd hi.mask_final hi.mask_range (fun _ => hp) (toggledTrial_range mx.trial hm)

/-- MXCW's scan, in the phase it leaves (R220). -/
theorem matrixInv_placeBits {mx : Matrix} (hi : MatrixInv mx) (hp : mx.phase = .patterns) (bit : Nat → Bool) (nbits : Nat)
    {p : Phase} (hp' : p = .patterns ∨ p = .data) :
    MatrixInv { mx with modules := (placeBits mx bit nbits).1, phase := p } := by
  have hd : patternsDrawn mx.phase := .inl hp
  obtain ⟨hmask, htrial⟩ := marks_before_data hi (by rw [hp]; decide) (by rw [hp]; decide)
  refine matrixInv_of_redrawn hi hd (redrawn_placeBits hi hd bit nbits p) ?_ ?_ hi.mask_range ?_ hi.trial_range
  · exact hp'.imp_right .inl
  · refine iff_of_false (fun h => h hmask) ?_
    rintro rfl
    rcases hp' with h | h <;> cases h
  · exact fun h => absurd htrial h

/-! ### MXSEL -/

/-- What MXSEL's loop keeps (R266): a symbol that can be selected, its flags, and a legal best mask. -/
structure LoopInv (flags : Grid) (sel : Selection) : Prop where
  selectable : Selectable sel.mx
  isfunc : sel.mx.isfunc = flags
  best : sel.best ≤ 7

/-- A round draws, masks and unmasks, whichever mask is best so far (R266). -/
theorem trialRound_mx (sel : Selection) (m : Nat) : (trialRound sel m).mx = applyMask (trialGrid sel.mx m) m := by
  unfold trialRound
  dsimp only
  split <;> rfl

theorem trialRound_best (sel : Selection) (m : Nat) : (trialRound sel m).best = m ∨ (trialRound sel m).best = sel.best := by
  unfold trialRound
  dsimp only
  split
  · exact .inl rfl
  · exact .inr rfl

theorem loopInv_trialRound {flags : Grid} {sel : Selection} (h : LoopInv flags sel) {m : Nat} (hm : m ≤ 7) :
    LoopInv flags (trialRound sel m) := by
  obtain ⟨hsel, hflags, hbest⟩ := h
  constructor
  case selectable =>
    rw [trialRound_mx]
    exact selectable_applyMask (selectable_trialGrid hsel m) m
  case isfunc => rw [trialRound_mx, applyMask_isfunc, isfunc_trialGrid hsel, hflags]
  case best => rcases trialRound_best sel m with h | h <;> omega

theorem loopInv_foldl {flags : Grid} {masks : List Nat} (hm : ∀ m ∈ masks, m ≤ 7) {sel : Selection}
    (h : LoopInv flags sel) : LoopInv flags (masks.foldl trialRound sel) := by
  induction masks generalizing sel with
  | nil => exact h
  | cons m rest ih =>
    exact ih (fun k hk => hm k (List.mem_cons_of_mem _ hk)) (loopInv_trialRound h (hm m List.mem_cons_self))

theorem loopInv_trialLoop {mx : Matrix} (h : Selectable mx) : LoopInv mx.isfunc (trialLoop mx) := by
  rw [trialLoop]
  exact loopInv_foldl (by decide) ⟨h, rfl, Nat.zero_le 7⟩

theorem chooseMask_auto (mx : Matrix) : chooseMask mx .auto = ((trialLoop mx).mx, (trialLoop mx).best) := rfl

/-- MXSEL's choice is a symbol that can be selected, with the flags it had, and a legal mask (R266). -/
theorem chooseMask_spec {mx : Matrix} (h : Selectable mx) {req : MaskRequest} (hreq : requestLegal req = true) :
    Selectable (chooseMask mx req).1 ∧ (chooseMask mx req).1.isfunc = mx.isfunc ∧ (chooseMask mx req).2 ≤ 7 := by
  cases req with
  | auto =>
    obtain ⟨hsel, hflags, hbest⟩ := loopInv_trialLoop h
    simp only [chooseMask_auto]
    exact ⟨hsel, hflags, hbest⟩
  | forced m => exact ⟨h, rfl, of_decide_eq_true hreq⟩

/-- The finished symbol (R266). -/
theorem matrixInv_finishSymbol {mx : Matrix} (h : Selectable mx) {k : Nat} (hk : k ≤ 7) : MatrixInv (finishSymbol mx k) := by
  obtain ⟨hi, hp, ht⟩ := selectable_trialGrid h k
  have hr : Redrawn (trialGrid mx k) (finishSymbol mx k) :=
    ⟨finishSymbol_version _ _, finishSymbol_size _ _, finishSymbol_ecl _ _, finishSymbol_isfunc _ _,
      fun _ _ _ => by rw [finishSymbol_modules], fun _ _ _ _ => by rw [finishSymbol_modules]⟩
  have hmask : (finishSymbol mx k).mask.toNat = k := by
    rw [finishSymbol_mask, BitVec.toNat_ofNat]
    omega
  have htrial : (finishSymbol mx k).trial = 8 := by rw [finishSymbol_trial, ht]
  refine matrixInv_of_redrawn hi (.inr (.inl hp)) hr (.inr (.inr rfl)) (iff_of_true (fun h8 => ?_) rfl) (by omega)
    (fun h8 => absurd htrial h8) (by rw [htrial]; decide)
  rw [h8] at hmask
  have : k = 8 := hmask.symm
  omega

/-! ### The step -/

/-- The matrix state after MXCW's last test (R220), with the invariant kept on both its outcomes. -/
theorem finishCodewords_keeps_matrixInv {s : State} (hi : MatrixInv s.mx) (hp : s.mx.phase = .patterns) (bit : Nat → Bool)
    (n : Nat) : MatrixInv (finishCodewords (placeBits s.mx bit (8 * n)) n s).mx := by
  rcases finishCodewords_cases (placeBits s.mx bit (8 * n)) n s with ⟨-, h⟩ | ⟨-, h⟩
  · rw [h]
    exact matrixInv_placeBits hi hp bit (8 * n) (.inr rfl)
  · rw [h]
    have := matrixInv_placeBits hi hp bit (8 * n) (.inl rfl)
    rw [← hp] at this
    exact this

/-- A command keeps the matrix invariant (R41, R274). -/
theorem exec_keeps_matrixInv {i : Instr} {s t : State} (hi : MatrixInv s.mx) (h : exec i s = .next t) : MatrixInv t.mx := by
  rcases exec_mx_cases h with ht | ⟨-, ht, -⟩ | ⟨v, l, -, h1, hv, -, ht, -⟩ | ⟨-, hp, ht, -⟩ | ⟨src, n, -, hp, -, -, ht⟩ |
    ⟨m, -, hp, -, ht, -⟩ | ⟨m, -, hp, hm, -, ht, -⟩ | ⟨-, hp, ht, -⟩ | ⟨req, -, hp, htr, hreq, ht⟩
  · exact ht ▸ hi
  · exact ht ▸ matrixInv_reset
  · exact ht ▸ matrixInv_newSymbol h1 hv l
  · exact ht ▸ matrixInv_withPatterns hi hp
  · exact ht ▸ finishCodewords_keeps_matrixInv hi hp _ n
  · exact ht ▸ matrixInv_drawFormat hi (.inr (.inl hp)) m
  · exact ht ▸ matrixInv_toggleMask hi hp hm
  · exact ht ▸ matrixInv_scored hi (.inr hp)
  · obtain ⟨hsel, -, hk⟩ := chooseMask_spec ⟨hi, hp, BitVec.eq_of_toNat_eq htr⟩ hreq
    exact ht ▸ matrixInv_finishSymbol hsel hk

/-- Settles O32, with `exec_keeps_matrixInv` for the instructions. -/
theorem everyStepKeepsTheMatrixInvariant : Obligations.EveryStepKeepsTheMatrixInvariant := by
  intro s t hs h
  exact step_keeps (P := fun u => MatrixInv u.mx) (fun _ _ hu => hu) (fun _ => matrixInv_reset) (fun _ hu => hu)
    (fun _ _ _ hu he => exec_keeps_matrixInv hu he) hs h

/-- A refusal with a code other than 3 keeps the status invariant (R35, R343). -/
theorem statusInv_refused {st : Status} (h : StatusInv st) {c : Byte} (hc : c ∈ [(1 : Byte), 4, 5, 6]) :
    StatusInv ⟨c, true, st.fatal || decide (c = 3)⟩ := by
  have hc' : c ≠ 0 ∧ c ≠ 3 ∧ c ∈ [(0 : Byte), 1, 4, 5, 6] := by
    simp only [List.mem_cons, List.not_mem_nil, or_false] at hc
    rcases hc with rfl | rfl | rfl | rfl <;> decide
  obtain ⟨h0, h3, hmem⟩ := hc'
  exact ⟨by rw [h.1, Bool.false_or, decide_eq_false h3], iff_of_true rfl h0, hmem⟩

/-- A command keeps the status invariant: MXCW's internal fault, the one refusal with code 3 outside the fatal state, cannot
happen, since the scan passes every free cell (R225). -/
theorem exec_keeps_statusInv {i : Instr} {s t : State} (hi : MatrixInv s.mx) (hs : StatusInv s.status)
    (h : exec i s = .next t) : StatusInv t.status := by
  rcases exec_answer_cases h with ⟨-, rfl⟩ | ho | ⟨hf, -⟩ | ⟨src, n, -, -, hp, hn, rfl⟩
  · exact statusInv_reset
  · cases ho with
    | answered v u hu => exact hu ▸ hs
    | refused c hc => exact statusInv_refused hs (by simp only [List.mem_cons] at hc ⊢; tauto)
  · rw [hs.1] at hf
    cases hf
  · have hall := placeBits_count hi (.inl hp) (codewordBit s src) (show 8 * n ≤ nfree s.mx by omega)
    rcases finishCodewords_cases (placeBits s.mx (codewordBit s src) (8 * n)) n s with ⟨-, h⟩ | ⟨hne, -⟩
    · rw [h]
      exact hs
    · exact absurd hall hne

/-- Settles O33, with `exec_keeps_statusInv` for the instructions. -/
theorem noStepReachesTheFatalState : Obligations.NoStepReachesTheFatalState := by
  intro s t hm hs h
  have hboth := step_keeps (P := fun u => MatrixInv u.mx ∧ StatusInv u.status) (fun _ _ hu => hu)
    (fun _ => ⟨matrixInv_reset, statusInv_reset⟩) (fun _ hu => ⟨hu.1, statusInv_refused hu.2 (by decide)⟩)
    (fun _ _ _ hu he => ⟨exec_keeps_matrixInv hu.1 he, exec_keeps_statusInv hu.1 hu.2 he⟩) ⟨hm, hs⟩ h
  exact hboth.2

/-! ### Function flags -/

/-- A round of MXSEL's loop clears no flag (R41 f). -/
theorem isfunc_trialGrid_mono {mx : Matrix} {x y : Nat} (m : Nat) (h : mx.isfunc.cell x y = true) :
    (trialGrid mx m).isfunc.cell x y = true := by
  rw [trialGrid, applyMask_isfunc, drawFormat]
  exact isfunc_drawCells_mono _ h

theorem isfunc_foldl_mono {masks : List Nat} {sel : Selection} {x y : Nat} (h : sel.mx.isfunc.cell x y = true) :
    (masks.foldl trialRound sel).mx.isfunc.cell x y = true := by
  induction masks generalizing sel with
  | nil => exact h
  | cons m rest ih =>
    refine ih ?_
    rw [trialRound_mx, applyMask_isfunc]
    exact isfunc_trialGrid_mono m h

theorem isfunc_chooseMask_mono {mx : Matrix} {x y : Nat} (req : MaskRequest) (h : mx.isfunc.cell x y = true) :
    (chooseMask mx req).1.isfunc.cell x y = true := by
  cases req with
  | auto =>
    simp only [chooseMask_auto, trialLoop]
    exact isfunc_foldl_mono h
  | forced m => exact h

theorem isfunc_finishCodewords (placed : Grid × Nat) (n : Nat) (s : State) :
    (finishCodewords placed n s).mx.isfunc = s.mx.isfunc := by
  rcases finishCodewords_cases placed n s with ⟨-, h⟩ | ⟨-, h⟩ <;> rw [h] <;> rfl

/-- No command but RESET and MXNEW clears a flag (R41 f). -/
theorem exec_isfunc_mono {i : Instr} {s t : State} (h : exec i s = .next t) (hr : i ≠ .reset) (hn : ∀ v l, i ≠ .mxnew v l)
    {x y : Nat} (hf : s.mx.isfunc.cell x y = true) : t.mx.isfunc.cell x y = true := by
  rcases exec_mx_cases h with ht | ⟨rfl, -⟩ | ⟨v, l, rfl, -⟩ | ⟨-, -, ht, -⟩ | ⟨src, n, -, -, -, -, ht⟩ | ⟨m, -, -, -, ht, -⟩ |
    ⟨m, -, -, -, -, ht, -⟩ | ⟨-, -, ht, -⟩ | ⟨req, -, -, -, -, ht⟩
  · rw [ht, hf]
  · exact absurd rfl hr
  · exact absurd rfl (hn v l)
  · rw [ht, withPatterns_isfunc]
    exact isfunc_drawCells_mono _ hf
  · rw [ht, isfunc_finishCodewords, hf]
  · rw [ht]
    exact isfunc_drawCells_mono _ hf
  · rw [ht, toggleMask_isfunc, hf]
  · rw [ht, scored_isfunc, hf]
  · rw [ht, answered_mx, finishSymbol_isfunc]
    exact isfunc_trialGrid_mono _ (isfunc_chooseMask_mono req hf)

/-- Once the patterns are drawn no command but RESET and MXNEW changes a flag (R41 f, R274). -/
theorem exec_keeps_isfunc {i : Instr} {s t : State} (h : exec i s = .next t) (hr : i ≠ .reset) (hn : ∀ v l, i ≠ .mxnew v l)
    (hi : MatrixInv s.mx) (hp : patternsDrawn s.mx.phase) : t.mx.isfunc = s.mx.isfunc := by
  rcases exec_mx_cases h with ht | ⟨rfl, -⟩ | ⟨v, l, rfl, -⟩ | ⟨-, ha, -⟩ | ⟨src, n, -, -, -, -, ht⟩ | ⟨m, -, -, -, ht, -⟩ |
    ⟨m, -, -, -, -, ht, -⟩ | ⟨-, -, ht, -⟩ | ⟨req, -, hd, htr, hreq, ht⟩
  · rw [ht]
  · exact absurd rfl hr
  · exact absurd rfl (hn v l)
  · exact absurd ha (patternsDrawn_ne hp).2
  · rw [ht, isfunc_finishCodewords]
  · rw [ht, (redrawn_drawFormat hi hp m).isfunc]
  · rw [ht, toggleMask_isfunc]
  · rw [ht, scored_isfunc]
  · obtain ⟨hsel, hflags, -⟩ := chooseMask_spec ⟨hi, hd, BitVec.eq_of_toNat_eq htr⟩ hreq
    rw [ht, answered_mx, finishSymbol_isfunc, isfunc_trialGrid hsel, hflags]

/-- Settles O36: `exec_isfunc_mono` in every phase, `exec_keeps_isfunc` once the patterns are drawn. -/
theorem functionFlagsAreWriteOnce : Obligations.FunctionFlagsAreWriteOnce :=
  fun _ _ _ h hr hn => ⟨fun _ _ hf => exec_isfunc_mono h hr hn hf, fun hi hp => exec_keeps_isfunc h hr hn hi hp⟩

end Sys2Proof.Proofs
end

section
/-! SUPPORT. How the phase moves (spec/10_state.md R42). -/

namespace Sys2Proof.Proofs

open Sys2Proof.Machine Sys2Proof.Safety Sys2Proof.Laws

/-- A matrix command out of its phase (R42). -/
theorem exec_out_of_phase {s : State} (hf : s.status.fatal = false) {i : Instr} (h : phaseLegal i s.mx.phase = false) :
    exec i s = .next (refusedWith 5 s) := by
  cases i with
  | mxfunc => rw [exec_mxfunc hf, if_pos (of_decide_eq_false h)]
  | mxcw src n => rw [exec_mxcw hf, if_pos (of_decide_eq_false h)]
  | mxfmt m => rw [exec_mxfmt hf, if_pos (of_decide_eq_false h)]
  | mxmask m => rw [exec_mxmask hf, if_pos (of_decide_eq_false h)]
  | mxpen => rw [exec_mxpen hf, if_pos (by simpa [phaseLegal] using h)]
  | mxsel req => rw [exec_mxsel hf, if_pos (.inl (of_decide_eq_false h))]
  | mxrd x y => rw [exec_mxrd hf, if_pos (of_decide_eq_false h)]
  | mxpeek x y => rw [exec_mxpeek hf, if_pos (by simpa [phaseLegal] using h)]
  | _ => cases h

/-- If the state is the answer of a success, its phase is `p`. -/
def Lands (p : Phase) (t : State) : Prop := statusOf t = some 0 → t.mx.phase = p

theorem Lands.refused {p : Phase} {c : Byte} (s : State) (h : c ≠ 0) : Lands p (refusedWith c s) :=
  fun h0 => absurd (Option.some.inj h0) h

theorem Lands.answered {p : Phase} (v : Word) {u : State} (h : u.mx.phase = p) : Lands p (answered v u) := fun _ => h

theorem Lands.ite {p : Phase} {a b : State} {q : Prop} [Decidable q] (ha : Lands p a) (hb : Lands p b) :
    Lands p (if q then a else b) := by
  split
  · exact ha
  · exact hb

theorem lands_finishCodewords (placed : Grid × Nat) (n : Nat) (s : State) : Lands .data (finishCodewords placed n s) := by
  rcases finishCodewords_cases placed n s with ⟨-, h⟩ | ⟨-, h⟩
  · rw [h]
    exact .answered _ rfl
  · rw [h]
    exact .refused _ (by decide)

/-- A successful matrix command leaves the phase of the table (R42). -/
theorem exec_matrix_lands {s : State} (hf : s.status.fatal = false) {i : Instr} (hm : partOf i = .matrix) :
    ∃ t, exec i s = .next t ∧ Lands (phaseAfter i s.mx.phase) t := by
  have h1 : (1 : Byte) ≠ 0 := by decide
  have h5 : (5 : Byte) ≠ 0 := by decide
  have h6 : (6 : Byte) ≠ 0 := by decide
  cases i with
  | mxnew v l => exact ⟨_, exec_mxnew hf v l, .ite (.refused s h1) (.ite (.refused s h1) (.answered _ rfl))⟩
  | mxfunc => exact ⟨_, exec_mxfunc hf, .ite (.refused s h5) (.answered _ rfl)⟩
  | mxcw src n =>
    exact ⟨_, exec_mxcw hf src n,
      .ite (.refused s h5) (.ite (.refused s h1) (.ite (.refused s h6) (lands_finishCodewords _ n s)))⟩
  | mxfmt m =>
    exact ⟨_, exec_mxfmt hf m, .ite (.refused s h5) (.ite (.refused s h1) (.answered _ (drawCells_phase _ _)))⟩
  | mxmask m =>
    exact ⟨_, exec_mxmask hf m,
      .ite (.refused s h5) (.ite (.refused s h1) (.ite (.refused s h5) (.answered _ rfl)))⟩
  | mxpen => exact ⟨_, exec_mxpen hf, .ite (.refused s h5) (.answered _ rfl)⟩
  | mxsel req =>
    exact ⟨_, exec_mxsel hf req, .ite (.refused s h5) (.ite (.refused s h1) (.answered _ (finishSymbol_phase _ _)))⟩
  | mxrd x y => exact ⟨_, exec_mxrd hf x y, .ite (.refused s h5) (.answered _ rfl)⟩
  | mxpeek x y => exact ⟨_, exec_mxpeek hf x y, .ite (.refused s h5) (.answered _ rfl)⟩
  | _ => cases hm

theorem phaseLegal_of_not_matrix {i : Instr} (hm : partOf i ≠ .matrix) (p : Phase) : phaseLegal i p = true := by
  cases i with
  | mxnew | mxfunc | mxcw | mxfmt | mxmask | mxpen | mxsel | mxrd | mxpeek => exact absurd rfl hm
  | _ => rfl

theorem phaseAfter_of_not_matrix {i : Instr} (hm : partOf i ≠ .matrix) (hr : i ≠ .reset) (p : Phase) :
    phaseAfter i p = p := by
  cases i with
  | reset => exact absurd rfl hr
  | mxnew | mxfunc | mxcw | mxfmt | mxmask | mxpen | mxsel | mxrd | mxpeek => exact absurd rfl hm
  | _ => rfl

/-- A successful command was in its phase and leaves the phase of the table (R42). -/
theorem exec_success_phase {i : Instr} {s t : State} (h : exec i s = .next t) (h0 : statusOf t = some 0) :
    phaseLegal i s.mx.phase = true ∧ t.mx.phase = phaseAfter i s.mx.phase := by
  by_cases hm : partOf i = .matrix
  · rcases exec_fatal_or h (by rintro rfl; cases hm) (by rintro n rfl; cases hm) with rfl | hf
    · cases h0
    · constructor
      · by_contra hl
        rw [exec_out_of_phase hf (Bool.eq_false_iff.mpr hl)] at h
        cases h
        cases h0
      · obtain ⟨u, hu, hlands⟩ := exec_matrix_lands hf hm
        rw [h] at hu
        cases hu
        exact hlands h0
  · refine ⟨phaseLegal_of_not_matrix hm _, ?_⟩
    by_cases hr : i = .reset
    · subst hr
      cases h
      rfl
    · rw [phaseAfter_of_not_matrix hm hr, (exec_nonmatrix_frame h hm hr).1]

/-- The five commands that can change the phase, and only by succeeding (R42). -/
theorem exec_phase_change {i : Instr} {s t : State} (h : exec i s = .next t) (hc : t.mx.phase ≠ s.mx.phase) :
    statusOf t = some 0 ∧ (i = .reset ∨ i = .mxfunc ∨ (∃ v l, i = .mxnew v l) ∨ (∃ src n, i = .mxcw src n) ∨
      ∃ r, i = .mxsel r) := by
  rcases exec_mx_cases h with ht | ⟨hi, -, h0⟩ | ⟨v, l, hi, -, -, -, -, h0⟩ | ⟨hi, -, -, h0⟩ | ⟨src, n, hi, -, -, -, ht⟩ |
    ⟨m, -, -, -, ht, -⟩ | ⟨m, -, -, -, -, ht, -⟩ | ⟨-, -, ht, -⟩ | ⟨req, hi, -, -, -, ht⟩
  · exact absurd (by rw [ht]) hc
  · exact ⟨h0, .inl hi⟩
  · exact ⟨h0, .inr (.inr (.inl ⟨v, l, hi⟩))⟩
  · exact ⟨h0, .inr (.inl hi)⟩
  · refine ⟨?_, .inr (.inr (.inr (.inl ⟨src, n, hi⟩)))⟩
    rcases finishCodewords_cases (placeBits s.mx (codewordBit s src) (8 * n)) n s with ⟨-, he⟩ | ⟨-, he⟩
    · rw [ht, he]
      rfl
    · rw [ht, he] at hc
      exact absurd rfl hc
  · exact absurd (by rw [ht, drawFormat, drawCells_phase]) hc
  · exact absurd (by rw [ht, toggleMask_phase]) hc
  · exact absurd (by rw [ht, scored_phase]) hc
  · exact ⟨by rw [ht, statusOf_answered], .inr (.inr (.inr (.inr ⟨req, hi⟩)))⟩

/-- In FINAL no command but RESET and MXNEW changes a grid (R42). -/
theorem exec_final_keeps_grids {i : Instr} {s t : State} (h : exec i s = .next t) (hp : s.mx.phase = .final)
    (hr : i ≠ .reset) (hn : ∀ v l, i ≠ .mxnew v l) : t.mx.modules = s.mx.modules ∧ t.mx.isfunc = s.mx.isfunc := by
  rcases exec_mx_cases h with ht | ⟨hi, -⟩ | ⟨v, l, hi, -⟩ | ⟨-, hp', -⟩ | ⟨_, _, -, hp', -⟩ | ⟨_, -, hp', -⟩ | ⟨_, -, hp', -⟩ |
    ⟨-, -, ht, -⟩ | ⟨_, -, hp', -⟩
  · rw [ht]
    exact ⟨rfl, rfl⟩
  · exact absurd hi hr
  · exact absurd hi (hn v l)
  · exact absurd (hp.symm.trans hp') (by decide)
  · exact absurd (hp.symm.trans hp') (by decide)
  · exact absurd (hp.symm.trans hp') (by decide)
  · exact absurd (hp.symm.trans hp') (by decide)
  · rw [ht]
    exact ⟨scored_modules _, scored_isfunc _⟩
  · exact absurd (hp.symm.trans hp') (by decide)

/-! ### SequenceError in a phase of the table -/

theorem statusOf_finishCodewords_ne_five (placed : Grid × Nat) (n : Nat) (s : State) :
    statusOf (finishCodewords placed n s) ≠ some 5 := by
  rcases finishCodewords_cases placed n s with ⟨-, h⟩ | ⟨-, h⟩ <;> rw [h] <;> simp

/-- A matrix command without a `TRIAL` condition is not refused with SequenceError in its phase (R42). -/
theorem exec_in_phase_ne_five {i : Instr} {s t : State} (h : exec i s = .next t) (hf : s.status.fatal = false)
    (hm : partOf i = .matrix) (hl : phaseLegal i s.mx.phase = true) (hsel : ∀ r, i ≠ .mxsel r) (hmask : ∀ m, i ≠ .mxmask m) :
    statusOf t ≠ some 5 := by
  cases i with
  | mxnew v l =>
    rw [exec_mxnew hf] at h
    cases h
    repeat' split
    all_goals simp
  | mxfunc =>
    rw [exec_mxfunc hf, if_neg (not_not_intro (of_decide_eq_true hl))] at h
    cases h
    simp
  | mxcw src n =>
    rw [exec_mxcw hf, if_neg (not_not_intro (of_decide_eq_true hl))] at h
    cases h
    repeat' split
    · simp
    · simp
    · exact statusOf_finishCodewords_ne_five _ n s
  | mxfmt m =>
    rw [exec_mxfmt hf, if_neg (not_not_intro (of_decide_eq_true hl))] at h
    cases h
    split <;> simp
  | mxmask m => exact absurd rfl (hmask m)
  | mxpen =>
    rw [exec_mxpen hf, if_neg (by simpa [phaseLegal, or_iff_not_imp_left] using hl)] at h
    cases h
    simp
  | mxsel r => exact absurd rfl (hsel r)
  | mxrd x y =>
    rw [exec_mxrd hf, if_neg (not_not_intro (of_decide_eq_true hl))] at h
    cases h
    simp
  | mxpeek x y =>
    rw [exec_mxpeek hf, if_neg (by simpa [phaseLegal] using hl)] at h
    cases h
    simp
  | _ => cases hm

/-- "No trial mask", as the commands test it and as the table has it. -/
theorem toNat_ne_eight_iff (trial : BitVec 4) : trial.toNat ≠ 8 ↔ trial ≠ 8 :=
  not_congr (BitVec.toNat_inj (x := trial) (y := 8))

/-- MXSEL's `TRIAL` condition (R266). -/
theorem exec_mxsel_five_iff {r : MaskRequest} {s t : State} (h : exec (.mxsel r) s = .next t) (hf : s.status.fatal = false)
    (hp : s.mx.phase = .data) : statusOf t = some 5 ↔ s.mx.trial ≠ 8 := by
  rw [exec_mxsel hf] at h
  cases h
  by_cases ht : s.mx.trial = 8
  · have hn : ¬(s.mx.phase ≠ .data ∨ s.mx.trial.toNat ≠ 8) := by simp [hp, ht]
    rw [if_neg hn]
    split <;> simp [ht]
  · rw [if_pos (.inr ((toNat_ne_eight_iff _).mpr ht))]
    exact iff_of_true rfl ht

/-- MXMASK's `TRIAL` condition, which comes after its operand test (R252). -/
theorem exec_mxmask_five_iff {m : Nat} {s t : State} (h : exec (.mxmask m) s = .next t) (hf : s.status.fatal = false)
    (hp : s.mx.phase = .data) : statusOf t = some 5 ↔ m ≤ 7 ∧ s.mx.trial ≠ 8 ∧ s.mx.trial.toNat ≠ m := by
  rw [exec_mxmask hf, if_neg (not_not_intro hp)] at h
  cases h
  by_cases hm : m ≤ 7
  · rw [if_neg (by simp [maskLegal, hm]), ← toNat_ne_eight_iff]
    split
    · next ht => exact iff_of_true rfl ⟨hm, ht⟩
    · next ht => exact iff_of_false (by simp) (fun hc => ht hc.2)
  · rw [if_pos (by simp [maskLegal, hm])]
    exact iff_of_false (by simp) (fun hc => hm hc.1)

/-- In a phase of the table SequenceError has the reason of the table's `TRIAL` conditions (R42). -/
theorem exec_in_phase_five_iff {i : Instr} {s t : State} (h : exec i s = .next t) (hf : s.status.fatal = false)
    (hm : partOf i = .matrix) (hl : phaseLegal i s.mx.phase = true) :
    statusOf t = some 5 ↔ (∃ r, i = .mxsel r ∧ s.mx.trial ≠ 8) ∨
      ∃ m, i = .mxmask m ∧ m ≤ 7 ∧ s.mx.trial ≠ 8 ∧ s.mx.trial.toNat ≠ m := by
  by_cases hsel : ∃ r, i = .mxsel r
  · obtain ⟨r, rfl⟩ := hsel
    simpa using exec_mxsel_five_iff h hf (of_decide_eq_true hl)
  · by_cases hmask : ∃ m, i = .mxmask m
    · obtain ⟨m, rfl⟩ := hmask
      simpa using exec_mxmask_five_iff h hf (of_decide_eq_true hl)
    · refine iff_of_false (exec_in_phase_ne_five h hf hm hl (fun r e => hsel ⟨r, e⟩) (fun m e => hmask ⟨m, e⟩)) ?_
      rintro (⟨r, e, -⟩ | ⟨m, e, -⟩)
      · exact hsel ⟨r, e⟩
      · exact hmask ⟨m, e⟩

/-- Settles O35, one lemma for each clause of the rule. -/
theorem phaseChangesOnlyAsListed : Obligations.PhaseChangesOnlyAsListed :=
  ⟨fun _ => rfl, fun _ _ _ h hf hm hl => exec_in_phase_five_iff h hf hm hl, fun _ _ _ h hc => exec_phase_change h hc,
    fun _ _ _ h h0 => exec_success_phase h h0, fun _ _ hf hl => exec_out_of_phase hf hl,
    fun _ _ _ h hp hr hn => exec_final_keeps_grids h hp hr hn⟩

end Sys2Proof.Proofs
end

section
/-! SUPPORT. The command a word carries (spec/30_encoding.md R86 to R89, R91), said once through the decoder, and its two inverse
directions with the encoder. -/

namespace Sys2Proof.Proofs

open Sys2Proof.Machine Sys2Proof.Safety Sys2Proof.Laws
open Sys2Proof.Laws.OpcodeByte (lt_of_fits)

/-! ### Rows of the opcode map by mnemonic -/

/-- The row of the opcode map that has the mnemonic (R89). -/
def tableRow (m : Mnemonic) : OpRow := (opTable.find? (fun r => decide (r.mnemonic = m))).getD ⟨0, m, .Z⟩

@[simp] theorem tableRow_mnemonic (m : Mnemonic) : (tableRow m).mnemonic = m := by
  cases m <;> rfl

theorem tableRow_of_mem {r : OpRow} (h : r ∈ opTable) : tableRow r.mnemonic = r :=
  have table : ∀ r ∈ opTable, tableRow r.mnemonic = r := by decide
  table r h

theorem rowOf_tableRow_op (m : Mnemonic) : rowOf (tableRow m).op = some (tableRow m) := by
  cases m <;> rfl

theorem rowOf_cases (op : Nat) :
    (∃ m, op = (tableRow m).op ∧ rowOf op = some (tableRow m)) ∨ (∀ m, op ≠ (tableRow m).op) ∧ rowOf op = none := by
  by_cases h : ∃ m, op = (tableRow m).op
  · obtain ⟨m, rfl⟩ := h
    exact .inl ⟨m, rfl, rowOf_tableRow_op m⟩
  · rw [not_exists] at h
    refine .inr ⟨h, List.find?_eq_none.mpr fun r hr => ?_⟩
    have := h r.mnemonic
    rw [tableRow_of_mem hr] at this
    simpa using Ne.symm this

theorem tableRow_op_inj {m n : Mnemonic} (h : (tableRow m).op = (tableRow n).op) : m = n := by
  have hrow := rowOf_tableRow_op m
  rw [h, rowOf_tableRow_op n, Option.some.injEq] at hrow
  simpa using congrArg OpRow.mnemonic hrow.symm

theorem tableRow_op_lt (m : Mnemonic) : (tableRow m).op < 2 ^ 8 := by
  cases m <;> decide

/-! ### Fields of a word -/

variable {w : Cmd}

theorem opOf_lt (w : Cmd) : opOf w < 2 ^ 8 := (w.extractLsb' 56 8).isLt
theorem aOf_lt (w : Cmd) : aOf w < 2 ^ 8 := (w.extractLsb' 48 8).isLt
theorem bOf_lt (w : Cmd) : bOf w < 2 ^ 16 := (w.extractLsb' 32 16).isLt
theorem immOf_lt (w : Cmd) : immOf w < 2 ^ 32 := (w.extractLsb' 0 32).isLt
theorem hiOf_lt (w : Cmd) : hiOf w < 2 ^ 16 := (w.extractLsb' 16 16).isLt
theorem loOf_lt (w : Cmd) : loOf w < 2 ^ 16 := (w.extractLsb' 0 16).isLt

/-- `imm = (hi, lo)` (R86). -/
theorem immOf_eq_packImm (w : Cmd) : immOf w = packImm (hiOf w) (loOf w) := by
  simp only [immOf, hiOf, loOf, packImm, BitVec.extractLsb'_toNat, Nat.shiftRight_eq_div_pow]
  omega

theorem packImm_inj {hi lo hi' lo' : Nat} (hlo : lo < 2 ^ 16) (hlo' : lo' < 2 ^ 16) :
    packImm hi lo = packImm hi' lo' ↔ hi = hi' ∧ lo = lo' := by
  unfold packImm
  omega

theorem hiOf_of_immOf {hi lo : Nat} (hlo : lo < 2 ^ 16) (h : immOf w = packImm hi lo) : hiOf w = hi := by
  rw [immOf_eq_packImm, packImm_inj (loOf_lt w) hlo] at h
  exact h.1

theorem loOf_of_immOf {hi lo : Nat} (hlo : lo < 2 ^ 16) (h : immOf w = packImm hi lo) : loOf w = lo := by
  rw [immOf_eq_packImm, packImm_inj (loOf_lt w) hlo] at h
  exact h.2

theorem loOf_of_immOf_lt {lo : Nat} (hlo : lo < 2 ^ 16) (h : immOf w = lo) : loOf w = lo :=
  loOf_of_immOf (hi := 0) hlo (by simpa [packImm] using h)

theorem immOf_eq_zero_iff (w : Cmd) : immOf w = 0 ↔ hiOf w = 0 ∧ loOf w = 0 := by
  rw [immOf_eq_packImm, packImm]
  omega

/-- A word is the packing of its four fields (R86). -/
theorem packWord_fields (w : Cmd) : packWord (opOf w) (aOf w) (bOf w) (immOf w) = w := by
  apply BitVec.eq_of_toNat_eq
  rw [packWord_toNat (opOf_lt w) (aOf_lt w) (bOf_lt w) (immOf_lt w)]
  simp only [opOf, aOf, bOf, immOf, BitVec.extractLsb'_toNat, Nat.shiftRight_eq_div_pow]
  have := w.isLt
  omega

/-! ### The format of a word -/

/-- The bits of `a` the format uses (R87). -/
def aBits (f : Format) : Nat := if f.usesA then 8 else 0

/-- The bits of `b` the format uses (R87). -/
def bBits (f : Format) : Nat := if f.usesB then 16 else 0

/-- The bits of `imm` the format uses (R87). -/
def immBits (f : Format) : Nat := if f.usesHi then 32 else if f.usesImm then 16 else 0

/-- Field values that a word of the format may hold: each within the bits that the format uses (R87, R91). -/
structure FitsFormat (f : Format) (a b imm : Nat) : Prop where
  a_lt : a < 2 ^ aBits f
  b_lt : b < 2 ^ bBits f
  imm_lt : imm < 2 ^ immBits f

theorem FitsFormat.widths {f : Format} {a b imm : Nat} (h : FitsFormat f a b imm) :
    a < 2 ^ 8 ∧ b < 2 ^ 16 ∧ imm < 2 ^ 32 := by
  obtain ⟨ha, hb, himm⟩ := h
  refine ⟨ha.trans_le (Nat.pow_le_pow_right (by decide) ?_), hb.trans_le (Nat.pow_le_pow_right (by decide) ?_),
    himm.trans_le (Nat.pow_le_pow_right (by decide) ?_)⟩ <;> cases f <;> decide

/-- A field within the bits that are used is zero where none is. -/
theorem lt_two_pow_used_iff {used : Bool} {k n : Nat} (h : n < 2 ^ k) :
    n < 2 ^ (if used then k else 0) ↔ ¬ (used = false ∧ n ≠ 0) := by
  cases used
  · simp
  · exact iff_of_true h (fun hz => Bool.noConfusion hz.1)

/-- `imm` within the bits that the format uses passes the two tests of R91 on it. -/
theorem immOf_lt_immBits_iff (f : Format) (w : Cmd) :
    immOf w < 2 ^ immBits f ↔ ¬ (f.usesImm = false ∧ immOf w ≠ 0) ∧ ¬ (f.usesHi = false ∧ hiOf w ≠ 0) := by
  have hlo := loOf_lt w
  have himm := immOf_lt w
  have hpack := immOf_eq_packImm w
  rw [packImm] at hpack
  have whole : immOf w < 2 ^ 16 ↔ hiOf w = 0 := by omega
  have zero : immOf w = 0 → hiOf w = 0 := by omega
  cases f <;> simpa [immBits, Format.usesImm, Format.usesHi]

/-- The fields of a word fit the format iff the word passes the must-be-zero tests of R91. -/
theorem fitsFormat_iff (f : Format) (w : Cmd) : FitsFormat f (aOf w) (bOf w) (immOf w) ↔
    ¬ (f.usesA = false ∧ aOf w ≠ 0) ∧ ¬ (f.usesB = false ∧ bOf w ≠ 0) ∧ ¬ (f.usesImm = false ∧ immOf w ≠ 0) ∧
      ¬ (f.usesHi = false ∧ hiOf w ≠ 0) := by
  rw [← immOf_lt_immBits_iff, ← lt_two_pow_used_iff (aOf_lt w), ← lt_two_pow_used_iff (bOf_lt w)]
  exact ⟨fun ⟨ha, hb, himm⟩ => ⟨ha, hb, himm⟩, fun ⟨ha, hb, himm⟩ => ⟨ha, hb, himm⟩⟩

/-- The word carries the command: its `op` is the command's and its fields fit the command's format (R89, R91). -/
def Carries (w : Cmd) (m : Mnemonic) : Prop :=
  opOf w = (tableRow m).op ∧ FitsFormat (tableRow m).format (aOf w) (bOf w) (immOf w)

theorem Carries.unique {m n : Mnemonic} (hm : Carries w m) (hn : Carries w n) : m = n :=
  tableRow_op_inj (hm.1.symm.trans hn.1)

/-! ### The decoder -/

/-- A word that carries a command decodes to that command with the word's operands (R95). -/
theorem decode_of_carries {m : Mnemonic} (h : Carries w m) : decode w = .ok (operands w m) := by
  obtain ⟨hop, hf⟩ := h
  obtain ⟨ha, hb, himm, hhi⟩ := (fitsFormat_iff _ w).mp hf
  simp only [decode, hop, rowOf_tableRow_op, tableRow_mnemonic, if_neg ha, if_neg hb, if_neg himm, if_neg hhi]

/-- A word that carries no command is rejected (R91, R95). -/
theorem decode_error_of_not_carries (h : ∀ m, ¬ Carries w m) : ∃ e, decode w = .error e := by
  rcases rowOf_cases (opOf w) with ⟨m, hop, hrow⟩ | ⟨-, hrow⟩
  · have htests := mt (fitsFormat_iff _ w).mpr fun hf => h m ⟨hop, hf⟩
    simp only [decode, hrow]
    repeat' split
    · exact ⟨_, rfl⟩
    · exact ⟨_, rfl⟩
    · exact ⟨_, rfl⟩
    · exact ⟨_, rfl⟩
    · next ha hb himm hhi => exact absurd ⟨ha, hb, himm, hhi⟩ htests
  · rw [decode, hrow]
    exact ⟨_, rfl⟩

/-- What the decoder answers, every case said once. -/
theorem decode_cases (w : Cmd) :
    (∃ m, Carries w m ∧ decode w = .ok (operands w m)) ∨ (∀ m, ¬ Carries w m) ∧ ∃ e, decode w = .error e := by
  by_cases h : ∃ m, Carries w m
  · obtain ⟨m, hm⟩ := h
    exact .inl ⟨m, hm, decode_of_carries hm⟩
  · rw [not_exists] at h
    exact .inr ⟨h, decode_error_of_not_carries h⟩

theorem decode_eq_ok_iff {i : Instr} : decode w = .ok i ↔ ∃ m, Carries w m ∧ operands w m = i := by
  constructor
  · intro h
    rcases decode_cases w with ⟨m, hm, hd⟩ | ⟨-, e, he⟩
    · exact ⟨m, hm, Except.ok.inj (hd.symm.trans h)⟩
    · cases he.symm.trans h
  · rintro ⟨m, hm, rfl⟩
    exact decode_of_carries hm

theorem decode_error_iff : (∃ e, decode w = .error e) ↔ ∀ m, ¬ Carries w m := by
  refine ⟨?_, decode_error_of_not_carries⟩
  rintro ⟨e, he⟩ m hm
  cases he.symm.trans (decode_of_carries hm)

@[simp] theorem mnemonic_operands (w : Cmd) (m : Mnemonic) : (operands w m).mnemonic = m := by
  cases m <;> rfl

/-- A word decodes to an instruction of the mnemonic iff it carries that command. -/
theorem decodes_to_mnemonic_iff {m : Mnemonic} : (∃ i, decode w = .ok i ∧ i.mnemonic = m) ↔ Carries w m := by
  constructor
  · rintro ⟨i, hi, rfl⟩
    obtain ⟨m, hm, rfl⟩ := decode_eq_ok_iff.mp hi
    rwa [mnemonic_operands]
  · exact fun h => ⟨_, decode_of_carries h, mnemonic_operands w m⟩

/-! ### The decoder after the encoder -/

/-- The mask request that MXSEL's `imm` gives back (R88 exception 1). -/
theorem maskRequest_imm {req : MaskRequest} (h : req.wf = true) : maskRequest req.imm = req := by
  cases req with
  | auto => rfl
  | forced m => exact if_neg (Nat.ne_of_lt (of_decide_eq_true h))

/-- A coordinate read from `lo` (R88 exceptions 2 and 3). -/
theorem sext16_loOf {x : Int} {hi : Nat} (hx : fitsSigned16 x = true) (h : immOf w = packImm hi (unsext16 x)) :
    sext16 (loOf w) = x := by
  rw [loOf_of_immOf (unsext16_lt x) h, sext16_unsext16 hx]

/-- A coordinate read from `hi` (R88 exceptions 2 and 3). -/
theorem sext16_hiOf {y : Int} {lo : Nat} (hy : fitsSigned16 y = true) (hlo : lo < 2 ^ 16)
    (h : immOf w = packImm (unsext16 y) lo) : sext16 (hiOf w) = y := by
  rw [hiOf_of_immOf hlo h, sext16_unsext16 hy]

/-- An instruction whose fields fit its format, and whose operands are read from those fields, survives its encoding. -/
theorem decode_encode_of_fields {i : Instr} {a b imm : Nat} (he : encode i = packWord (tableRow i.mnemonic).op a b imm)
    (hf : FitsFormat (tableRow i.mnemonic).format a b imm)
    (hi : ∀ w, aOf w = a → bOf w = b → immOf w = imm → operands w i.mnemonic = i) : decode (encode i) = .ok i := by
  obtain ⟨ha, hb, himm⟩ := hf.widths
  have hop := tableRow_op_lt i.mnemonic
  have ea := aOf_packWord hop ha hb himm
  have eb := bOf_packWord hop ha hb himm
  have eimm := immOf_packWord hop ha hb himm
  rw [he, decode_of_carries ⟨opOf_packWord hop ha hb himm, by rwa [ea, eb, eimm]⟩, hi _ ea eb eimm]

theorem decode_encode {i : Instr} (h : i.wf = true) : decode (encode i) = .ok i := by
  have zero (k : Nat) : 0 < 2 ^ k := Nat.two_pow_pos k
  cases i with
  | reset => exact decode_encode_of_fields rfl ⟨zero _, zero _, zero _⟩ fun _ _ _ _ => rfl
  | rdcr n => exact decode_encode_of_fields rfl ⟨zero _, zero _, lt_of_fits h⟩ fun _ _ _ e => congrArg Instr.rdcr e
  | ldb addr =>
    exact decode_encode_of_fields rfl ⟨zero _, zero _, lt_of_fits h⟩ fun _ _ _ e =>
      congrArg Instr.ldb (loOf_of_immOf_lt (lt_of_fits h) e)
  | stb addr v =>
    exact decode_encode_of_fields rfl ⟨v.isLt, zero _, lt_of_fits h⟩ fun _ ea _ e =>
      congrArg₂ Instr.stb (loOf_of_immOf_lt (lt_of_fits h) e) (BitVec.eq_of_toNat_eq ea)
  | gfmul x y =>
    obtain ⟨hx, hy⟩ := Bool.and_eq_true_iff.mp h
    exact decode_encode_of_fields rfl ⟨zero _, zero _, packImm_lt (lt_of_fits hy) (lt_of_fits hx)⟩ fun _ _ _ e =>
      congrArg₂ Instr.gfmul (loOf_of_immOf (lt_of_fits hx) e) (hiOf_of_immOf (lt_of_fits hx) e)
  | rsinit degree =>
    exact decode_encode_of_fields rfl ⟨zero _, zero _, lt_of_fits h⟩ fun _ _ _ e => congrArg Instr.rsinit e
  | rsrdc k => exact decode_encode_of_fields rfl ⟨zero _, zero _, lt_of_fits h⟩ fun _ _ _ e => congrArg Instr.rsrdc e
  | rsrem src len dst =>
    obtain ⟨hsl, hdst⟩ := Bool.and_eq_true_iff.mp h
    obtain ⟨hsrc, hlen⟩ := Bool.and_eq_true_iff.mp hsl
    refine decode_encode_of_fields rfl ⟨zero _, lt_of_fits hlen, packImm_lt (lt_of_fits hdst) (lt_of_fits hsrc)⟩ ?_
    intro w _ eb e
    exact congr (congrArg₂ Instr.rsrem (loOf_of_immOf (lt_of_fits hsrc) e) eb) (hiOf_of_immOf (lt_of_fits hsrc) e)
  | bbnew => exact decode_encode_of_fields rfl ⟨zero _, zero _, zero _⟩ fun _ _ _ _ => rfl
  | bblen => exact decode_encode_of_fields rfl ⟨zero _, zero _, zero _⟩ fun _ _ _ _ => rfl
  | bbapp width value =>
    exact decode_encode_of_fields rfl ⟨lt_of_fits h, zero _, value.isLt⟩ fun _ ea _ e =>
      congrArg₂ Instr.bbapp ea (BitVec.eq_of_toNat_eq e)
  | bbappm src nbits =>
    obtain ⟨hsrc, hn⟩ := Bool.and_eq_true_iff.mp h
    exact decode_encode_of_fields rfl ⟨zero _, lt_of_fits hn, lt_of_fits hsrc⟩ fun _ _ eb e =>
      congrArg₂ Instr.bbappm (loOf_of_immOf_lt (lt_of_fits hsrc) e) eb
  | bbtob dst =>
    exact decode_encode_of_fields rfl ⟨zero _, zero _, lt_of_fits h⟩ fun _ _ _ e =>
      congrArg Instr.bbtob (loOf_of_immOf_lt (lt_of_fits h) e)
  | mxnew version level =>
    obtain ⟨hv, hl⟩ := Bool.and_eq_true_iff.mp h
    exact decode_encode_of_fields rfl ⟨lt_of_fits hl, zero _, lt_of_fits hv⟩ fun _ ea _ e => congrArg₂ Instr.mxnew e ea
  | mxfunc => exact decode_encode_of_fields rfl ⟨zero _, zero _, zero _⟩ fun _ _ _ _ => rfl
  | mxcw src count =>
    obtain ⟨hsrc, hn⟩ := Bool.and_eq_true_iff.mp h
    exact decode_encode_of_fields rfl ⟨zero _, lt_of_fits hn, lt_of_fits hsrc⟩ fun _ _ eb e =>
      congrArg₂ Instr.mxcw (loOf_of_immOf_lt (lt_of_fits hsrc) e) eb
  | mxfmt m => exact decode_encode_of_fields rfl ⟨zero _, zero _, lt_of_fits h⟩ fun _ _ _ e => congrArg Instr.mxfmt e
  | mxmask m => exact decode_encode_of_fields rfl ⟨zero _, zero _, lt_of_fits h⟩ fun _ _ _ e => congrArg Instr.mxmask e
  | mxpen => exact decode_encode_of_fields rfl ⟨zero _, zero _, zero _⟩ fun _ _ _ _ => rfl
  | mxsel req =>
    have himm : req.imm < 2 ^ 32 := by
      cases req with
      | auto => decide
      | forced m => exact (of_decide_eq_true h : m < 0xFFFFFFFF).trans (by decide)
    exact decode_encode_of_fields rfl ⟨zero _, zero _, himm⟩ fun _ _ _ e =>
      congrArg Instr.mxsel ((congrArg maskRequest e).trans (maskRequest_imm h))
  | mxrd x y =>
    obtain ⟨hx, hy⟩ := Bool.and_eq_true_iff.mp h
    exact decode_encode_of_fields rfl ⟨zero _, zero _, packImm_lt (unsext16_lt y) (unsext16_lt x)⟩ fun w _ _ e =>
      congrArg₂ Instr.mxrd (sext16_loOf hx e) (sext16_hiOf hy (unsext16_lt x) e)
  | mxpeek x y =>
    obtain ⟨hx, hy⟩ := Bool.and_eq_true_iff.mp h
    exact decode_encode_of_fields rfl ⟨zero _, zero _, packImm_lt (unsext16_lt y) (unsext16_lt x)⟩ fun w _ _ e =>
      congrArg₂ Instr.mxpeek (sext16_loOf hx e) (sext16_hiOf hy (unsext16_lt x) e)

/-- Settles O1: the fields of the word fit the command's format, and the operands read from them are the instruction's. -/
theorem decodeOfEncodeIsTheInstruction : Obligations.DecodeOfEncodeIsTheInstruction := fun _ h => decode_encode h

end Sys2Proof.Proofs
end

section
/-! SUPPORT. The encoder after the decoder (spec/30_encoding.md R86 to R89, R95), and the worked encodings (R98). -/

namespace Sys2Proof.Proofs

open Sys2Proof.Machine Sys2Proof.Safety Sys2Proof.Laws

variable {w : Cmd}

theorem fits_of_lt {bits n : Nat} (h : n < 2 ^ bits) : fits bits n = true := decide_eq_true h

theorem fitsSigned16_sext16 {v : Nat} (h : v < 2 ^ 16) : fitsSigned16 (sext16 v) = true := by
  simp only [fitsSigned16, Bool.and_eq_true, decide_eq_true_eq]
  unfold sext16
  split <;> omega

theorem unsext16_sext16 {v : Nat} (h : v < 2 ^ 16) : unsext16 (sext16 v) = v := by
  unfold unsext16 sext16
  split <;> omega

theorem wf_maskRequest {n : Nat} (h : n < 2 ^ 32) : (maskRequest n).wf = true := by
  unfold maskRequest
  split
  · rfl
  · exact decide_eq_true (by omega : n < 0xFFFFFFFF)

theorem imm_maskRequest (n : Nat) : (maskRequest n).imm = n := by
  unfold maskRequest
  split
  · next h => exact h.symm
  · rfl

/-- Operands read from the fields of a word are well formed (R88). -/
theorem wf_operands (w : Cmd) (m : Mnemonic) : (operands w m).wf = true := by
  have ha := fits_of_lt (aOf_lt w)
  have hb := fits_of_lt (bOf_lt w)
  have himm := fits_of_lt (immOf_lt w)
  have hhi := fits_of_lt (hiOf_lt w)
  have hlo := fits_of_lt (loOf_lt w)
  cases m <;> simp [operands, Instr.wf, ha, hb, himm, hhi, hlo, wf_maskRequest (immOf_lt w),
    fitsSigned16_sext16 (hiOf_lt w), fitsSigned16_sext16 (loOf_lt w)]

/-- A packed word is a given word if the four fields agree (R86). -/
theorem packWord_eq_of_fields {op a b imm : Nat} (hop : opOf w = op) (ha : aOf w = a) (hb : bOf w = b) (himm : immOf w = imm) :
    packWord op a b imm = w := by
  rw [← hop, ← ha, ← hb, ← himm, packWord_fields]

theorem immOf_eq_loOf (h : immOf w < 2 ^ 16) : immOf w = loOf w := (loOf_of_immOf_lt h rfl).symm

theorem immOf_eq_signed (w : Cmd) : immOf w = packImm (unsext16 (sext16 (hiOf w))) (unsext16 (sext16 (loOf w))) := by
  rw [unsext16_sext16 (hiOf_lt w), unsext16_sext16 (loOf_lt w), immOf_eq_packImm]

/-- The instruction of a word that carries the command encodes back to the word: by format, each field is an operand or is
zero (R87, R88). -/
theorem encode_operands {m : Mnemonic} (h : Carries w m) : encode (operands w m) = w := by
  obtain ⟨hop, ha, hb, himm⟩ := h
  have zero {n : Nat} (h : n < 2 ^ 0) : n = 0 := Nat.lt_one_iff.mp h
  cases m with
  | RESET => exact packWord_eq_of_fields hop (zero ha) (zero hb) (zero himm)
  | RDCR => exact packWord_eq_of_fields hop (zero ha) (zero hb) rfl
  | LDB => exact packWord_eq_of_fields hop (zero ha) (zero hb) (immOf_eq_loOf himm)
  | STB => exact packWord_eq_of_fields hop rfl (zero hb) (immOf_eq_loOf himm)
  | GFMUL => exact packWord_eq_of_fields hop (zero ha) (zero hb) (immOf_eq_packImm w)
  | RSINIT => exact packWord_eq_of_fields hop (zero ha) (zero hb) rfl
  | RSRDC => exact packWord_eq_of_fields hop (zero ha) (zero hb) rfl
  | RSREM => exact packWord_eq_of_fields hop (zero ha) rfl (immOf_eq_packImm w)
  | BBNEW => exact packWord_eq_of_fields hop (zero ha) (zero hb) (zero himm)
  | BBLEN => exact packWord_eq_of_fields hop (zero ha) (zero hb) (zero himm)
  | BBAPP => exact packWord_eq_of_fields hop rfl (zero hb) rfl
  | BBAPPM => exact packWord_eq_of_fields hop (zero ha) rfl (immOf_eq_loOf himm)
  | BBTOB => exact packWord_eq_of_fields hop (zero ha) (zero hb) (immOf_eq_loOf himm)
  | MXNEW => exact packWord_eq_of_fields hop rfl (zero hb) rfl
  | MXFUNC => exact packWord_eq_of_fields hop (zero ha) (zero hb) (zero himm)
  | MXCW => exact packWord_eq_of_fields hop (zero ha) rfl (immOf_eq_loOf himm)
  | MXFMT => exact packWord_eq_of_fields hop (zero ha) (zero hb) rfl
  | MXMASK => exact packWord_eq_of_fields hop (zero ha) (zero hb) rfl
  | MXPEN => exact packWord_eq_of_fields hop (zero ha) (zero hb) (zero himm)
  | MXSEL => exact packWord_eq_of_fields hop (zero ha) (zero hb) (imm_maskRequest _).symm
  | MXRD => exact packWord_eq_of_fields hop (zero ha) (zero hb) (immOf_eq_signed w)
  | MXPEEK => exact packWord_eq_of_fields hop (zero ha) (zero hb) (immOf_eq_signed w)

/-- Settles O2: a word that decodes carries a command, and its instruction is read from the word's own fields. -/
theorem encodeOfDecodeIsTheWord : Obligations.EncodeOfDecodeIsTheWord := by
  intro w i h
  obtain ⟨m, hm, rfl⟩ := decode_eq_ok_iff.mp h
  exact ⟨wf_operands w m, encode_operands hm⟩

/-- Settles O5: the encoder and the assembler run on the thirteen rows, and the decoder undoes the encoder. -/
theorem workedEncodingsOfEachFormat : Obligations.WorkedEncodingsOfEachFormat := by
  have rows : ∀ p ∈ workedEncodings, p.2.1.wf = true ∧ encode p.2.1 = p.2.2 ∧ assembleLine p.1 = .command p.2.2 := by
    decide
  intro p hp
  obtain ⟨hwf, henc, hasm⟩ := rows p hp
  exact ⟨henc, henc ▸ decode_encode hwf, hasm⟩

end Sys2Proof.Proofs
end

section
/-! SUPPORT. Match, mask and the illegal words (spec/30_encoding.md R90 to R92). -/

namespace Sys2Proof.Proofs

open Sys2Proof.Machine Sys2Proof.Safety Sys2Proof.Laws

variable {w : Cmd}

/-- `n` bits of a mask: none where the field holds an operand, else all (R90). -/
def zeroMask (used : Bool) (n : Nat) : BitVec n := if used then 0 else BitVec.allOnes n

/-- The mask of a format: `op` and the fields the format does not use (R87, R90). -/
def formatMask (f : Format) : Cmd :=
  BitVec.allOnes 8 ++ zeroMask f.usesA 8 ++ zeroMask f.usesB 16 ++ zeroMask f.usesHi 16 ++ zeroMask f.usesImm 16

/-- The row of the match table that the opcode map and the formats give (R90). -/
def matchRow (m : Mnemonic) : MatchRow := ⟨m, packWord (tableRow m).op 0 0 0, formatMask (tableRow m).format⟩

theorem exists_matchRow {r : MatchRow} (h : r ∈ matchTable) : ∃ m, r = matchRow m :=
  have table : ∀ r ∈ matchTable, r = matchRow r.mnemonic := by decide
  ⟨r.mnemonic, table r h⟩

theorem matchRow_mem (m : Mnemonic) : matchRow m ∈ matchTable := by
  cases m <;> decide

/-- A field of a masked word is the word's field or zero, as the mask has all bits there or none. -/
theorem toNat_extractLsb'_and {v : Cmd} {start len : Nat} {used : Bool} (h : v.extractLsb' start len = zeroMask used len) :
    ((w &&& v).extractLsb' start len).toNat = if used then 0 else (w.extractLsb' start len).toNat := by
  rw [BitVec.extractLsb'_and, h]
  cases used <;> simp [zeroMask]

theorem aOf_and_formatMask (w : Cmd) (f : Format) : aOf (w &&& formatMask f) = if f.usesA then 0 else aOf w :=
  toNat_extractLsb'_and (by cases f <;> decide)

theorem bOf_and_formatMask (w : Cmd) (f : Format) : bOf (w &&& formatMask f) = if f.usesB then 0 else bOf w :=
  toNat_extractLsb'_and (by cases f <;> decide)

theorem hiOf_and_formatMask (w : Cmd) (f : Format) : hiOf (w &&& formatMask f) = if f.usesHi then 0 else hiOf w :=
  toNat_extractLsb'_and (by cases f <;> decide)

theorem loOf_and_formatMask (w : Cmd) (f : Format) : loOf (w &&& formatMask f) = if f.usesImm then 0 else loOf w :=
  toNat_extractLsb'_and (by cases f <;> decide)

theorem opOf_and_formatMask (w : Cmd) (f : Format) : opOf (w &&& formatMask f) = opOf w :=
  toNat_extractLsb'_and (used := false) (by cases f <;> decide)

/-- The masked word is zero below `op` iff the word's fields fit the format (R90, R91). -/
theorem and_formatMask_zero_iff (w : Cmd) (f : Format) :
    (aOf (w &&& formatMask f) = 0 ∧ bOf (w &&& formatMask f) = 0 ∧ immOf (w &&& formatMask f) = 0) ↔
      FitsFormat f (aOf w) (bOf w) (immOf w) := by
  rw [fitsFormat_iff, immOf_eq_zero_iff, immOf_eq_packImm w, packImm, aOf_and_formatMask, bOf_and_formatMask, hiOf_and_formatMask,
    loOf_and_formatMask]
  cases f <;> simp [Format.usesA, Format.usesB, Format.usesHi, Format.usesImm]
  omega

/-- Two words are equal iff their four fields are (R86). -/
theorem eq_iff_fields {v : Cmd} : w = v ↔ opOf w = opOf v ∧ aOf w = aOf v ∧ bOf w = bOf v ∧ immOf w = immOf v := by
  constructor
  · rintro rfl
    exact ⟨rfl, rfl, rfl, rfl⟩
  · rintro ⟨hop, ha, hb, himm⟩
    rw [← packWord_fields w, hop, ha, hb, himm, packWord_fields]

theorem eq_packWord_iff {op : Nat} (h : op < 2 ^ 8) :
    w = packWord op 0 0 0 ↔ opOf w = op ∧ aOf w = 0 ∧ bOf w = 0 ∧ immOf w = 0 := by
  have z8 : 0 < 2 ^ 8 := by decide
  have z16 : 0 < 2 ^ 16 := by decide
  have z32 : 0 < 2 ^ 32 := by decide
  rw [eq_iff_fields, opOf_packWord h z8 z16 z32, aOf_packWord h z8 z16 z32, bOf_packWord h z8 z16 z32,
    immOf_packWord h z8 z16 z32]

/-- Match and mask accept exactly the words that carry the row's command (R90). -/
theorem accepts_matchRow_iff {m : Mnemonic} : (matchRow m).accepts w ↔ Carries w m := by
  rw [MatchRow.accepts, matchRow, eq_packWord_iff (tableRow_op_lt m), opOf_and_formatMask, and_formatMask_zero_iff, Carries]

theorem accepts_iff {r : MatchRow} (h : r ∈ matchTable) : r.accepts w ↔ Carries w r.mnemonic := by
  obtain ⟨m, rfl⟩ := exists_matchRow h
  exact accepts_matchRow_iff

/-- Settles O3: a row accepts a word iff the word carries the row's command, and a word carries one command at most. -/
theorem matchAndMaskSelectTheCommand : Obligations.MatchAndMaskSelectTheCommand := by
  refine ⟨fun w r hr => (accepts_iff hr).trans decodes_to_mnemonic_iff.symm, fun w r hr q hq hrw hqw => ?_⟩
  obtain ⟨m, rfl⟩ := exists_matchRow hr
  obtain ⟨n, rfl⟩ := exists_matchRow hq
  rw [(accepts_matchRow_iff.mp hrw).unique (accepts_matchRow_iff.mp hqw)]

/-! ### Illegal words -/

/-- `op` as the statements read it. -/
theorem toNat_shiftRight_56 (w : Cmd) : (w >>> 56).toNat = opOf w := by
  rw [opOf, BitVec.extractLsb'_toNat, BitVec.toNat_ushiftRight, Nat.shiftRight_eq_div_pow]
  have := w.isLt
  omega

/-- The ranges of R92 are the values outside the opcode map. -/
theorem undefinedOp_iff {op : Nat} (h : op < 256) : undefinedOp op = true ↔ ∀ m, op ≠ (tableRow m).op := by
  have table : ∀ op < 256, undefinedOp op = (rowOf op).isNone := by decide +kernel
  rw [table op h]
  rcases rowOf_cases op with ⟨m, hm, hrow⟩ | ⟨hm, hrow⟩
  · rw [hrow]
    exact iff_of_false (by simp) fun hne => hne m hm
  · rw [hrow]
    exact iff_of_true rfl hm

theorem lowBits_eq_zero_iff (v : Cmd) : v &&& 0x00FFFFFFFFFFFFFF = 0 ↔ aOf v = 0 ∧ bOf v = 0 ∧ immOf v = 0 := by
  have hmask : (0x00FFFFFFFFFFFFFF : Cmd) = BitVec.ofNat 64 (2 ^ 56 - 1) := rfl
  have hfields := congrArg BitVec.toNat (packWord_fields v)
  rw [packWord_toNat (opOf_lt v) (aOf_lt v) (bOf_lt v) (immOf_lt v)] at hfields
  have hmod : (v &&& 0x00FFFFFFFFFFFFFF).toNat = v.toNat % 2 ^ 56 := by
    rw [BitVec.toNat_and]
    exact Nat.and_two_pow_sub_one_eq_mod v.toNat 56
  have ha := aOf_lt v
  have hb := bOf_lt v
  have himm := immOf_lt v
  rw [← BitVec.toNat_inj, hmod, ← hfields]
  simp only [BitVec.ofNat_eq_ofNat, BitVec.toNat_ofNat]
  omega

/-- A row's `op` and its must-be-zero bits, as R91 tests them. -/
theorem op_and_mustBeZero_iff (w : Cmd) (m : Mnemonic) :
    (w >>> 56 = (matchRow m).pattern >>> 56 ∧ w &&& (matchRow m).mask &&& 0x00FFFFFFFFFFFFFF ≠ 0) ↔
      opOf w = (tableRow m).op ∧ ¬ FitsFormat (tableRow m).format (aOf w) (bOf w) (immOf w) := by
  rw [← BitVec.toNat_inj, toNat_shiftRight_56, toNat_shiftRight_56, ne_eq, lowBits_eq_zero_iff, matchRow,
    and_formatMask_zero_iff, opOf_packWord (tableRow_op_lt m) (by decide) (by decide) (by decide)]

/-- A word is illegal iff it carries no command (R91, R92). -/
theorem illegal_iff : illegal w ↔ ∀ m, ¬ Carries w m := by
  rw [illegal, toNat_shiftRight_56, undefinedOp_iff (opOf_lt w)]
  constructor
  · rintro (hop | ⟨r, hr, h⟩) m hm
    · exact hop m hm.1
    · obtain ⟨n, rfl⟩ := exists_matchRow hr
      obtain ⟨hop, hn⟩ := (op_and_mustBeZero_iff w n).mp h
      obtain rfl := tableRow_op_inj (hm.1.symm.trans hop)
      exact hn hm.2
  · intro h
    rcases rowOf_cases (opOf w) with ⟨m, hop, -⟩ | ⟨hop, -⟩
    · exact .inr ⟨matchRow m, matchRow_mem m, (op_and_mustBeZero_iff w m).mpr ⟨hop, fun hf => h m ⟨hop, hf⟩⟩⟩
    · exact .inl hop

theorem illegal_iff_decode_error : illegal w ↔ ∃ e, decode w = .error e := illegal_iff.trans decode_error_iff.symm

theorem execute_of_decode_error {e : Illegal} (h : decode w = .error e) (s : State) :
    execute w s = .next (refusedWith 4 s) := by
  simp only [execute, h, illegalWord, refuse_eq, StatusCode.toByte]

theorem execute_of_decode_ok {i : Instr} (h : decode w = .ok i) (s : State) : execute w s = exec i s := by
  simp only [execute, h]

/-- Settles O4: legal words are those that carry a command, and the decoder rejects all others. -/
theorem illegalWordsAreRefused : Obligations.IllegalWordsAreRefused := by
  refine ⟨fun w => illegal_iff_decode_error, fun w s h => ?_, .inl (by decide), .inl (by decide)⟩
  obtain ⟨e, he⟩ := illegal_iff_decode_error.mp h
  exact execute_of_decode_error he s

end Sys2Proof.Proofs
end

section
/-! SUPPORT. Every command word gets one response (spec/30_encoding.md R85, spec/60_exceptions.md R340). -/

namespace Sys2Proof.Proofs

open Sys2Proof.Machine Sys2Proof.Safety Sys2Proof.Laws

/-- The state holds a response that the block produces: a code it reports, and result 0 unless the code is OK (R340). -/
def Responded (t : State) : Prop :=
  ∃ r, t.response = some r ∧ r.st ∈ [(0 : Byte), 1, 3, 4, 5, 6] ∧ (r.st ≠ 0 → r.res = 0)

theorem responded_answered (v : Word) (u : State) : Responded (answered v u) :=
  ⟨⟨0, v⟩, rfl, List.mem_cons_self, fun h => absurd rfl h⟩

theorem responded_refusedWith {c : Byte} (hc : c ∈ [(1 : Byte), 3, 4, 5, 6]) (u : State) : Responded (refusedWith c u) :=
  ⟨⟨c, 0⟩, rfl, List.mem_cons_of_mem 0 hc, fun _ => rfl⟩

theorem exec_total (i : Instr) (s : State) : ∃ t, exec i s = .next t := by
  cases i <;> exact ⟨_, rfl⟩

theorem exec_responded {i : Instr} {s t : State} (h : exec i s = .next t) : Responded t := by
  rcases exec_answer_cases h with ⟨-, rfl⟩ | ho | ⟨-, rfl⟩ | ⟨src, n, -, -, -, -, rfl⟩
  · exact responded_answered 0 _
  · cases ho with
    | answered v u _ => exact responded_answered v u
    | refused c hc => exact responded_refusedWith (by simp only [List.mem_cons] at hc ⊢; tauto) s
  · exact responded_refusedWith (by decide) s
  · rcases finishCodewords_cases (placeBits s.mx (codewordBit s src) (8 * n)) n s with ⟨-, h⟩ | ⟨-, h⟩
    · exact h ▸ responded_answered _ _
    · exact h ▸ responded_refusedWith (by decide) _

/-- Every word gets a response, an illegal one the refusal of R91. -/
theorem execute_responded (w : Cmd) (s : State) : ∃ t, execute w s = .next t ∧ Responded t := by
  cases hd : decode w with
  | error e => exact ⟨_, execute_of_decode_error hd s, responded_refusedWith (by decide) s⟩
  | ok i =>
    obtain ⟨t, ht⟩ := exec_total i s
    exact ⟨t, (execute_of_decode_ok hd s).trans ht, exec_responded ht⟩

theorem step_total (s : State) : ∃ t, step s = .next t := by
  unfold step
  cases takeInput s with
  | none => exact ⟨s, rfl⟩
  | some p =>
    obtain ⟨i, u⟩ := p
    cases i with
    | hardReset => exact ⟨_, rfl⟩
    | command w =>
      obtain ⟨t, ht, -⟩ := execute_responded w u
      exact ⟨t, ht⟩

/-- Settles O11: an illegal word is refused, a legal one answers in one of the ways of R343, and no input stops the block. -/
theorem everyCommandGetsAResponse : Obligations.EveryCommandGetsAResponse := by
  refine ⟨fun w s => ?_, step_total⟩
  obtain ⟨t, ht, r, hr⟩ := execute_responded w s
  exact ⟨t, r, ht, hr⟩

end Sys2Proof.Proofs
end

section
/-! SUPPORT. LDB and STB on one byte of `DMEM` (spec/40_system_commands.md R124, R126). -/

namespace Sys2Proof.Proofs

open Sys2Proof.Machine Sys2Proof.Safety Sys2Proof.Laws

variable {s : State} {addr : Nat}

theorem exec_ldb_of_lt (hf : s.status.fatal = false) (h : addr < 8192) :
    exec (.ldb addr) s = .next (answered (BitVec.ofNat 32 (readByte s addr).toNat) s) := by
  rw [exec_ldb hf, if_neg (by omega), BitVec.ofNat_toNat]

theorem exec_ldb_of_ge (hf : s.status.fatal = false) (h : addr ≥ 8192) :
    exec (.ldb addr) s = .next (refusedWith 6 s) := by
  rw [exec_ldb hf, if_pos h]

theorem exec_stb_of_lt (hf : s.status.fatal = false) (h : addr < 8192) (v : Byte) :
    exec (.stb addr v) s = .next (answered 0 (writeByte s addr v)) := by
  rw [exec_stb hf, if_neg (by omega)]

theorem exec_stb_of_ge (hf : s.status.fatal = false) (h : addr ≥ 8192) (v : Byte) :
    exec (.stb addr v) s = .next (refusedWith 6 s) := by
  rw [exec_stb hf, if_pos h]

/-- The response is no part of `DMEM`: a byte reads the same after it. -/
theorem readByte_answered (w : Word) (s : State) (a : Nat) : readByte (answered w s) a = readByte s a :=
  readByte_congr rfl rfl a

/-- Settles O15: STB leaves `writeByte s addr v` but for the response, and `readByte_writeByte` reads it back. -/
theorem loadAndStoreOneByte : Obligations.LoadAndStoreOneByte := by
  refine fun s addr hf => ⟨fun h => ⟨exec_ldb_of_lt hf h, fun v => ?_⟩,
    fun h => ⟨exec_ldb_of_ge hf h, exec_stb_of_ge hf h⟩⟩
  refine ⟨_, exec_stb_of_lt hf h v, rfl, ?_, fun a ha => ?_⟩
  · rw [readByte_answered, readByte_writeByte, if_pos rfl]
  · rw [readByte_answered, readByte_writeByte, if_neg ha]

end Sys2Proof.Proofs
end

section
/-! SUPPORT. What the two appends answer: refused in the order of R145 and R147, or `appendAndAnswer` of their bits. -/

namespace Sys2Proof.Proofs

open Sys2Proof.Machine Sys2Proof.Safety Sys2Proof.Laws

variable {s t : State} {bits : List Bool} {width src nbits : Nat} {value : Word}

/-- The range check of R64 as arithmetic. -/
theorem rangeFits_iff (p n : Nat) : rangeFits p n = true ↔ p + n ≤ 8192 := by
  simp only [rangeFits, decide_eq_true_eq]

@[simp] theorem appendAndAnswer_bb (bits : List Bool) (s : State) :
    (appendAndAnswer bits s).bb = appendBits s.bb bits := rfl
@[simp] theorem appendAndAnswer_status (bits : List Bool) (s : State) :
    (appendAndAnswer bits s).status = s.status := rfl
@[simp] theorem statusOf_appendAndAnswer (bits : List Bool) (s : State) :
    statusOf (appendAndAnswer bits s) = some 0 := rfl

theorem appendBits_append (bb : Builder) (xs ys : List Bool) :
    appendBits bb (xs ++ ys) = appendBits (appendBits bb xs) ys := List.foldl_append

/-- Two appends leave the state of the append of both bit strings, response included. -/
theorem appendAndAnswer_appendAndAnswer (xs ys : List Bool) (s : State) :
    appendAndAnswer ys (appendAndAnswer xs s) = appendAndAnswer (xs ++ ys) s := by
  simp only [appendAndAnswer, respond, appendBits_append]

/-- An append within the capacity answers the new length, and the content grows by its bits (R145, R147). -/
theorem appendAndAnswer_grows (hb : BuilderInv s.bb) (hc : s.bb.bblen.toNat + bits.length ≤ 32768) :
    ∃ b : Builder,
      appendAndAnswer bits s = answered (BitVec.ofNat 32 (s.bb.bblen.toNat + bits.length)) { s with bb := b } ∧
      BuilderInv b ∧ content b = content s.bb ++ bits := by
  obtain ⟨hinv, hcontent, hlen⟩ := builderInv_appendBits hb hc
  refine ⟨appendBits s.bb bits, ?_, hinv, hcontent⟩
  rw [← hlen, BitVec.ofNat_toNat]
  rfl

/-! ### BBAPP -/

theorem exec_bbapp_of_illegal (hf : s.status.fatal = false) (h : width > 32 ∨ 2 ^ width ≤ value.toNat) :
    exec (.bbapp width value) s = .next (refusedWith 1 s) := by
  have hl : ¬ appendOperandsLegal width value = true := by rw [appendOperandsLegal_iff]; omega
  rw [exec_bbapp hf, if_pos (Bool.eq_false_of_not_eq_true hl)]

theorem exec_bbapp_of_full (hf : s.status.fatal = false) (hw : width ≤ 32) (hv : value.toNat < 2 ^ width)
    (hc : s.bb.bblen.toNat + width > 32768) : exec (.bbapp width value) s = .next (refusedWith 6 s) := by
  have hfit : ¬ appendFits s.bb width = true := by rw [appendFits_iff]; omega
  rw [exec_bbapp hf, (appendOperandsLegal_iff width value).mpr ⟨hw, hv⟩, if_neg Bool.noConfusion,
    if_pos (Bool.eq_false_of_not_eq_true hfit)]

theorem exec_bbapp_of_fits (hf : s.status.fatal = false) (hw : width ≤ 32) (hv : value.toNat < 2 ^ width)
    (hc : s.bb.bblen.toNat + width ≤ 32768) :
    exec (.bbapp width value) s = .next (appendAndAnswer (msbFirst width value) s) := by
  rw [exec_bbapp hf, (appendOperandsLegal_iff width value).mpr ⟨hw, hv⟩, if_neg Bool.noConfusion,
    (appendFits_iff s.bb width).mpr hc, if_neg Bool.noConfusion]
  rfl

/-- Everything BBAPP can answer. -/
theorem exec_bbapp_cases (h : exec (.bbapp width value) s = .next t) :
    (∃ c, c ≠ 0 ∧ t = refusedWith c s) ∨
    (s.bb.bblen.toNat + width ≤ 32768 ∧ t = appendAndAnswer (msbFirst width value) s) := by
  rcases exec_fatal_or h nofun nofun with rfl | hf
  · exact .inl ⟨3, by decide, rfl⟩
  · rw [exec_bbapp hf] at h
    cases h
    repeat' split
    · exact .inl ⟨1, by decide, rfl⟩
    · exact .inl ⟨6, by decide, rfl⟩
    · next _ hfit => exact .inr ⟨(appendFits_iff s.bb width).mp (by simpa using hfit), rfl⟩

/-! ### BBAPPM -/

theorem exec_bbappm_of_outside (hf : s.status.fatal = false)
    (h : src + (nbits + 7) / 8 > 8192 ∨ s.bb.bblen.toNat + nbits > 32768) :
    exec (.bbappm src nbits) s = .next (refusedWith 6 s) := by
  rw [exec_bbappm hf]
  split
  · rfl
  · next hr =>
    have hr' : src + (nbits + 7) / 8 ≤ 8192 := (rangeFits_iff src (bytesFor nbits)).mp (by simpa using hr)
    have hfit : ¬ appendFits s.bb nbits = true := by rw [appendFits_iff]; omega
    rw [if_pos (Bool.eq_false_of_not_eq_true hfit)]

theorem exec_bbappm_of_fits (hf : s.status.fatal = false) (hr : src + (nbits + 7) / 8 ≤ 8192)
    (hc : s.bb.bblen.toNat + nbits ≤ 32768) :
    exec (.bbappm src nbits) s = .next (appendAndAnswer (payloadBits s src nbits) s) := by
  rw [exec_bbappm hf, (rangeFits_iff src (bytesFor nbits)).mpr hr, if_neg Bool.noConfusion,
    (appendFits_iff s.bb nbits).mpr hc, if_neg Bool.noConfusion]
  rfl

/-- Everything BBAPPM can answer. -/
theorem exec_bbappm_cases (h : exec (.bbappm src nbits) s = .next t) :
    (∃ c, c ≠ 0 ∧ t = refusedWith c s) ∨
    (s.bb.bblen.toNat + nbits ≤ 32768 ∧ t = appendAndAnswer (payloadBits s src nbits) s) := by
  rcases exec_fatal_or h nofun nofun with rfl | hf
  · exact .inl ⟨3, by decide, rfl⟩
  · rw [exec_bbappm hf] at h
    cases h
    repeat' split
    · exact .inl ⟨6, by decide, rfl⟩
    · exact .inl ⟨6, by decide, rfl⟩
    · next _ hfit => exact .inr ⟨(appendFits_iff s.bb nbits).mp (by simpa using hfit), rfl⟩

/-! ### The statements -/

/-- Settles O23: BBNEW leaves the builder of the reset state. -/
theorem bbnewEmptiesAndBblenReports : Obligations.BbnewEmptiesAndBblenReports := by
  refine fun s hf => ⟨⟨Builder.reset, exec_bbnew hf, rfl, fun i hi => ?_⟩, ?_⟩
  · rw [Builder.reset, readAt_replicate, if_pos hi]
  · rw [exec_bblen hf, BitVec.ofNat_toNat]

/-- Settles O24, with `appendAndAnswer_grows` for the admitted append. -/
theorem bbappAppendsTheLowBits : Obligations.BbappAppendsTheLowBits := by
  refine fun s width value hf hb =>
    ⟨exec_bbapp_of_illegal hf, exec_bbapp_of_full hf, fun hw hv hc => ?_⟩
  obtain ⟨b, hanswer, hinv, hcontent⟩ :=
    appendAndAnswer_grows (bits := msbFirst width value) hb (by rwa [length_msbFirst])
  rw [length_msbFirst] at hanswer
  rw [msbFirst_eq] at hcontent
  exact ⟨b, (exec_bbapp_of_fits hf hw hv hc).trans (congrArg _ hanswer), hinv, hcontent⟩

/-- Settles O26, with `appendAndAnswer_grows` for the admitted append. -/
theorem bbappmAppendsThePayload : Obligations.BbappmAppendsThePayload := by
  refine fun s src nbits hf hb => ⟨exec_bbappm_of_outside hf, fun hr hc => ?_⟩
  obtain ⟨b, hanswer, hinv, hcontent⟩ :=
    appendAndAnswer_grows (bits := payloadBits s src nbits) hb (by rwa [length_payloadBits])
  rw [length_payloadBits] at hanswer
  exact ⟨b, (exec_bbappm_of_fits hf hr hc).trans (congrArg _ hanswer), hinv, hcontent⟩

/-- Settles O29: the two appends are inverted by their own lemmas, every other command by `exec_bb_cases`. -/
theorem builderContentOnlyGrows : Obligations.BuilderContentOnlyGrows := by
  intro i s t hb h hreset hnew
  refine ⟨exec_keeps_builderInv hb h, ?_⟩
  by_cases happ : ∃ width value, i = .bbapp width value
  · obtain ⟨width, value, rfl⟩ := happ
    rcases exec_bbapp_cases h with ⟨c, hc, rfl⟩ | ⟨hc, rfl⟩
    · exact .inl ⟨rfl, .inl (by simpa using hc)⟩
    · rw [← length_msbFirst width value] at hc
      refine .inr (.inl ⟨rfl, width, value, rfl, ?_⟩)
      rw [← msbFirst_eq]
      exact (builderInv_appendBits hb hc).2.1
  by_cases happm : ∃ src nbits, i = .bbappm src nbits
  · obtain ⟨src, nbits, rfl⟩ := happm
    rcases exec_bbappm_cases h with ⟨c, hc, rfl⟩ | ⟨hc, rfl⟩
    · exact .inl ⟨rfl, .inl (by simpa using hc)⟩
    · rw [← length_payloadBits s src nbits] at hc
      refine .inr (.inr ⟨rfl, src, nbits, rfl, ?_⟩)
      rw [← payloadBits_eq]
      exact (builderInv_appendBits hb hc).2.1
  · rcases exec_bb_cases h with ht | ⟨he | he, -⟩ | ⟨w, v, he, -⟩ | ⟨src, n, he, -⟩
    · exact .inl ⟨ht, .inr fun w v src n => ⟨fun he => happ ⟨w, v, he⟩, fun he => happm ⟨src, n, he⟩⟩⟩
    · exact absurd he hreset
    · exact absurd he hnew
    · exact absurd ⟨w, v, he⟩ happ
    · exact absurd ⟨src, n, he⟩ happm

end Sys2Proof.Proofs
end

section
/-! SUPPORT. The laws of BBAPP (spec/41_bit_builder.md R146): the bits of a joined value, of a byte and of zeros. -/

namespace Sys2Proof.Proofs

open Sys2Proof.Machine Sys2Proof.Safety Sys2Proof.Laws

/-! ### The joined value of the split law -/

/-- Joining a value that fits `m` bits in front of one of `n` bits loses no bit when the word has room for both. -/
theorem toNat_shiftLeft_or {m n : Nat} {v₁ v₂ : Word} (hw : m + n ≤ 32) (h₁ : v₁.toNat < 2 ^ m) :
    ((v₁ <<< n) ||| v₂).toNat = v₁.toNat <<< n ||| v₂.toNat := by
  have hlt : v₁.toNat <<< n < 2 ^ 32 :=
    calc v₁.toNat <<< n = v₁.toNat * 2 ^ n := Nat.shiftLeft_eq ..
      _ < 2 ^ m * 2 ^ n := Nat.mul_lt_mul_of_pos_right h₁ (Nat.two_pow_pos n)
      _ = 2 ^ (m + n) := (Nat.pow_add ..).symm
      _ ≤ 2 ^ 32 := Nat.pow_le_pow_right (by decide) hw
  rw [BitVec.toNat_or, BitVec.toNat_shiftLeft, Nat.mod_eq_of_lt hlt]

theorem shiftLeft_or_lt {m n a b : Nat} (ha : a < 2 ^ m) (hb : b < 2 ^ n) : a <<< n ||| b < 2 ^ (m + n) := by
  refine Nat.or_lt_two_pow ?_ (Nat.lt_of_lt_of_le hb (Nat.pow_le_pow_right (by decide) (Nat.le_add_left n m)))
  rw [Nat.shiftLeft_eq, Nat.pow_add]
  exact Nat.mul_lt_mul_of_pos_right ha (Nat.two_pow_pos n)

/-- The bits of the joined value are those of the first value and then those of the second. -/
theorem msbFirst_shiftLeft_or {m n : Nat} {v₁ v₂ : Word} (hw : m + n ≤ 32) (h₁ : v₁.toNat < 2 ^ m)
    (h₂ : v₂.toNat < 2 ^ n) : msbFirst (m + n) ((v₁ <<< n) ||| v₂) = msbFirst m v₁ ++ msbFirst n v₂ := by
  rw [msbFirst_eq, msbFirst_eq, msbFirst_eq, toNat_shiftLeft_or hw h₁, List.range_add, List.map_append, List.map_map]
  congr 1
  · refine List.map_congr_left fun k hk => ?_
    have hk := List.mem_range.mp hk
    have hhigh : v₂.toNat.testBit (m + n - 1 - k) = false :=
      Nat.testBit_lt_two_pow (Nat.lt_of_lt_of_le h₂ (Nat.pow_le_pow_right (by decide) (by omega)))
    rw [Nat.testBit_or, hhigh, Nat.testBit_shiftLeft, decide_eq_true (by omega), Bool.or_false, Bool.true_and,
      show m + n - 1 - k - n = m - 1 - k by omega]
  · refine List.map_congr_left fun k hk => ?_
    have hk := List.mem_range.mp hk
    rw [Function.comp_apply, show m + n - 1 - (m + k) = n - 1 - k by omega, Nat.testBit_or, Nat.testBit_shiftLeft,
      decide_eq_false (by omega), Bool.false_and, Bool.false_or]

/-! ### Bytes of `BITBUF` -/

/-- A byte of `BITBUF` holds eight bits of the content, the most significant first (R140). -/
theorem getLsbD_readAt_bitbuf (bb : Builder) (k : Nat) {j : Nat} (hj : j < 8) :
    (readAt bb.bitbuf 0 k).getLsbD j = builderBit bb (8 * k + (7 - j)) := by
  rw [builderBit, seqBit, show (8 * k + (7 - j)) / 8 = k by omega, show 7 - (8 * k + (7 - j)) % 8 = j by omega]

/-- Each bit of an append within the capacity (R146 (a)). -/
theorem builderBit_appendBits_new {bb : Builder} {bits : List Bool} (hb : BuilderInv bb)
    (hc : bb.bblen.toNat + bits.length ≤ 32768) {k : Nat} (hk : k < bits.length) :
    builderBit (appendBits bb bits) (bb.bblen.toNat + k) = bits.getD k false := by
  rw [builderBit_appendBits bits bb _ hc, if_pos (by omega), hb.2 _ (Nat.le_add_right ..), Bool.false_or,
    Nat.add_sub_cancel_left]

theorem builderBit_appendBits_old {bb : Builder} {bits : List Bool} (hc : bb.bblen.toNat + bits.length ≤ 32768) {i : Nat}
    (hi : i < bb.bblen.toNat) : builderBit (appendBits bb bits) i = builderBit bb i := by
  rw [builderBit_appendBits bits bb _ hc, if_neg (by omega)]

/-- At a byte boundary eight appended bits are the whole byte (R146 (c)). -/
theorem readAt_appendBits_byte {bb : Builder} (hb : BuilderInv bb) (h8 : bb.bblen.toNat % 8 = 0)
    (hc : bb.bblen.toNat + 8 ≤ 32768) (v : Word) :
    readAt (appendBits bb (msbFirst 8 v)).bitbuf 0 (bb.bblen.toNat / 8) = v.setWidth 8 := by
  refine BitVec.eq_of_getLsbD_eq fun j hj => ?_
  have hk : 7 - j < (msbFirst 8 v).length := by rw [length_msbFirst]; omega
  rw [getLsbD_readAt_bitbuf _ _ hj, show 8 * (bb.bblen.toNat / 8) = bb.bblen.toNat by omega,
    builderBit_appendBits_new hb (by rwa [length_msbFirst]) hk, getD_msbFirst _ _ (by omega),
    show 8 - 1 - (7 - j) = j by omega, BitVec.getLsbD_setWidth, decide_eq_true hj, Bool.true_and]

theorem writeAt_readAt_self {α : Type} {n : Nat} (v : Vector α n) (d : α) (i : Nat) : writeAt v i (readAt v d i) = v := by
  unfold writeAt readAt
  split <;> simp

theorem bitbuf_appendBit_false (bb : Builder) : (appendBit bb false).bitbuf = bb.bitbuf := by
  have hz : BitVec.ofNat 8 (bit01 false) <<< (7 - bb.bblen.toNat % 8) = 0#8 := BitVec.zero_shiftLeft _
  rw [appendBit, hz, BitVec.or_zero, writeAt_readAt_self]

/-- Appending zeros changes no byte of `BITBUF` (R146 (d)). -/
theorem bitbuf_appendBits_zeros (bb : Builder) (n : Nat) :
    (appendBits bb (List.replicate n false)).bitbuf = bb.bitbuf := by
  induction n generalizing bb with
  | zero => rfl
  | succ n ih => exact (ih (appendBit bb false)).trans (bitbuf_appendBit_false bb)

theorem msbFirst_zero (n : Nat) : msbFirst n 0 = List.replicate n false := by
  simp [msbFirst, List.map_const']

/-! ### The laws -/

/-- A successful BBAPP leaves the new length, the new bits and the old bits (R146 (a)). -/
theorem exec_bbapp_bits {s t : State} {width : Nat} {value : Word} (hb : BuilderInv s.bb)
    (h : exec (.bbapp width value) s = .next t) (hok : statusOf t = some 0) :
    t.bb.bblen.toNat = s.bb.bblen.toNat + width ∧
    (∀ k, k < width → builderBit t.bb (s.bb.bblen.toNat + k) = value.toNat.testBit (width - 1 - k)) ∧
    ∀ i, i < s.bb.bblen.toNat → builderBit t.bb i = builderBit s.bb i := by
  rcases exec_bbapp_cases h with ⟨c, hc, rfl⟩ | ⟨hc, rfl⟩
  · exact absurd (Option.some.inj hok) hc
  · have hl : (msbFirst width value).length = width := length_msbFirst width value
    have hc' : s.bb.bblen.toNat + (msbFirst width value).length ≤ 32768 := by rwa [hl]
    refine ⟨?_, fun k hk => ?_, fun i hi => builderBit_appendBits_old hc' hi⟩
    · rw [appendAndAnswer_bb, bblen_appendBits _ _ hc', hl]
    · rw [appendAndAnswer_bb, builderBit_appendBits_new hb hc' (by rwa [hl]), getD_msbFirst _ _ hk, BitVec.testBit_toNat]

theorem runAll_cons {i : Instr} {s t : State} (h : exec i s = .next t) (rest : List Instr) :
    runAll (i :: rest) s = runAll rest t := by
  simp only [runAll, h]

theorem runAll_append (xs ys : List Instr) (s : State) : runAll (xs ++ ys) s = (runAll xs s).bind (runAll ys) := by
  induction xs generalizing s with
  | nil => rfl
  | cons i rest ih =>
    obtain ⟨t, ht⟩ := exec_total i s
    rw [List.cons_append, runAll_cons ht, runAll_cons ht, ih]

/-- Two BBAPPs leave the state of the one BBAPP of the joined value (R146 (b)). -/
theorem runAll_two_bbapps {s : State} {w₁ w₂ : Nat} {v₁ v₂ : Word} (hf : s.status.fatal = false) (hw : w₁ + w₂ ≤ 32)
    (h₁ : v₁.toNat < 2 ^ w₁) (h₂ : v₂.toNat < 2 ^ w₂) (hc : s.bb.bblen.toNat + w₁ + w₂ ≤ 32768) :
    ∃ t, runAll [.bbapp w₁ v₁, .bbapp w₂ v₂] s = some t ∧ statusOf t = some 0 ∧
      exec (.bbapp (w₁ + w₂) ((v₁ <<< w₂) ||| v₂)) s = .next t := by
  have hfirst := exec_bbapp_of_fits hf (by omega) h₁ (by omega)
  have hlen : (appendAndAnswer (msbFirst w₁ v₁) s).bb.bblen.toNat = s.bb.bblen.toNat + w₁ := by
    rw [appendAndAnswer_bb, bblen_appendBits _ _ (by rw [length_msbFirst]; exact Nat.le_of_add_right_le hc), length_msbFirst]
  have hsecond := exec_bbapp_of_fits (s := appendAndAnswer (msbFirst w₁ v₁) s) hf (by omega) h₂ (by rwa [hlen])
  have hjoined : ((v₁ <<< w₂) ||| v₂).toNat < 2 ^ (w₁ + w₂) := by
    rw [toNat_shiftLeft_or hw h₁]
    exact shiftLeft_or_lt h₁ h₂
  refine ⟨_, (runAll_cons hfirst _).trans (runAll_cons hsecond []), rfl, ?_⟩
  rw [exec_bbapp_of_fits hf hw hjoined (by omega), msbFirst_shiftLeft_or hw h₁ h₂, appendAndAnswer_appendAndAnswer]

/-- Settles O25, one lemma for each law. -/
theorem bbappLaws : Obligations.BbappLaws := by
  refine ⟨fun s t width value => exec_bbapp_bits, fun s w₁ w₂ v₁ v₂ hf _ => runAll_two_bbapps hf,
    fun s v hf hb h8 hv hc => ?_, fun s n hf hb hn hc => ?_⟩
  · exact ⟨_, exec_bbapp_of_fits hf (by decide) hv hc, rfl, readAt_appendBits_byte hb h8 hc v⟩
  · have hexec := exec_bbapp_of_fits (value := 0) hf hn (Nat.two_pow_pos n) hc
    refine ⟨_, hexec, rfl, ?_, (exec_bbapp_bits hb hexec rfl).1⟩
    rw [msbFirst_zero]
    exact bitbuf_appendBits_zeros s.bb n

end Sys2Proof.Proofs
end

section
/-! SUPPORT. BBAPPM as a run of BBAPPs (spec/41_bit_builder.md R148). -/

namespace Sys2Proof.Proofs

open Sys2Proof.Machine Sys2Proof.Safety Sys2Proof.Laws

variable {s : State} {src nbits : Nat}

/-- The first `r` bits of a byte, as the value BBAPP appends them from. -/
def leadingBits (b : Byte) (r : Nat) : Word := b.setWidth 32 >>> (8 - r)

theorem leadingBits_eight (b : Byte) : leadingBits b 8 = b.setWidth 32 := BitVec.ushiftRight_zero _

theorem toNat_leadingBits_lt (b : Byte) {r : Nat} (hr : r ≤ 8) : (leadingBits b r).toNat < 2 ^ r := by
  have hb : b.toNat < 2 ^ (8 - r) * 2 ^ r := by
    rw [← Nat.pow_add, Nat.sub_add_cancel hr]
    exact b.isLt
  rw [leadingBits, BitVec.toNat_ushiftRight, BitVec.toNat_setWidth_of_le (by decide), Nat.shiftRight_eq_div_pow]
  exact Nat.div_lt_of_lt_mul hb

theorem getLsbD_leadingBits (b : Byte) {r k : Nat} (hr : r ≤ 8) (hk : k < r) :
    (leadingBits b r).getLsbD (r - 1 - k) = b.getLsbD (7 - k) := by
  rw [leadingBits, BitVec.getLsbD_ushiftRight, BitVec.getLsbD_setWidth, show 8 - r + (r - 1 - k) = 7 - k by omega,
    decide_eq_true (by omega), Bool.true_and]

/-- The payload past a whole number of bytes goes on with the leading bits of the next byte (R10, R147). -/
theorem payloadBits_byte (s : State) (src k : Nat) {r : Nat} (hr : r ≤ 8) :
    payloadBits s src (8 * k + r) =
      payloadBits s src (8 * k) ++ msbFirst r (leadingBits (readByte s (src + k)) r) := by
  simp only [payloadBits, msbFirst, List.range_add, List.map_append, List.map_map]
  congr 1
  refine List.map_congr_left fun j hj => ?_
  have hj := List.mem_range.mp hj
  rw [getLsbD_leadingBits _ hr hj, Function.comp_apply, seqBit, show (8 * k + j) / 8 = k by omega,
    show (8 * k + j) % 8 = j by omega]

/-- The instructions run to a state with the bits appended and `STATUS` as it was. -/
def RunAppends (l : List Instr) (bits : List Bool) (s : State) : Prop :=
  ∃ u, runAll l s = some u ∧ u.bb = appendBits s.bb bits ∧ u.status = s.status

/-- One more BBAPP that the capacity admits appends its bits after those of the run. -/
theorem RunAppends.snoc {l : List Instr} {bits : List Bool} (h : RunAppends l bits s) (hf : s.status.fatal = false)
    {r : Nat} {v : Word} (hr : r ≤ 32) (hv : v.toNat < 2 ^ r) (hc : s.bb.bblen.toNat + (bits.length + r) ≤ 32768) :
    RunAppends (l ++ [.bbapp r v]) (bits ++ msbFirst r v) s := by
  obtain ⟨u, hrun, hbb, hst⟩ := h
  have hlen : u.bb.bblen.toNat = s.bb.bblen.toNat + bits.length := by
    rw [hbb]
    exact bblen_appendBits bits s.bb (Nat.le_of_add_right_le (Nat.add_assoc .. ▸ hc))
  have hexec := exec_bbapp_of_fits (hst ▸ hf) hr hv (by omega)
  refine ⟨appendAndAnswer (msbFirst r v) u, ?_, ?_, hst⟩
  · rw [runAll_append, hrun, Option.bind_some, runAll_cons hexec]
    rfl
  · rw [appendAndAnswer_bb, hbb, appendBits_append]

/-- One BBAPP per byte appends whole bytes of the payload. -/
theorem runAppends_bytes (hf : s.status.fatal = false) (src : Nat) {k : Nat} (hc : s.bb.bblen.toNat + 8 * k ≤ 32768) :
    RunAppends ((List.range k).map (fun j => .bbapp 8 ((readByte s (src + j)).setWidth 32)))
      (payloadBits s src (8 * k)) s := by
  induction k with
  | zero => exact ⟨s, rfl, rfl, rfl⟩
  | succ k ih =>
    rw [List.range_succ, List.map_append, List.map_singleton, Nat.mul_succ, payloadBits_byte s src k (Nat.le_refl 8),
      ← leadingBits_eight]
    exact (ih (by omega)).snoc hf (by decide) (toNat_leadingBits_lt _ (Nat.le_refl 8))
      (by rw [length_payloadBits]; omega)

/-- The appends that R148 names append the payload. -/
theorem runAppends_bytewiseAppends (hf : s.status.fatal = false) (src : Nat) (hc : s.bb.bblen.toNat + nbits ≤ 32768) :
    RunAppends (bytewiseAppends s src nbits) (payloadBits s src nbits) s := by
  have hbytes := runAppends_bytes hf src (k := nbits / 8) (by omega)
  rw [bytewiseAppends]
  split
  · next hz =>
    rw [List.append_nil]
    rwa [show 8 * (nbits / 8) = nbits by omega] at hbytes
  · have hr : nbits % 8 ≤ 8 := by omega
    have hsplit := payloadBits_byte s src (nbits / 8) hr
    rw [Nat.div_add_mod] at hsplit
    rw [hsplit]
    exact hbytes.snoc hf (by omega) (toNat_leadingBits_lt _ hr) (by rw [length_payloadBits]; omega)

/-- Settles O27: BBAPPM, the one BBAPP and the run of BBAPPs append the same bits. -/
theorem bbappmAgreesWithBbapp : Obligations.BbappmAgreesWithBbapp := by
  intro s src nbits hf hb hr hc
  have hexec := exec_bbappm_of_fits hf hr hc
  refine ⟨fun v hn hv hbits => ?_, ?_⟩
  · have hsame : msbFirst nbits v = payloadBits s src nbits := by
      rw [msbFirst_eq, payloadBits_eq]
      exact List.map_congr_left fun k hk => hbits k (List.mem_range.mp hk)
    exact ⟨_, _, hexec, exec_bbapp_of_fits hf hn hv hc, by rw [hsame], rfl, rfl⟩
  · obtain ⟨u, hrun, hbb, hst⟩ := runAppends_bytewiseAppends hf src hc
    exact ⟨_, u, hexec, hrun, hbb.symm, hst⟩

end Sys2Proof.Proofs
end

section
/-! SUPPORT. BBTOB (spec/41_bit_builder.md R149): the content written to `DMEM`. -/

namespace Sys2Proof.Proofs

open Sys2Proof.Machine Sys2Proof.Safety Sys2Proof.Laws

variable {s : State} {dst : Nat}

theorem length_builderBytes (bb : Builder) : (builderBytes bb).length = bytesFor bb.bblen.toNat := by
  simp [builderBytes]

theorem getD_builderBytes (bb : Builder) {k : Nat} (hk : k < bytesFor bb.bblen.toNat) :
    (builderBytes bb).getD k 0 = readAt bb.bitbuf 0 k := by
  simp [builderBytes, List.getD_eq_getElem?_getD, hk]

/-- Writing a range changes `DMEM` alone, as one equation. -/
theorem writeRange_eq (s : State) (dst : Nat) (bytes : List Byte) :
    writeRange s dst bytes = { s with dmem := (writeRange s dst bytes).dmem } := by
  induction bytes generalizing s dst with
  | nil => rfl
  | cons v rest ih =>
    rw [writeRange, ih]
    rfl

/-- The state BBTOB leaves after its range check. -/
def copied (dst : Nat) (s : State) : State :=
  answered (BitVec.ofNat 32 (bytesFor s.bb.bblen.toNat)) (writeRange s dst (builderBytes s.bb))

theorem exec_bbtob_of_outside (hf : s.status.fatal = false) (h : dst + (s.bb.bblen.toNat + 7) / 8 > 8192) :
    exec (.bbtob dst) s = .next (refusedWith 6 s) := by
  have hr : ¬ rangeFits dst (bytesFor s.bb.bblen.toNat) = true := by
    rw [rangeFits_iff]
    exact Nat.not_le_of_gt h
  rw [exec_bbtob hf, if_pos (Bool.eq_false_of_not_eq_true hr)]

theorem exec_bbtob_of_fits (hf : s.status.fatal = false) (h : dst + (s.bb.bblen.toNat + 7) / 8 ≤ 8192) :
    exec (.bbtob dst) s = .next (copied dst s) := by
  rw [exec_bbtob hf, (rangeFits_iff dst (bytesFor s.bb.bblen.toNat)).mpr h, if_neg Bool.noConfusion]
  rfl

theorem readByte_copied (dst : Nat) (s : State) (a : Nat) :
    readByte (copied dst s) a =
      if dst ≤ a ∧ a < dst + bytesFor s.bb.bblen.toNat then (builderBytes s.bb).getD (a - dst) 0 else readByte s a := by
  rw [copied, readByte_answered, readByte_writeRange, length_builderBytes]

theorem readByte_copied_inside {k : Nat} (hk : k < bytesFor s.bb.bblen.toNat) :
    readByte (copied dst s) (dst + k) = readAt s.bb.bitbuf 0 k := by
  rw [readByte_copied, if_pos (by omega), Nat.add_sub_cancel_left, getD_builderBytes s.bb hk]

theorem readByte_copied_outside {a : Nat} (h : a < dst ∨ dst + bytesFor s.bb.bblen.toNat ≤ a) :
    readByte (copied dst s) a = readByte s a := by
  rw [readByte_copied, if_neg (by omega)]

theorem memoryBit_copied {i : Nat} (hi : i < 8 * bytesFor s.bb.bblen.toNat) :
    memoryBit (copied dst s) dst i = builderBit s.bb i := by
  rw [memoryBit, readByte_copied_inside (by omega)]
  rfl

/-- Settles O28: the bytes copied are those of `BITBUF`, whose bits from `BBLEN` on the invariant keeps zero. -/
theorem bbtobCopiesTheContent : Obligations.BbtobCopiesTheContent := by
  refine fun s dst hf hb => ⟨exec_bbtob_of_outside hf, fun hr => ⟨_, exec_bbtob_of_fits hf hr, ?_,
    fun k => readByte_copied_inside, fun i hi => memoryBit_copied (by rw [bytesFor]; omega), fun i hi hlt => ?_,
    fun a => readByte_copied_outside⟩⟩
  · exact congrArg (answered _) (writeRange_eq s dst _)
  · rw [memoryBit_copied hlt]
    exact hb.2 i hi

end Sys2Proof.Proofs
end

section
/-! SUPPORT. GF(256) (spec/42_galois_field.md): `gfmul` is linear in each operand and commutes with `timesX`, and every
byte is built from 1 by `timesX` and exclusive-or; the laws of R165 and R166 follow by induction on that. -/

namespace Sys2Proof.Proofs

open Sys2Proof.Machine Sys2Proof.Safety Sys2Proof.Laws

/-! ### One round of R162 -/

theorem ite_xor_eq {w : Nat} (a b : Bool) (c : BitVec w) :
    (if (a ^^ b) = true then c else 0) = (if a = true then c else 0) ^^^ (if b = true then c else 0) := by
  cases a <;> cases b <;> simp

theorem timesX_zero : timesX 0 = 0 := by decide

theorem timesX_xor (z z' : Byte) : timesX (z ^^^ z') = timesX z ^^^ timesX z' := by
  simp only [timesX, BitVec.getLsbD_xor, ite_xor_eq, BitVec.setWidth_xor, BitVec.shiftLeft_xor_distrib]
  ac_rfl

/-- No reduction where bit 7 is clear (R162). -/
theorem timesX_of_bit7_clear {z : Byte} (h : z.getLsbD 7 = false) : timesX z = z <<< 1 := by
  rw [timesX, h]
  simp

theorem timesX_ite (b : Bool) (x : Byte) :
    timesX (if b = true then x else 0) = if b = true then timesX x else 0 := by
  cases b
  · exact timesX_zero
  · rfl

theorem gfStep_xor_right (x y y' z z' : Byte) (i : Nat) :
    gfStep x (y ^^^ y') (z ^^^ z') i = gfStep x y z i ^^^ gfStep x y' z' i := by
  simp only [gfStep, timesX_xor, BitVec.getLsbD_xor, ite_xor_eq]
  ac_rfl

theorem gfStep_xor_left (x x' y z z' : Byte) (i : Nat) :
    gfStep (x ^^^ x') y (z ^^^ z') i = gfStep x y z i ^^^ gfStep x' y z' i := by
  have hadd : (if y.getLsbD i = true then x ^^^ x' else 0) =
      (if y.getLsbD i = true then x else 0) ^^^ (if y.getLsbD i = true then x' else 0) := by
    cases y.getLsbD i <;> simp
  simp only [gfStep, timesX_xor, hadd]
  ac_rfl

theorem gfStep_timesX (x y z : Byte) (i : Nat) : gfStep (timesX x) y (timesX z) i = timesX (gfStep x y z i) := by
  rw [gfStep, gfStep, timesX_xor, timesX_ite]

/-! ### Linearity -/

/-- Distribution over exclusive-or (R165). -/
theorem gfmul_xor (x y y' : Byte) : gfmul x (y ^^^ y') = gfmul x y ^^^ gfmul x y' := by
  have h := List.foldl_hom₂ [7, 6, 5, 4, 3, 2, 1, 0] (· ^^^ ·) _ _ _ 0 0
    fun z z' i => (gfStep_xor_right x y y' z z' i).symm
  rwa [BitVec.xor_self] at h

theorem xor_gfmul (x x' y : Byte) : gfmul (x ^^^ x') y = gfmul x y ^^^ gfmul x' y := by
  have h := List.foldl_hom₂ [7, 6, 5, 4, 3, 2, 1, 0] (· ^^^ ·) _ _ _ 0 0
    fun z z' i => (gfStep_xor_left x x' y z z' i).symm
  rwa [BitVec.xor_self] at h

theorem timesX_gfmul (x y : Byte) : gfmul (timesX x) y = timesX (gfmul x y) := by
  have h := List.foldl_hom (l := [7, 6, 5, 4, 3, 2, 1, 0]) (init := 0) timesX fun z i => gfStep_timesX x y z i
  rwa [timesX_zero] at h

theorem gfmul_zero (x : Byte) : gfmul x 0 = 0 := by
  have h := gfmul_xor x 0 0
  rwa [BitVec.xor_self, BitVec.xor_self] at h

theorem zero_gfmul (y : Byte) : gfmul 0 y = 0 := by
  have h := xor_gfmul 0 0 y
  rwa [BitVec.xor_self, BitVec.xor_self] at h

/-- The round for bit `n` with 1 as the first operand takes the bits of `y` above `n` to those from `n` on: bit 7 is
clear before it, so nothing is reduced. -/
theorem gfStep_one_ushiftRight (y : Byte) (n : Nat) : gfStep 1 y (y >>> (n + 1)) n = y >>> n := by
  have htop : (y >>> (n + 1)).getLsbD 7 = false := by
    rw [BitVec.getLsbD_ushiftRight]
    exact BitVec.getLsbD_of_ge _ _ (by omega)
  refine BitVec.eq_of_getLsbD_eq fun j hj => ?_
  rw [gfStep, timesX_of_bit7_clear htop, BitVec.getLsbD_xor, BitVec.getLsbD_ushiftRight]
  cases j with
  | zero =>
    rw [Nat.add_zero]
    cases y.getLsbD n <;> simp
  | succ j =>
    have hone : (if y.getLsbD n = true then 1 else 0 : Byte).getLsbD (j + 1) = false := by cases y.getLsbD n <;> simp
    rw [hone, BitVec.getLsbD_shiftLeft, BitVec.getLsbD_ushiftRight, decide_eq_true hj, decide_eq_false (by omega)]
    simp [Nat.add_assoc, Nat.add_comm 1 j]

theorem one_gfmul (y : Byte) : gfmul 1 y = y := by
  have hround (n : Nat) : (List.range n).reverse.foldl (gfStep 1 y) (y >>> n) = y := by
    induction n with
    | zero => exact BitVec.ushiftRight_zero y
    | succ n ih => rwa [List.range_succ, List.reverse_concat, List.foldl_cons, gfStep_one_ushiftRight]
  have h := hround 8
  rwa [BitVec.ushiftRight_eq_zero (Nat.le_refl 8)] at h

/-- Every byte is built from 0 and 1 by `timesX` and exclusive-or: the product with 1 is built so. -/
theorem byte_induction {P : Byte → Prop} (zero : P 0) (one : P 1) (shift : ∀ y, P y → P (timesX y))
    (add : ∀ y z, P y → P z → P (y ^^^ z)) (y : Byte) : P y := by
  have hstep (z : Byte) (hz : P z) (i : Nat) : P (gfStep 1 y z i) := by
    refine add _ _ (shift z hz) ?_
    split
    · exact one
    · exact zero
  rw [← one_gfmul y]
  exact List.foldlRecOn _ _ zero fun z hz i _ => hstep z hz i

/-! ### The laws of R165 and R166 -/

theorem gfmul_one (x : Byte) : gfmul x 1 = x := by
  induction x using byte_induction with
  | zero => exact zero_gfmul 1
  | one => exact one_gfmul 1
  | shift x ih => rw [timesX_gfmul, ih]
  | add x x' ih ih' => rw [xor_gfmul, ih, ih']

/-- By induction on the first operand, so the reduction polynomial is never looked at. -/
theorem gfmul_timesX (x y : Byte) : gfmul x (timesX y) = timesX (gfmul x y) := by
  induction x using byte_induction with
  | zero => simp only [zero_gfmul, timesX_zero]
  | one => simp only [one_gfmul]
  | shift x ih => rw [timesX_gfmul, timesX_gfmul, ih]
  | add x x' ih ih' => rw [xor_gfmul, xor_gfmul, timesX_xor, ih, ih']

theorem gfmul_comm (x y : Byte) : gfmul x y = gfmul y x := by
  induction y using byte_induction with
  | zero => rw [gfmul_zero, zero_gfmul]
  | one => rw [gfmul_one, one_gfmul]
  | shift y ih => rw [gfmul_timesX, timesX_gfmul, ih]
  | add y y' ih ih' => rw [gfmul_xor, xor_gfmul, ih, ih']

theorem gfmul_assoc (x y z : Byte) : gfmul (gfmul x y) z = gfmul x (gfmul y z) := by
  induction x using byte_induction with
  | zero => simp only [zero_gfmul]
  | one => simp only [one_gfmul]
  | shift x ih => simp only [timesX_gfmul, ih]
  | add x x' ih ih' => simp only [xor_gfmul, ih, ih']

/-! ### The powers of 2 -/

theorem gfmul_two (x : Byte) : gfmul x 2 = timesX x := by
  have h := gfmul_timesX x 1
  rwa [gfmul_one, show timesX 1 = 2 by decide] at h

theorem powerOfTwo_eq_iterate (k : Nat) : powerOfTwo k = timesX^[k] 1 := by
  induction k with
  | zero => rfl
  | succ k ih => rw [powerOfTwo, gfmul_two, ih, Function.iterate_succ_apply']

theorem powerOfTwo_add (m n : Nat) : powerOfTwo (m + n) = gfmul (powerOfTwo m) (powerOfTwo n) := by
  induction n with
  | zero => exact (gfmul_one _).symm
  | succ n ih => rw [← Nat.add_assoc, powerOfTwo, powerOfTwo, ih, gfmul_assoc]

/-- 2 has order 255 (R166). 15, 51 and 85 are 255 by each of its primes: every proper divisor of 255 divides one of
them. -/
theorem minimalPeriod_timesX : Function.minimalPeriod timesX 1 = 255 := by
  have hper : Function.IsPeriodicPt timesX 255 1 := by decide +kernel
  have hdvd : Function.minimalPeriod timesX 1 ∣ 255 := hper.minimalPeriod_dvd
  have hnot : ∀ m ∈ [15, 51, 85], ¬ Function.minimalPeriod timesX 1 ∣ m := by
    simp only [← Function.isPeriodicPt_iff_minimalPeriod_dvd]
    decide +kernel
  have hmem : Function.minimalPeriod timesX 1 ∈ Nat.divisors 255 := Nat.mem_divisors.mpr ⟨hdvd, by decide⟩
  have hproper : ∀ p ∈ Nat.divisors 255, p = 255 ∨ ∃ m ∈ [15, 51, 85], p ∣ m := by decide +kernel
  obtain h | ⟨m, hm, h⟩ := hproper _ hmem
  · exact h
  · exact absurd h (hnot m hm)

theorem powerOfTwo_injOn : Set.InjOn powerOfTwo (Set.Iio 255) := by
  have h := Function.iterate_injOn_Iio_minimalPeriod (f := timesX) (x := 1)
  rw [minimalPeriod_timesX] at h
  rwa [funext powerOfTwo_eq_iterate]

theorem powerOfTwo_255 : powerOfTwo 255 = 1 := by
  have h := Function.iterate_minimalPeriod (f := timesX) (x := 1)
  rwa [minimalPeriod_timesX, ← powerOfTwo_eq_iterate] at h

theorem powerOfTwo_gfmul_inverse {k : Nat} (hk : k ≤ 255) : gfmul (powerOfTwo k) (powerOfTwo (255 - k)) = 1 := by
  rw [← powerOfTwo_add, Nat.add_sub_cancel' hk, powerOfTwo_255]

theorem powerOfTwo_ne_zero {k : Nat} (hk : k ≤ 255) : powerOfTwo k ≠ 0 := by
  intro h
  have hinv := powerOfTwo_gfmul_inverse hk
  rw [h, zero_gfmul] at hinv
  exact absurd hinv (by decide)

/-- The 255 powers are distinct and not 0, so they are all the 255 non-zero bytes. -/
theorem exists_powerOfTwo_eq {x : Byte} (hx : x ≠ 0) : ∃ k, k < 255 ∧ powerOfTwo k = x := by
  have hsurj : Set.SurjOn powerOfTwo (Finset.range 255) (Finset.univ.erase (0 : Byte)) := by
    refine Finset.surjOn_of_injOn_of_card_le _ (fun k hk => ?_) ?_ ?_
    · simpa using powerOfTwo_ne_zero (Nat.le_of_lt (by simpa using hk))
    · simpa using powerOfTwo_injOn
    · rw [Finset.card_erase_of_mem (Finset.mem_univ _), Finset.card_univ, Finset.card_range,
        Fintype.card_congr BitVec.equivFin.toEquiv, Fintype.card_fin]
      decide
  simpa using hsurj (by simpa using hx)

/-! ### Inverses -/

theorem exists_gfmul_eq_one {x : Byte} (hx : x ≠ 0) : ∃ y, gfmul x y = 1 := by
  obtain ⟨k, hk, rfl⟩ := exists_powerOfTwo_eq hx
  exact ⟨_, powerOfTwo_gfmul_inverse (Nat.le_of_lt hk)⟩

theorem gfmul_left_cancel {x y z : Byte} (hx : x ≠ 0) (h : gfmul x y = gfmul x z) : y = z := by
  obtain ⟨u, hu⟩ := exists_gfmul_eq_one hx
  rw [gfmul_comm] at hu
  rw [← one_gfmul y, ← one_gfmul z, ← hu, gfmul_assoc, gfmul_assoc, h]

theorem gfmul_ne_zero {x y : Byte} (hx : x ≠ 0) (hy : y ≠ 0) : gfmul x y ≠ 0 :=
  fun h => hy (gfmul_left_cancel hx (h.trans (gfmul_zero x).symm))

/-- Settles O17: the laws one by one, the inverses and the unique exponents from `exists_powerOfTwo_eq`. -/
theorem fieldLawsAndPowersOfTwo : Obligations.FieldLawsAndPowersOfTwo := by
  refine ⟨gfmul_comm, gfmul_xor, gfmul_zero, gfmul_assoc, gfmul_one, fun x y => gfmul_ne_zero, fun x hx => ?_,
    by decide +kernel, by decide +kernel, by decide +kernel, powerOfTwo_255, fun x hx => ?_⟩
  · obtain ⟨y, hy⟩ := exists_gfmul_eq_one hx
    exact ⟨y, hy, fun z hz => gfmul_left_cancel hx (hz.trans hy.symm)⟩
  · obtain ⟨k, hk, rfl⟩ := exists_powerOfTwo_eq hx
    exact ⟨k, hk, rfl, fun j hj h => powerOfTwo_injOn hj hk h⟩

end Sys2Proof.Proofs
end

section
/-! SUPPORT. GFMUL against the carry-less product (spec/42_galois_field.md R160, R162, R163). -/

namespace Sys2Proof.Proofs

open Sys2Proof.Machine Sys2Proof.Safety Sys2Proof.Laws

/-! ### The carry-less product -/

theorem clmul_succ (n a b : Nat) :
    clmul (n + 1) a b = clmul n a b ^^^ if b.testBit n then a <<< n else 0 := by
  rw [clmul, List.range_succ, List.foldl_append]
  rfl

theorem xor_clmul (n a a' b : Nat) : clmul n (a ^^^ a') b = clmul n a b ^^^ clmul n a' b := by
  induction n with
  | zero => exact (Nat.xor_self 0).symm
  | succ n ih =>
    rw [clmul_succ, clmul_succ, clmul_succ, ih, Nat.shiftLeft_xor_distrib]
    split
    · ac_rfl
    · simp only [Nat.xor_zero]

theorem shiftLeft_clmul (n a b i : Nat) : clmul n (a <<< i) b = clmul n a b <<< i := by
  induction n with
  | zero => exact (Nat.zero_shiftLeft i).symm
  | succ n ih =>
    rw [clmul_succ, clmul_succ, ih, Nat.shiftLeft_xor_distrib]
    split
    · rw [← Nat.shiftLeft_add, ← Nat.shiftLeft_add, Nat.add_comm]
    · rw [Nat.zero_shiftLeft]

/-! ### The loop of R162 modulo `0x11D` -/

/-- The polynomial `m` is `z` plus a multiple of the reduction polynomial (R160). -/
def ReducesTo (m : Nat) (z : Byte) : Prop := ∃ q, m = z.toNat ^^^ clmul 9 q 0x11D

/-- Doubling takes 8 bits to 9, and the exclusive-or with `0x11D` takes bit 8 away again (R162). -/
theorem toNat_timesX (z : Byte) :
    (timesX z).toNat = z.toNat <<< 1 ^^^ if z.getLsbD 7 = true then 0x11D else 0 := by
  have hlt : (((z.setWidth 9) <<< 1) ^^^ (if z.getLsbD 7 then Config.gfPoly else 0)).toNat < 2 ^ (9 - 1) := by
    refine BitVec.toNat_lt_of_msb_false ?_
    rw [BitVec.msb_eq_getLsbD_last, BitVec.getLsbD_xor, BitVec.getLsbD_shiftLeft, BitVec.getLsbD_setWidth]
    cases z.getLsbD 7 <;> decide
  rw [timesX, BitVec.toNat_setWidth, Nat.mod_eq_of_lt hlt, BitVec.toNat_xor, BitVec.toNat_shiftLeft,
    BitVec.toNat_setWidth_of_le (by decide), Nat.mod_eq_of_lt (by have := z.isLt; omega)]
  split <;> rfl

theorem ReducesTo.shift {m : Nat} {z : Byte} (h : ReducesTo m z) : ReducesTo (m <<< 1) (timesX z) := by
  obtain ⟨q, rfl⟩ := h
  have hcarry : clmul 9 (if z.getLsbD 7 then 1 else 0) 0x11D = if z.getLsbD 7 = true then 0x11D else 0 := by
    cases z.getLsbD 7 <;> decide
  refine ⟨q <<< 1 ^^^ (if z.getLsbD 7 then 1 else 0), ?_⟩
  rw [xor_clmul, shiftLeft_clmul, hcarry, toNat_timesX, Nat.shiftLeft_xor_distrib]
  generalize (if z.getLsbD 7 = true then 0x11D else 0) = c
  calc z.toNat <<< 1 ^^^ clmul 9 q 0x11D <<< 1
      = z.toNat <<< 1 ^^^ clmul 9 q 0x11D <<< 1 ^^^ (c ^^^ c) := by rw [Nat.xor_self, Nat.xor_zero]
    _ = z.toNat <<< 1 ^^^ c ^^^ (clmul 9 q 0x11D <<< 1 ^^^ c) := by ac_rfl

theorem ReducesTo.xor {m : Nat} {z : Byte} (h : ReducesTo m z) (x : Byte) : ReducesTo (m ^^^ x.toNat) (z ^^^ x) := by
  obtain ⟨q, rfl⟩ := h
  exact ⟨q, by rw [BitVec.toNat_xor]; ac_rfl⟩

theorem ReducesTo.round {m : Nat} {z : Byte} (h : ReducesTo m z) (x y : Byte) (i : Nat) :
    ReducesTo (m <<< 1 ^^^ if y.toNat.testBit i then x.toNat else 0) (gfStep x y z i) := by
  rw [gfStep, BitVec.testBit_toNat]
  split
  · exact h.shift.xor x
  · simpa only [Nat.xor_zero, BitVec.ofNat_eq_ofNat, BitVec.xor_zero] using h.shift

/-- The loop invariant of R162: the rounds for the low `n` bits of `y` shift what there is by `n` and add the product of
`x` with those bits. -/
theorem ReducesTo.foldl_gfStep {m : Nat} {z : Byte} (h : ReducesTo m z) (x y : Byte) (n : Nat) :
    ReducesTo (m <<< n ^^^ clmul n x.toNat y.toNat) ((List.range n).reverse.foldl (gfStep x y) z) := by
  induction n generalizing m z with
  | zero =>
    rw [Nat.shiftLeft_zero]
    exact (Nat.xor_zero m).symm ▸ h
  | succ n ih =>
    rw [List.range_succ, List.reverse_concat, List.foldl_cons]
    have hround := ih (h.round x y n)
    have hm : (m <<< 1 ^^^ if y.toNat.testBit n then x.toNat else 0) <<< n ^^^ clmul n x.toNat y.toNat =
        m <<< (n + 1) ^^^ clmul (n + 1) x.toNat y.toNat := by
      rw [Nat.shiftLeft_xor_distrib, ← Nat.shiftLeft_add, Nat.add_comm 1 n, clmul_succ]
      split
      · ac_rfl
      · rw [Nat.zero_shiftLeft, Nat.xor_zero, Nat.xor_zero]
    exact hm ▸ hround

/-! ### GFMUL -/

/-- `gfmul` is the carry-less product modulo `0x11D` (R162). -/
theorem clmul_reducesTo_gfmul (x y : Byte) : ReducesTo (clmul 8 x.toNat y.toNat) (gfmul x y) := by
  have hzero : ReducesTo 0 0 := ⟨0, by decide⟩
  have h := ReducesTo.foldl_gfStep hzero x y 8
  rwa [Nat.zero_shiftLeft, Nat.zero_xor] at h

theorem exec_gfmul_of_bytes {s : State} (hf : s.status.fatal = false) (x y : Byte) :
    exec (.gfmul x.toNat y.toNat) s = .next (answered (BitVec.ofNat 32 (gfmul x y).toNat) s) := by
  rw [exec_gfmul hf, if_neg (by have := x.isLt; have := y.isLt; omega), BitVec.ofNat_toNat, BitVec.ofNat_toNat,
    BitVec.setWidth_eq, BitVec.setWidth_eq, BitVec.ofNat_toNat]

/-- Settles O16, by the loop invariant of R162. -/
theorem gfmulIsThePolynomialProduct : Obligations.GfmulIsThePolynomialProduct := by
  refine fun s x y hf => ⟨fun hx hy => ?_, fun h => by rw [exec_gfmul hf, if_pos h]⟩
  have hx' : (BitVec.ofNat 8 x).toNat = x := Nat.mod_eq_of_lt (Nat.lt_succ_of_le hx)
  have hy' : (BitVec.ofNat 8 y).toNat = y := Nat.mod_eq_of_lt (Nat.lt_succ_of_le hy)
  obtain ⟨q, hq⟩ := clmul_reducesTo_gfmul (BitVec.ofNat 8 x) (BitVec.ofNat 8 y)
  have hexec := exec_gfmul_of_bytes hf (BitVec.ofNat 8 x) (BitVec.ofNat 8 y)
  rw [hx', hy'] at hq hexec
  exact ⟨_, q, BitVec.isLt _, hq, hexec⟩

end Sys2Proof.Proofs
end

section
/-! SUPPORT. RSINIT and RSRDC (spec/43_reed_solomon.md R176 to R180): in Horner's scheme one pass of R177 on a monic
polynomial multiplies it by `x − root`, and the zeros in front of the polynomial only make room for the new coefficient. -/

namespace Sys2Proof.Proofs

open Sys2Proof.Machine Sys2Proof.Safety Sys2Proof.Laws

/-- `BitVec.zero_xor` for the literal `0 : Byte` of the model. -/
theorem zero_xor_byte (x : Byte) : 0 ^^^ x = x := BitVec.zero_xor

/-- `BitVec.xor_zero` for the literal `0 : Byte` of the model. -/
theorem xor_zero_byte (x : Byte) : x ^^^ 0 = x := BitVec.xor_zero

/-! ### Horner's scheme -/

/-- One round of Horner's scheme (R186). -/
def hornerStep (z acc c : Byte) : Byte := gfmul acc z ^^^ c

theorem evalAt_eq_foldl (z : Byte) (l : List Byte) : evalAt z l = l.foldl (hornerStep z) 0 := rfl

theorem zero_hornerStep (z c : Byte) : hornerStep z 0 c = c := by
  rw [hornerStep, zero_gfmul, zero_xor_byte]

theorem hornerStep_zero (z s : Byte) : hornerStep z s 0 = gfmul s z := xor_zero_byte _

theorem evalAt_cons (z c : Byte) (l : List Byte) : evalAt z (c :: l) = l.foldl (hornerStep z) c := by
  rw [evalAt_eq_foldl, List.foldl_cons, zero_hornerStep]

/-- One round commutes with a factor in `x`: `(s*(z+r) + c)*z + (c*r + d) = (s*z + c)*(z+r) + d`. -/
theorem hornerStep_timesRoot (z r s c d : Byte) :
    hornerStep z (gfmul s (z ^^^ r) ^^^ c) (gfmul c r ^^^ d) = gfmul (hornerStep z s c) (z ^^^ r) ^^^ d := by
  have hcomm : gfmul (gfmul s r) z = gfmul (gfmul s z) r := by rw [gfmul_assoc, gfmul_comm r z, gfmul_assoc]
  simp only [hornerStep, xor_gfmul, gfmul_xor, hcomm]
  ac_rfl

/-- Horner's scheme over a pass of R177, `s` being its value on the coefficients before `c`: the product of its value on
the list with `x − root` (R178). -/
theorem foldl_hornerStep_timesRoot (z r c : Byte) (l : List Byte) (s : Byte) :
    (timesRoot r (c :: l)).foldl (hornerStep z) (gfmul s (z ^^^ r) ^^^ c) =
      gfmul (l.foldl (hornerStep z) (hornerStep z s c)) (z ^^^ r) := by
  induction l generalizing s c with
  | nil =>
    have h := hornerStep_timesRoot z r s c 0
    rwa [xor_zero_byte, xor_zero_byte] at h
  | cons d l ih => rw [timesRoot, List.foldl_cons, hornerStep_timesRoot, ih, List.foldl_cons]

theorem evalAt_cons_timesRoot (z r c : Byte) (l : List Byte) :
    evalAt z (c :: timesRoot r (c :: l)) = gfmul (evalAt z (c :: l)) (z ^^^ r) := by
  have h := foldl_hornerStep_timesRoot z r c l 0
  rwa [zero_gfmul, zero_xor_byte, zero_hornerStep, ← evalAt_cons, ← evalAt_cons] at h

/-! ### The divisor polynomial -/

theorem timesRoot_zero_cons (r c : Byte) (l : List Byte) : timesRoot r (0 :: c :: l) = c :: timesRoot r (c :: l) := by
  rw [timesRoot, zero_gfmul, zero_xor_byte]

theorem timesRoot_zeros (r c : Byte) (l : List Byte) (n : Nat) :
    timesRoot r (List.replicate (n + 1) 0 ++ c :: l) = List.replicate n 0 ++ c :: timesRoot r (c :: l) := by
  induction n with
  | zero => exact timesRoot_zero_cons r c l
  | succ n ih => exact (timesRoot_zero_cons r 0 _).trans (congrArg (0 :: ·) ih)

theorem evalAt_timesRoot_powerOfTwo {z : Byte} {i : Nat} {l : List Byte} (h : evalAt z (1 :: l) = rootProduct z i) :
    evalAt z (1 :: timesRoot (powerOfTwo i) (1 :: l)) = rootProduct z (i + 1) := by
  rw [evalAt_cons_timesRoot, h, rootProduct]

/-- The rounds of R177 left over, from a monic polynomial in the low end of the vector on. -/
theorem evalAt_divisorRounds (z : Byte) (n : Nat) {i : Nat} {l : List Byte} (h : evalAt z (1 :: l) = rootProduct z i) :
    evalAt z (1 :: divisorRounds (n + 1) (powerOfTwo i) (List.replicate n 0 ++ 1 :: l)) =
      rootProduct z (i + (n + 1)) := by
  induction n generalizing i l with
  | zero => exact evalAt_timesRoot_powerOfTwo h
  | succ n ih =>
    have hrest := ih (evalAt_timesRoot_powerOfTwo h)
    rwa [Nat.add_assoc, Nat.add_comm 1, ← timesRoot_zeros] at hrest

/-- The divisor below a leading 1 is the product of the `x − 2^i` (R176). -/
theorem evalAt_divisor (z : Byte) {d : Nat} (h : 1 ≤ d) : evalAt z (1 :: divisor d) = rootProduct z d := by
  have hone : evalAt z [1] = rootProduct z 0 := evalAt_cons z 1 []
  have hrounds := evalAt_divisorRounds z (d - 1) hone
  rwa [Nat.sub_add_cancel h, Nat.zero_add] at hrounds

theorem rootProduct_powerOfTwo {i d : Nat} (h : i < d) : rootProduct (powerOfTwo i) d = 0 := by
  induction d with
  | zero => omega
  | succ d ih =>
    rw [rootProduct]
    rcases Nat.lt_succ_iff_lt_or_eq.mp h with hlt | rfl
    · rw [ih hlt, zero_gfmul]
    · rw [BitVec.xor_self]
      exact gfmul_zero _

/-! ### The stored generator -/

theorem toNat_rsdeg_generator {d : Nat} (h : d ≤ 255) : (generator d).rsdeg.toNat = d :=
  Nat.mod_eq_of_lt (Nat.lt_succ_of_le h)

theorem readAt_div_generator_of_ge {d j : Nat} (h : 1 ≤ d) (hj : d ≤ j) : readAt (generator d).div 0 j = 0 := by
  have hlen : (divisor d).length ≤ j := by rwa [length_divisor h]
  rw [generator, readAt_tabulate, List.getD_eq_default _ _ hlen, ite_self]

/-- Settles O18: the generator's coefficients are the divisor, whose value is the product by `evalAt_divisor`. -/
theorem rsinitBuildsTheDivisorPolynomial : Obligations.RsinitBuildsTheDivisorPolynomial := by
  refine fun s d hf => ⟨fun h1 h255 => ⟨generator d, ?_, toNat_rsdeg_generator h255,
    fun j => readAt_div_generator_of_ge h1, fun z => ?_⟩, fun h => by rw [exec_rsinit hf, if_pos h]⟩
  · rw [exec_rsinit hf, if_neg (by omega)]
  · have hdiv := divCoefficients_generator h1 h255
    rw [divCoefficients, toNat_rsdeg_generator h255] at hdiv
    rw [hdiv, evalAt_divisor z h1]

/-- Settles O19, test by test of R180. -/
theorem rsrdcReadsOneCoefficient : Obligations.RsrdcReadsOneCoefficient := by
  refine fun s i hf => ⟨fun h => ?_, fun h0 hi => ?_, fun hi => ?_⟩ <;> rw [exec_rsrdc hf]
  · rw [h]
    rfl
  · have hpos : s.rs.rsdeg.toNat ≠ 0 := fun h => h0 (BitVec.eq_of_toNat_eq h)
    rw [if_neg hpos, if_pos hi]
  · rw [if_neg (by omega), if_neg (Nat.not_le_of_lt hi), BitVec.ofNat_toNat]

end Sys2Proof.Proofs
end

section
/-! SUPPORT. The laws of the remainder (spec/43_reed_solomon.md R181, R184). -/

namespace Sys2Proof.Proofs

open Sys2Proof.Machine Sys2Proof.Safety Sys2Proof.Laws

/-! ### Bytewise exclusive-or -/

theorem xorBytes_interchange (a b c d : List Byte) :
    xorBytes (xorBytes a b) (xorBytes c d) = xorBytes (xorBytes a c) (xorBytes b d) := by
  refine List.ext_getElem ?_ fun k _ _ => ?_
  · simp only [xorBytes, List.length_zipWith]
    omega
  · simp only [xorBytes, List.getElem_zipWith]
    ac_rfl

theorem zeros_xorBytes (l : List Byte) : xorBytes (List.replicate l.length 0) l = l := by
  induction l with
  | nil => rfl
  | cons c l ih => exact congrArg₂ List.cons (zero_xor_byte c) ih

theorem map_gfmul_zero (l : List Byte) : l.map (gfmul · 0) = List.replicate l.length 0 := by
  simp only [gfmul_zero, List.map_const']

theorem map_gfmul_xor (l : List Byte) (f g : Byte) :
    l.map (gfmul · (f ^^^ g)) = xorBytes (l.map (gfmul · f)) (l.map (gfmul · g)) := by
  simp only [xorBytes, List.zipWith_map, List.zipWith_self, gfmul_xor]

/-- A loop over bytes whose round is additive on the states related by `R` is additive. -/
theorem foldl_xorBytes {σ : Type} {R : σ → σ → Prop} {add : σ → σ → σ} {f : σ → Byte → σ}
    (hR : ∀ u v x y, R u v → R (f u x) (f v y))
    (hf : ∀ u v x y, R u v → f (add u v) (x ^^^ y) = add (f u x) (f v y))
    {a b : List Byte} (hlen : a.length = b.length) {u v : σ} (h : R u v) :
    (xorBytes a b).foldl f (add u v) = add (a.foldl f u) (b.foldl f v) := by
  induction a generalizing b u v with
  | nil =>
    cases b with
    | nil => rfl
    | cons y b => cases hlen
  | cons x a ih =>
    cases b with
    | nil => cases hlen
    | cons y b =>
      have hround := ih (Nat.succ.inj hlen) (hR u v x y h)
      rwa [← hf u v x y h] at hround

/-! ### One byte through the shift register -/

/-- The round of R182: the register shifted, plus the divisor times the factor. -/
theorem remainderStep_eq (div rem : List Byte) (b : Byte) :
    remainderStep div rem b = xorBytes (rem.tail ++ [0]) (div.map (gfmul · (b ^^^ rem.headD 0))) := by
  rw [remainderStep, xorBytes, List.zipWith_map_right]

theorem remainderStep_zeros (div : List Byte) (b : Byte) :
    remainderStep div (List.replicate div.length 0) b = div.map (gfmul · b) := by
  cases div with
  | nil => rfl
  | cons c div =>
    have hshift : (List.replicate (c :: div).length (0 : Byte)).tail ++ [0] =
        List.replicate ((c :: div).map (gfmul · b)).length 0 := by
      rw [List.tail_replicate, List.length_map, List.length_cons, List.replicate_succ', Nat.add_sub_cancel]
    have hfactor : b ^^^ (List.replicate (c :: div).length (0 : Byte)).headD 0 = b := xor_zero_byte b
    rw [remainderStep_eq, hshift, hfactor, zeros_xorBytes]

theorem headD_xorBytes {r q : List Byte} (h : r.length = q.length) :
    (xorBytes r q).headD 0 = r.headD 0 ^^^ q.headD 0 := by
  cases r with
  | nil =>
    cases q with
    | nil => rfl
    | cons y q => cases h
  | cons x r =>
    cases q with
    | nil => cases h
    | cons y q => rfl

theorem shift_xorBytes {r q : List Byte} (h : r.length = q.length) :
    (xorBytes r q).tail ++ [0] = xorBytes (r.tail ++ [0]) (q.tail ++ [0]) := by
  have htail : r.tail.length = q.tail.length := by rw [List.length_tail, List.length_tail, h]
  rw [xorBytes, List.tail_zipWith, xorBytes, List.zipWith_append htail]
  rfl

theorem remainderStep_xorBytes (div : List Byte) {r q : List Byte} (h : r.length = q.length) (x y : Byte) :
    remainderStep div (xorBytes r q) (x ^^^ y) = xorBytes (remainderStep div r x) (remainderStep div q y) := by
  have hfactor : x ^^^ y ^^^ (r.headD 0 ^^^ q.headD 0) = (x ^^^ r.headD 0) ^^^ (y ^^^ q.headD 0) := by ac_rfl
  rw [remainderStep_eq, remainderStep_eq, remainderStep_eq, headD_xorBytes h, shift_xorBytes h, hfactor, map_gfmul_xor,
    xorBytes_interchange]

/-! ### The laws -/

theorem remainder_xorBytes (div : List Byte) {a b : List Byte} (h : a.length = b.length) :
    remainder div (xorBytes a b) = xorBytes (remainder div a) (remainder div b) := by
  have hlaw := foldl_xorBytes (R := fun r q => r.length = div.length ∧ q.length = div.length) (f := remainderStep div)
    (fun _ _ x y hrq => ⟨length_remainderStep x hrq.1, length_remainderStep y hrq.2⟩)
    (fun _ _ x y hrq => remainderStep_xorBytes div (hrq.1.trans hrq.2.symm) x y) h
    ⟨List.length_replicate (a := 0), List.length_replicate (a := 0)⟩
  have hzero := zeros_xorBytes (List.replicate div.length 0)
  rw [List.length_replicate] at hzero
  rwa [hzero] at hlaw

theorem remainder_zero_cons (div data : List Byte) : remainder div (0 :: data) = remainder div data := by
  rw [remainder, List.foldl_cons, remainderStep_zeros, map_gfmul_zero, remainder]

theorem remainder_one (div : List Byte) : remainder div [1] = div := by
  rw [remainder, List.foldl_cons, List.foldl_nil, remainderStep_zeros]
  simp only [gfmul_one, List.map_id']

/-- The divisor of degree 1 is `x − 1`: its register of one byte takes the exclusive-or. -/
theorem remainder_divisor_one (data : List Byte) : remainder (divisor 1) data = [data.foldl (· ^^^ ·) 0] := by
  have hdiv : divisor 1 = [1] := by decide
  have hround (r b : Byte) : remainderStep [1] [r] b = [r ^^^ b] := by
    show [0 ^^^ gfmul 1 (b ^^^ r)] = [r ^^^ b]
    rw [zero_xor_byte, one_gfmul, BitVec.xor_comm]
  rw [hdiv]
  exact List.foldl_hom (f := fun r => [r]) hround

/-- Settles O21, one lemma for each law; the vectors of degree 7 are run. -/
theorem remainderLaws : Obligations.RemainderLaws := by
  have hseven : divisor 7 = [127, 122, 154, 164, 11, 68, 117] := by decide +kernel
  refine ⟨fun div a b => remainder_xorBytes div, remainder_zero_cons, fun d _ _ => remainder_one _,
    (remainder_one _).trans hseven, remainder_divisor_one, ?_, ?_⟩ <;> rw [hseven] <;> decide +kernel

end Sys2Proof.Proofs
end

section
/-! SUPPORT. RSREM (spec/43_reed_solomon.md R182, R186): the bytes written, and the value of the codeword polynomial at a
root of the divisor. -/

namespace Sys2Proof.Proofs

open Sys2Proof.Machine Sys2Proof.Safety Sys2Proof.Laws

/-! ### The bytes written -/

theorem readRange_add (s : State) (src m n : Nat) :
    readRange s src (m + n) = readRange s src m ++ readRange s (src + m) n := by
  simp only [readRange, List.range_add, List.map_append, List.map_map, Function.comp_def, Nat.add_assoc]

theorem readRange_congr {s t : State} {src len : Nat} (h : ∀ k, k < len → readByte t (src + k) = readByte s (src + k)) :
    readRange t src len = readRange s src len :=
  List.map_congr_left fun k hk => h k (List.mem_range.mp hk)

theorem readRange_writeRange (s : State) (dst : Nat) (bytes : List Byte) :
    readRange (writeRange s dst bytes) dst bytes.length = bytes := by
  refine List.ext_getElem (length_readRange _ _ _) fun k hk hk' => ?_
  simp only [readRange, List.getElem_map, List.getElem_range]
  rw [readByte_writeRange, if_pos (by omega), Nat.add_sub_cancel_left, List.getD_eq_getElem _ _ hk']

/-- RSREM once a generator has been constructed, its range tests as arithmetic (R182). -/
theorem exec_rsrem_of_generator {s : State} (hf : s.status.fatal = false) (h0 : s.rs.rsdeg ≠ 0) (src len dst : Nat) :
    exec (.rsrem src len dst) s = .next (
      if src + len > 8192 ∨ dst + s.rs.rsdeg.toNat > 8192 then refusedWith 6 s
      else answered (BitVec.ofNat 32 s.rs.rsdeg.toNat)
        (writeRange s dst (remainder (divCoefficients s.rs) (readRange s src len)))) := by
  have hpos : s.rs.rsdeg.toNat ≠ 0 := fun h => h0 (BitVec.eq_of_toNat_eq h)
  rw [exec_rsrem hf, if_neg hpos, BitVec.ofNat_toNat]
  simp only [← Bool.not_eq_true, rangeFits_iff, Nat.not_le, ← ite_or]

/-- Settles O20: the tests in the order of R182, then the bytes of `writeRange`. -/
theorem rsremWritesTheRemainder : Obligations.RsremWritesTheRemainder := by
  refine fun s src len dst hf => ⟨fun h0 => ?_, fun h0 hout => ?_, fun h0 hsrc hdst => ?_⟩
  · rw [exec_rsrem hf, h0]
    rfl
  · rw [exec_rsrem_of_generator hf h0, if_pos hout]
  · have hlen : (remainder (divCoefficients s.rs) (readRange s src len)).length = s.rs.rsdeg.toNat := by
      rw [length_remainder, length_divCoefficients]
    rw [exec_rsrem_of_generator hf h0, if_neg (by omega)]
    refine ⟨_, rfl, congrArg (answered _) (writeRange_eq s dst _), ?_, fun a ha => ?_⟩
    · have hread := readRange_writeRange s dst (remainder (divCoefficients s.rs) (readRange s src len))
      rw [hlen] at hread
      exact (readRange_congr fun k _ => readByte_answered _ _ _).trans hread
    · rw [readByte_answered, readByte_writeRange, hlen, if_neg (by omega)]

/-! ### Syndromes -/

theorem foldl_hornerStep_xorBytes (z : Byte) {a b : List Byte} (h : a.length = b.length) (u v : Byte) :
    (xorBytes a b).foldl (hornerStep z) (u ^^^ v) = a.foldl (hornerStep z) u ^^^ b.foldl (hornerStep z) v :=
  foldl_xorBytes (R := fun _ _ => True) (add := (· ^^^ ·)) (fun _ _ _ _ _ => trivial)
    (fun u v x y _ => by simp only [hornerStep, xor_gfmul]; ac_rfl) h trivial

theorem evalAt_map_gfmul (z f : Byte) (l : List Byte) : evalAt z (l.map (gfmul · f)) = gfmul (evalAt z l) f := by
  have hround (acc c : Byte) : hornerStep z (gfmul acc f) (gfmul c f) = gfmul (hornerStep z acc c) f := by
    rw [hornerStep, hornerStep, xor_gfmul, gfmul_assoc, gfmul_comm f z, gfmul_assoc]
  have h := List.foldl_hom (l := l) (init := 0) (g₂ := fun acc c => hornerStep z acc (gfmul c f)) (gfmul · f) hround
  rwa [zero_gfmul, ← List.foldl_map] at h

/-- With its data byte in front, the register after a round is the old one times `x` plus a multiple of the monic
divisor (R181, R182). -/
theorem cons_remainderStep {div rem : List Byte} (h : rem.length = div.length) (b : Byte) :
    b :: remainderStep div rem b = xorBytes (rem ++ [0]) ((1 :: div).map (gfmul · (b ^^^ rem.headD 0))) := by
  have hlead (r : Byte) : r ^^^ gfmul 1 (b ^^^ r) = b := by
    rw [one_gfmul, BitVec.xor_comm, BitVec.xor_assoc, BitVec.xor_self, BitVec.xor_zero]
  rw [remainderStep_eq]
  cases rem with
  | nil =>
    rw [List.eq_nil_of_length_eq_zero h.symm]
    exact congrArg (· :: []) (hlead 0).symm
  | cons r rem => exact congrArg (· :: _) (hlead r).symm

/-- At a root of the monic divisor a round multiplies the value of the bytes read so far and the register by `x`. -/
theorem foldl_hornerStep_remainderStep {z : Byte} {div rem : List Byte} (hz : evalAt z (1 :: div) = 0)
    (h : rem.length = div.length) (acc b : Byte) :
    (remainderStep div rem b).foldl (hornerStep z) (hornerStep z acc b) =
      gfmul (rem.foldl (hornerStep z) acc) z := by
  have hlen : (rem ++ [0]).length = ((1 :: div).map (gfmul · (b ^^^ rem.headD 0))).length := by simp [h]
  have hmultiple : evalAt z ((1 :: div).map (gfmul · (b ^^^ rem.headD 0))) = 0 := by
    rw [evalAt_map_gfmul, hz, zero_gfmul]
  have hsum := foldl_hornerStep_xorBytes z hlen acc 0
  rwa [← cons_remainderStep h, List.foldl_cons, ← evalAt_eq_foldl, hmultiple, xor_zero_byte, xor_zero_byte,
    List.foldl_concat, hornerStep_zero] at hsum

/-- The invariant of the loop of R182 at a root of the monic divisor: the bytes read so far and the register together
have the value 0. -/
theorem foldl_remainderStep_root {z : Byte} {div : List Byte} (hz : evalAt z (1 :: div) = 0) (data : List Byte)
    {rem : List Byte} (hlen : rem.length = div.length) {acc : Byte} (h : rem.foldl (hornerStep z) acc = 0) :
    (data.foldl (remainderStep div) rem).foldl (hornerStep z) (data.foldl (hornerStep z) acc) = 0 := by
  induction data generalizing rem acc with
  | nil => exact h
  | cons b data ih =>
    refine ih (length_remainderStep b hlen) ?_
    rw [foldl_hornerStep_remainderStep hz hlen, h, zero_gfmul]

theorem evalAt_append_remainder {z : Byte} {div : List Byte} (hz : evalAt z (1 :: div) = 0) (data : List Byte) :
    evalAt z (data ++ remainder div data) = 0 := by
  have hzeros : (List.replicate div.length 0).foldl (hornerStep z) 0 = 0 := by
    rw [← evalAt_eq_foldl, ← map_gfmul_zero, evalAt_map_gfmul, gfmul_zero]
  rw [evalAt_eq_foldl, List.foldl_append, remainder]
  exact foldl_remainderStep_root hz data List.length_replicate hzeros

/-- Settles O22: the block is the data and their remainder, and every `2^i` below the degree is a root of the divisor. -/
theorem codewordBlockHasZeroSyndromes : Obligations.CodewordBlockHasZeroSyndromes := by
  intro s src len d hf h1 h255 hrs hfit
  have hdeg : s.rs.rsdeg.toNat = d := by rw [hrs, toNat_rsdeg_generator h255]
  have h0 : s.rs.rsdeg ≠ 0 := fun h => by
    rw [h] at hdeg
    exact Nat.ne_of_lt h1 hdeg
  obtain ⟨t, hexec, -, hrem, hframe⟩ :=
    (rsremWritesTheRemainder s src len (src + len) hf).2.2 h0 (by omega) (by rwa [hdeg])
  rw [hdeg, hrs, divCoefficients_generator h1 h255] at hrem
  have hdata : readRange t src len = readRange s src len := readRange_congr fun k hk => hframe _ (by omega)
  refine ⟨t, hexec, fun i hi => ?_⟩
  rw [readRange_add, hdata, hrem]
  exact evalAt_append_remainder (by rw [evalAt_divisor _ h1, rootProduct_powerOfTwo hi]) _

end Sys2Proof.Proofs
end

section
/-! SUPPORT. MXNEW and MXFUNC (spec/44_matrix_patterns.md R201, R203). -/

namespace Sys2Proof.Proofs

open Sys2Proof.Machine Sys2Proof.Safety Sys2Proof.Laws

/-- Settles O37: out of range one of the two tests refuses; in range every field is that of `newSymbol`. -/
theorem mxnewStartsABlankSymbol : Obligations.MxnewStartsABlankSymbol := by
  intro s version level hf
  refine ⟨fun hbad => ?_, fun h1 hv hl => ⟨newSymbol version level, ?_, newSymbol_version_toNat hv level,
    newSymbol_ecl_toNat hl version, newSymbol_size_toNat hv level, rfl, rfl, fun x y => ⟨cell_blank x y, cell_blank x y⟩,
    rfl, rfl, rfl, rfl, rfl, rfl⟩⟩
  · rw [exec_mxnew hf]
    by_cases hversion : version < 1 ∨ version > 40
    · rw [if_pos hversion]
    · rw [if_neg hversion, if_pos (by omega)]
  · rw [exec_mxnew hf, if_neg (by omega), if_neg (by omega)]

/-- The matrix state after MXFUNC: the grids of the drawn symbol and the phase, nothing else (R203). -/
theorem withPatterns_eq {mx : Matrix} (hi : MatrixInv mx) (hp : mx.phase = .alloc) :
    withPatterns mx = { mx with
      modules := (drawnSymbol mx.version.toNat mx.ecl.toNat).modules
      isfunc := (drawnSymbol mx.version.toNat mx.ecl.toNat).isfunc
      phase := .patterns } := by
  obtain ⟨hmod, hisf⟩ := withPatterns_grids hi hp
  rw [← hmod, ← hisf]
  unfold withPatterns drawFunctionPatterns
  rw [drawCells_frame]

/-- Settles O38, by `withPatterns_eq`. -/
theorem mxfuncDrawsThePatterns : Obligations.MxfuncDrawsThePatterns := by
  intro s hf hi
  refine ⟨fun hp => ?_, fun hp => ⟨_, rfl, ?_⟩⟩
  · rw [exec_mxfunc hf, if_pos hp]
  · rw [exec_mxfunc hf, if_neg (not_not_intro hp), withPatterns_eq hi hp]

end Sys2Proof.Proofs
end

section
/-! SUPPORT. The order of the codeword scan and the cells that MXCW fills (spec/44_matrix_patterns.md R220 to R225). -/

namespace Sys2Proof.Proofs

open Sys2Proof.Machine Sys2Proof.Safety Sys2Proof.Laws

/-! ### Columns and directions -/

/-- A pair is upward iff bit 1 of `right + 1` is 0 (R220). -/
theorem scanUpward_eq (right : Nat) : scanUpward right = decide ((right + 1) / 2 % 2 = 0) := by
  have hand : (right + 1) &&& 2 = ((right + 1).testBit 1).toNat * 2 := Nat.and_two_pow (right + 1) 1
  rw [scanUpward, hand, Nat.testBit_succ, Nat.testBit_zero]
  by_cases h : (right + 1) / 2 % 2 = 0 <;> simp [h]

/-- Two entries per row: the even places hold the first, the odd places the second. -/
theorem getD_flatMap_pair {α : Type} (f g : Nat → α) (d : α) {n k : Nat} (h : k < n) :
    ((List.range n).flatMap fun v => [f v, g v]).getD (2 * k) d = f k ∧
      ((List.range n).flatMap fun v => [f v, g v]).getD (2 * k + 1) d = g k := by
  induction n generalizing k f g with
  | zero => omega
  | succ n ih =>
    rw [List.range_succ_eq_map, List.flatMap_cons, List.flatMap_map]
    cases k with
    | zero => exact ⟨rfl, rfl⟩
    | succ k => exact ih (fun v => f (v + 1)) (fun v => g (v + 1)) (by omega)

/-- Settles O45. -/
theorem scanColumnsAndDirections : Obligations.ScanColumnsAndDirections := by
  intro v _ _
  have hrights := scanRights_symbol v
  refine ⟨hrights, fun k hk => ?_, fun right vert hvert => ?_⟩
  · rw [show 4 * v + 16 = 4 * v + 17 - 1 from rfl, hrights, scanUpward_eq, decide_eq_decide, List.getD_eq_getElem?_getD]
    by_cases hwide : k < 2 * v + 5
    · rw [List.getElem?_append_left (by simpa using hwide), List.getElem?_map, List.getElem?_range hwide]
      simp only [Option.map_some, Option.getD_some]
      omega
    · obtain ⟨j, rfl⟩ : ∃ j, k = 2 * v + 5 + j := ⟨k - (2 * v + 5), by omega⟩
      rw [List.getElem?_append_right (by simp), List.length_map, List.length_range, Nat.add_sub_cancel_left]
      have hj : j < 3 := by omega
      have hentry : ([5, 3, 1] : List Nat)[j]?.getD 0 = 5 - 2 * j := by interval_cases j <;> rfl
      rw [hentry]
      omega

  · exact getD_flatMap_pair _ _ _ hvert

/-- Settles O46, with the scan's lemmas and `placeBits_count`. -/
theorem scanVisitsEachFreeCellOnce : Obligations.ScanVisitsEachFreeCellOnce := by
  intro mx hi hp
  refine ⟨nodup_freeScan hi hp, length_freeScan hi hp, fun x y => mem_freeScan hi hp, ?_⟩
  rintro s t src count rfl hf h
  rcases exec_mxcw_cases hf h with ho | ⟨-, hcount, rfl⟩
  · cases ho with
    | answered v u _ => simp
    | refused c hc =>
      simp only [List.mem_cons, List.not_mem_nil, or_false] at hc
      rcases hc with rfl | rfl | rfl <;> simp
  · have hall := placeBits_count hi hp (codewordBit s src) (show 8 * count ≤ nfree s.mx by omega)
    rcases finishCodewords_cases (placeBits s.mx (codewordBit s src) (8 * count)) count s with ⟨-, he⟩ | ⟨hne, -⟩
    · rw [he]
      simp
    · exact absurd hall hne

/-! ### The bits placed -/

/-- A cell after bits have been placed along a list of distinct cells: of the free cells of the list, in order, the first
take the bits; every other cell is as before (R220). -/
theorem cell_placed_foldl_eq (isfunc : Grid) (bit : Nat → Bool) (nbits : Nat) {cells : List (Nat × Nat)}
    (hnodup : cells.Nodup) (hin : ∀ c ∈ cells, c.1 < Config.maxSide ∧ c.2 < Config.maxSide) (acc : Grid × Nat) (x y : Nat) :
    (cells.foldl (placeBit isfunc bit nbits) acc).1.cell x y =
      if (x, y) ∈ (cells.filter fun c => !isfunc.cell c.1 c.2).take (nbits - acc.2) then
        bit (acc.2 + (cells.filter fun c => !isfunc.cell c.1 c.2).idxOf (x, y))
      else acc.1.cell x y := by
  induction cells generalizing acc with
  | nil => simp
  | cons c rest ih =>
    obtain ⟨hc, hrest⟩ := List.nodup_cons.mp hnodup
    rw [List.foldl_cons, ih hrest fun d hd => hin d (List.mem_cons_of_mem _ hd)]
    rcases placeBit_cases isfunc bit nbits acc c with ⟨he, hfree, hlt⟩ | ⟨he, hfunc | hfull⟩
    · obtain ⟨n, hn⟩ : ∃ n, nbits - acc.2 = n + 1 := ⟨nbits - acc.2 - 1, by omega⟩
      rw [he, List.filter_cons_of_pos (by simp [hfree]), hn, List.take_succ_cons, show nbits - (acc.2 + 1) = n by omega]
      by_cases heq : (x, y) = c
      · subst heq
        have hnot : (x, y) ∉ (rest.filter fun c => !isfunc.cell c.1 c.2).take n :=
          fun h => hc (List.mem_of_mem_filter (List.mem_of_mem_take h))
        rw [if_neg hnot, if_pos List.mem_cons_self, List.idxOf_cons_self, cell_put,
          if_pos ⟨rfl, rfl, hin _ List.mem_cons_self⟩, Nat.add_zero]
      · have hput : (acc.1.put c.1 c.2 (bit acc.2)).cell x y = acc.1.cell x y := by
          rw [cell_put, if_neg fun h => heq (Prod.ext h.1 h.2.1)]
        rw [hput, List.idxOf_cons_ne _ (Ne.symm heq), Nat.add_right_comm, Nat.add_assoc]
        simp only [List.mem_cons, heq, false_or]
    · rw [he, List.filter_cons_of_neg (by simp [hfunc])]
    · rw [he, show nbits - acc.2 = 0 by omega]
      simp

section Drawn

variable {mx : Matrix} (hi : MatrixInv mx) (hp : patternsDrawn mx.phase)
include hi hp

/-- A cell after MXCW's scan (R220). -/
theorem placeBits_cell (bit : Nat → Bool) (nbits x y : Nat) :
    (placeBits mx bit nbits).1.cell x y =
      if (x, y) ∈ (freeScan mx).take nbits then bit ((freeScan mx).idxOf (x, y)) else mx.modules.cell x y := by
  obtain ⟨-, hv, hs⟩ := drawn_sizes hi hp
  have hin : ∀ c ∈ scanOrder mx.size.toNat, c.1 < Config.maxSide ∧ c.2 < Config.maxSide := by
    rintro ⟨a, b⟩ hc
    rw [hs, mem_scanOrder] at hc
    simp only [Config.maxSide]
    omega
  have h := cell_placed_foldl_eq mx.isfunc bit nbits (hs ▸ nodup_scanOrder _) hin (mx.modules, 0) x y
  rwa [Nat.zero_add] at h

/-- The cell of bit `i` is the `i`-th free cell of the scan (R220). -/
theorem placeBits_cell_of_lt (bit : Nat → Bool) {nbits i : Nat} (hn : nbits ≤ nfree mx) (h : i < nbits) :
    (placeBits mx bit nbits).1.cell ((freeScan mx).getD i (0, 0)).1 ((freeScan mx).getD i (0, 0)).2 = bit i := by
  have hlen : i < (freeScan mx).length := by
    rw [length_freeScan hi hp]
    omega
  have hget : (freeScan mx).getD i (0, 0) = (freeScan mx)[i] := by
    rw [List.getD_eq_getElem?_getD, List.getElem?_eq_getElem hlen, Option.getD_some]
  have hmem : (freeScan mx)[i] ∈ (freeScan mx).take nbits := List.mem_take_iff_getElem.mpr ⟨i, by omega, rfl⟩
  rw [hget, placeBits_cell hi hp, if_pos hmem, (nodup_freeScan hi hp).idxOf_getElem]

end Drawn

/-- Settles O47: the tests in the rule's order, then `placeBits_cell` and `placeBits_count`. -/
theorem mxcwPlacesTheCodewordBits : Obligations.MxcwPlacesTheCodewordBits := by
  intro s src count hf hi
  rw [exec_mxcw hf]
  refine ⟨fun hp => by rw [if_pos hp], fun hp hn => by rw [if_neg (not_not_intro hp), if_pos hn], fun hp hn hr => ?_,
    fun hp hn hr => ?_⟩
  · have hout : rangeFits src count = false := by
      rw [Bool.eq_false_iff, Ne, rangeFits_iff]
      omega
    rw [if_neg (not_not_intro hp), if_neg (not_not_intro hn), if_pos hout]
  · have hd : patternsDrawn s.mx.phase := .inl hp
    have hle : 8 * count ≤ nfree s.mx := by omega
    have hall := placeBits_count hi hd (codewordBit s src) hle
    refine ⟨(placeBits s.mx (codewordBit s src) (8 * count)).1, ?_, fun i h => placeBits_cell_of_lt hi hd _ hle h,
      fun x y h => by rw [placeBits_cell hi hd, if_neg h]⟩
    rw [if_neg (not_not_intro hp), if_neg (not_not_intro hn), if_neg (by rw [(rangeFits_iff src count).mpr hr]; decide)]
    rcases finishCodewords_cases (placeBits s.mx (codewordBit s src) (8 * count)) count s with ⟨-, he⟩ | ⟨hne, -⟩
    · rw [he, hall]
    · exact absurd hall hne

end Sys2Proof.Proofs
end

section
/-! SUPPORT. The format and version words (spec/44_matrix_patterns.md R211, R215): the shift-XOR rounds give the remainder of a
polynomial division, so data and remainder together are a multiple of the divisor. -/

namespace Sys2Proof.Proofs

open Sys2Proof.Machine Sys2Proof.Safety Sys2Proof.Laws

theorem shiftRight_eq_zero_iff {a n : Nat} : a >>> n = 0 ↔ a < 2 ^ n := by
  rw [Nat.shiftRight_eq_div_pow, Nat.div_eq_zero_iff_lt (Nat.two_pow_pos n)]

/-- Bits above and bits below do not meet. -/
theorem shiftLeft_xor_eq_or {a b n : Nat} (h : b < 2 ^ n) : a <<< n ^^^ b = a <<< n ||| b := by
  refine Nat.eq_of_testBit_eq fun i => ?_
  rw [Nat.testBit_xor, Nat.testBit_or, Nat.testBit_shiftLeft]
  by_cases hi : n ≤ i
  · rw [Nat.testBit_lt_two_pow (h.trans_le (Nat.pow_le_pow_right (by decide) hi)), Bool.xor_false, Bool.or_false]
  · rw [decide_eq_false hi, Bool.false_and, Bool.false_xor, Bool.false_or]

theorem zero_clmul (n b : Nat) : clmul n 0 b = 0 := by
  have h := xor_clmul n 0 0 b
  rwa [Nat.xor_self, Nat.xor_self] at h

section Division

variable {deg poly : Nat}

/-- Rounds whose top bit is 0 only shift. -/
theorem bchRounds_shiftLeft (k : Nat) {j rem : Nat} (hj : j ≤ deg) (h : rem < 2 ^ (deg - j)) :
    bchRounds deg poly (j + k) rem = bchRounds deg poly k (rem <<< j) := by
  induction j generalizing rem with
  | zero => rw [Nat.zero_add, Nat.shiftLeft_zero]
  | succ j ih =>
    have hwidth : deg - j = deg - (j + 1) + 1 := by omega
    have htop : rem >>> (deg - 1) = 0 := by
      rw [shiftRight_eq_zero_iff]
      exact h.trans_le (Nat.pow_le_pow_right (by decide) (by omega))
    have hnext : rem <<< 1 < 2 ^ (deg - j) := by
      rw [hwidth]
      exact Nat.shiftLeft_lt h
    rw [Nat.add_right_comm, bchRounds, htop, Nat.zero_mul, Nat.xor_zero, ih (by omega) hnext, ← Nat.shiftLeft_add,
      Nat.add_comm 1]

variable (hdeg : 1 ≤ deg) (hlead : poly >>> deg = 1) (hone : clmul (deg + 1) 1 poly = poly)
include hdeg hlead hone

/-- `k` rounds divide `rem * x^k`: what they leave has degree below the divisor's and differs from it by a multiple of the
divisor. -/
theorem bchRounds_divides (k : Nat) {rem : Nat} (h : rem < 2 ^ deg) :
    bchRounds deg poly k rem < 2 ^ deg ∧
      ∃ q, q < 2 ^ k ∧ clmul (deg + 1) q poly = rem <<< k ^^^ bchRounds deg poly k rem := by
  induction k generalizing rem with
  | zero =>
    refine ⟨h, 0, by decide, ?_⟩
    rw [bchRounds, Nat.shiftLeft_zero, Nat.xor_self, zero_clmul]
  | succ k ih =>
    obtain ⟨b, hb⟩ : ∃ b, rem >>> (deg - 1) = b := ⟨_, rfl⟩
    have hb2 : b < 2 := by
      rw [← hb, Nat.shiftRight_eq_div_pow, Nat.div_lt_iff_lt_mul (Nat.two_pow_pos _), ← Nat.pow_succ', Nat.succ_eq_add_one,
        Nat.sub_add_cancel hdeg]
      exact h
    have hmul : clmul (deg + 1) b poly = b * poly := by
      interval_cases b
      · rw [Nat.zero_mul, zero_clmul]
      · rw [hone, Nat.one_mul]
    have hcancel : (rem <<< 1 ^^^ b * poly) >>> deg = 0 := by
      have hrem : rem <<< 1 >>> deg = b := by
        rw [← hb, show deg = 1 + (deg - 1) by omega, Nat.shiftRight_add, Nat.shiftLeft_shiftRight, Nat.add_sub_cancel_left]
      have hsub : (b * poly) >>> deg = b := by
        interval_cases b
        · rw [Nat.zero_mul, Nat.zero_shiftRight]
        · rw [Nat.one_mul, hlead]
      rw [Nat.shiftRight_xor_distrib, hrem, hsub, Nat.xor_self]
    obtain ⟨hlt, q, hq, hmulq⟩ := ih (shiftRight_eq_zero_iff.mp hcancel)
    refine ⟨by rw [bchRounds, hb]; exact hlt, b <<< k ^^^ q, ?_, ?_⟩
    · refine Nat.xor_lt_two_pow ?_ (hq.trans (Nat.pow_lt_pow_right (by decide) (Nat.lt_succ_self k)))
      rw [Nat.add_comm]
      exact Nat.shiftLeft_lt (n := 1) hb2
    · rw [xor_clmul, shiftLeft_clmul, hmul, hmulq, bchRounds, hb, Nat.shiftLeft_xor_distrib, ← Nat.shiftLeft_add,
        Nat.add_comm 1 k, ← Nat.xor_assoc, Nat.xor_comm ((b * poly) <<< k), Nat.xor_assoc (rem <<< (k + 1)), Nat.xor_self,
        Nat.xor_zero]

/-- `m` data bits followed by the remainder: the data stand in the high bits, and the word is a multiple of the divisor. -/
theorem bchWord_codeword {m data : Nat} (hm : m ≤ deg) (h : data < 2 ^ m) :
    (data <<< deg ||| bchRounds deg poly deg data) < 2 ^ (m + deg) ∧
      (data <<< deg ||| bchRounds deg poly deg data) >>> deg = data ∧
      ∃ q, q < 2 ^ m ∧ clmul (deg + 1) q poly = data <<< deg ||| bchRounds deg poly deg data := by
  have hshift : bchRounds deg poly deg data = bchRounds deg poly m (data <<< (deg - m)) := by
    have hs := bchRounds_shiftLeft (deg := deg) (poly := poly) m (j := deg - m) (rem := data) (by omega)
      (by rwa [Nat.sub_sub_self hm])
    rwa [Nat.sub_add_cancel hm] at hs
  have hdata : data <<< (deg - m) < 2 ^ deg := by
    have hs := Nat.shiftLeft_lt (m := deg - m) h
    rwa [Nat.add_sub_of_le hm] at hs
  obtain ⟨hlt, q, hq, hmul⟩ := bchRounds_divides hdeg hlead hone m hdata
  rw [← Nat.shiftLeft_add, Nat.sub_add_cancel hm] at hmul
  rw [hshift]
  refine ⟨shiftLeft_or_lt h hlt, ?_, q, hq, ?_⟩
  · rw [Nat.shiftRight_or_distrib, Nat.shiftLeft_shiftRight, shiftRight_eq_zero_iff.mpr hlt, Nat.or_zero]
  · rw [hmul, shiftLeft_xor_eq_or hlt]

end Division

/-- The data bits of a format word (R215). -/
theorem formatData_eq (level : Nat) {m : Nat} (hm : m ≤ 7) : formatData level m = 8 * ([1, 0, 3, 2].getD level 0) + m := by
  rw [formatData, ← Nat.shiftLeft_add_eq_or_of_lt (show m < 2 ^ 3 by omega), Nat.shiftLeft_eq, Nat.mul_comm]
  rfl

theorem formatData_lt {level m : Nat} (hl : level ≤ 3) (hm : m ≤ 7) : formatData level m < 2 ^ 5 := by
  have hcode : [1, 0, 3, 2].getD level 0 ≤ 3 := by interval_cases level <;> decide
  rw [formatData_eq level hm]
  omega

/-- Settles O42, with `bchWord_codeword` for both polynomials. -/
theorem formatAndVersionWordsAreCodewords : Obligations.FormatAndVersionWordsAreCodewords := by
  constructor
  · intro level m hl hm
    obtain ⟨hlt, hdata, hmultiple⟩ := bchWord_codeword (deg := 10) (poly := 0x537) (by decide) (by decide) (by decide)
      (by decide : 5 ≤ 10) (formatData_lt hl hm)
    rw [formatWord, Nat.xor_xor_cancel_right, ← formatData_eq level hm]
    exact ⟨Nat.xor_lt_two_pow hlt (by decide), hdata, hmultiple⟩
  · intro v _ hv
    exact bchWord_codeword (deg := 12) (poly := 0x1F25) (by decide) (by decide) (by decide) (by decide : 6 ≤ 12)
      (show v < 2 ^ 6 by omega)

end Sys2Proof.Proofs
end

section
/-! SUPPORT. The colour of a cell that a drawing writes once, and the two copies of the format word (spec/44_matrix_patterns.md
R200, R214, R217). -/

namespace Sys2Proof.Proofs

open Sys2Proof.Machine Sys2Proof.Safety Sys2Proof.Laws

/-- If all writes of a cell give it one colour, the last one does. -/
theorem lastWrite_eq_some {cells : List CellWrite} {x y : Nat} {b : Bool} (hm : (x, y, b) ∈ cells)
    (hone : ∀ b', (x, y, b') ∈ cells → b' = b) : lastWrite cells x y = some b := by
  cases hw : lastWrite cells x y with
  | none =>
    simp only [lastWrite, Option.map_eq_none_iff, List.find?_eq_none, List.mem_reverse] at hw
    exact absurd (hw _ hm) (by simp)
  | some b' => rw [hone b' (mem_of_lastWrite hw)]

/-- A cell that no later write touches. -/
theorem lastWrite_append_of_not_mem {as bs : List CellWrite} {x y : Nat} (h : ∀ b, (x, y, b) ∉ bs) :
    lastWrite (as ++ bs) x y = lastWrite as x y := by
  have hnone : lastWrite bs x y = none :=
    lastWrite_eq_none fun c hc he => h c.2.2 (by rw [← he.1, ← he.2]; exact hc)
  rw [lastWrite_append, hnone, Option.none_or]

/-! ### A copy of the format word -/

/-- Bit `i` of the word in the `i`-th of the cells (R217). -/
def copyCells (cells : List (Nat × Nat)) (w : Nat) : List CellWrite := cells.mapIdx fun i c => (c.1, c.2, w.testBit i)

theorem mem_copyCells {cells : List (Nat × Nat)} {w x y : Nat} {b : Bool} :
    (x, y, b) ∈ copyCells cells w ↔ ∃ i, cells[i]? = some (x, y) ∧ w.testBit i = b := by
  simp only [copyCells, List.mem_mapIdx, Prod.mk.injEq]
  constructor
  · rintro ⟨i, hi, hx, hy, hb⟩
    exact ⟨i, by rw [List.getElem?_eq_getElem hi, ← hx, ← hy], hb⟩
  · rintro ⟨i, hget, hb⟩
    obtain ⟨hi, he⟩ := List.getElem?_eq_some_iff.mp hget
    exact ⟨i, hi, by rw [he], by rw [he], hb⟩

/-- In a copy without repeated cells every cell has its bit. -/
theorem lastWrite_copyCells {cells : List (Nat × Nat)} (hnodup : cells.Nodup) (w : Nat) {i x y : Nat}
    (h : cells[i]? = some (x, y)) : lastWrite (copyCells cells w) x y = some (w.testBit i) := by
  refine lastWrite_eq_some (mem_copyCells.mpr ⟨i, h, rfl⟩) fun b hb => ?_
  obtain ⟨j, hj, rfl⟩ := mem_copyCells.mp hb
  rw [(List.getElem?_inj (List.getElem?_eq_some_iff.mp h).1 hnodup).mp (h.trans hj.symm)]

/-- `DrawFormat`, as the two copies and the always-dark cell (R217). -/
theorem formatCells_eq {size : Nat} (hs : 21 ≤ size) (w : Nat) :
    formatCells size w = copyCells formatFirstCopy w ++ copyCells (formatSecondCopy size) w ++ [(8, size - 8, true)] := by
  obtain ⟨n, rfl⟩ : ∃ n, size = n + 21 := ⟨size - 21, by omega⟩
  simp [formatCells, copyCells, formatFirstCopy, formatSecondCopy, List.range_succ]

theorem nodup_formatBitCells {size : Nat} (hs : 21 ≤ size) : (formatBitCells size).Nodup := by
  obtain ⟨n, rfl⟩ : ∃ n, size = n + 21 := ⟨size - 21, by omega⟩
  simp [formatBitCells, formatFirstCopy, formatSecondCopy]

/-- The always-dark cell holds no bit of the word (R217). -/
theorem dark_not_mem_formatBitCells {size : Nat} (hs : 21 ≤ size) : (8, size - 8) ∉ formatBitCells size := by
  obtain ⟨n, rfl⟩ : ∃ n, size = n + 21 := ⟨size - 21, by omega⟩
  simp [formatBitCells, formatFirstCopy, formatSecondCopy]

/-- A format cell of either copy has its bit of the word (R217). -/
theorem lastWrite_formatCells_bit {size : Nat} (hs : 21 ≤ size) (w : Nat) {i x y : Nat}
    (h : formatFirstCopy[i]? = some (x, y) ∨ (formatSecondCopy size)[i]? = some (x, y)) :
    lastWrite (formatCells size w) x y = some (w.testBit i) := by
  obtain ⟨hfirst, hsecond, hapart⟩ := List.nodup_append.mp (nodup_formatBitCells hs)
  have hmem : (x, y) ∈ formatBitCells size :=
    List.mem_append.mpr (h.imp List.mem_of_getElem? List.mem_of_getElem?)
  have hlast : ∀ b, (x, y, b) ∉ [(8, size - 8, true)] := by
    intro b hb
    cases List.mem_singleton.mp hb
    exact dark_not_mem_formatBitCells hs hmem
  rw [formatCells_eq hs, lastWrite_append_of_not_mem hlast]
  rcases h with h | h
  · rw [lastWrite_append_of_not_mem, lastWrite_copyCells hfirst w h]
    intro b hb
    obtain ⟨j, hj, -⟩ := mem_copyCells.mp hb
    exact hapart _ (List.mem_of_getElem? h) _ (List.mem_of_getElem? hj) rfl
  · rw [lastWrite_append, lastWrite_copyCells hsecond w h, Option.some_or]

/-- The cells of bit `i` as the statements name them. -/
theorem formatCopies_getElem? {size i : Nat} (hi : i < 15) {c : Nat × Nat}
    (h : c ∈ [formatFirstCopy.getD i (0, 0), (formatSecondCopy size).getD i (0, 0)]) :
    formatFirstCopy[i]? = some c ∨ (formatSecondCopy size)[i]? = some c := by
  have hfirst : i < formatFirstCopy.length := hi
  have hsecond : i < (formatSecondCopy size).length := hi
  rw [List.getD_eq_getElem?_getD, List.getD_eq_getElem?_getD, List.getElem?_eq_getElem hfirst,
    List.getElem?_eq_getElem hsecond] at h
  rw [List.getElem?_eq_getElem hfirst, List.getElem?_eq_getElem hsecond]
  simpa [eq_comm] using h

/-! ### MXFMT -/

section Drawn

variable {mx : Matrix} (hi : MatrixInv mx) (hp : patternsDrawn mx.phase)
include hi hp

/-- DrawFormat over drawn patterns changes the colours alone (R217, R41 f). -/
theorem drawFormat_eq (m : Nat) : drawFormat mx m = { mx with modules := (drawFormat mx m).modules } := by
  have hisf := (redrawn_drawFormat hi hp m).isfunc
  rw [drawFormat, drawCells_frame, ← drawFormat, hisf]

/-- A format-bit cell after DrawFormat (R217). -/
theorem drawFormat_bit (m : Nat) {i : Nat} (h15 : i < 15) {c : Nat × Nat}
    (h : c ∈ [formatFirstCopy.getD i (0, 0), (formatSecondCopy mx.size.toNat).getD i (0, 0)]) :
    (drawFormat mx m).modules.cell c.1 c.2 = (formatWord mx.ecl.toNat m).testBit i := by
  obtain ⟨h1, hv, hs⟩ := drawn_sizes hi hp
  have hs21 : 21 ≤ mx.size.toNat := by omega
  have hbit := lastWrite_formatCells_bit hs21 (formatWord mx.ecl.toNat m) (formatCopies_getElem? h15 h)
  have hin := formatCells_inside hs21 _ _ (mem_of_lastWrite hbit)
  have hside : mx.size.toNat ≤ Config.maxSide := by
    simp only [Config.maxSide]
    omega
  rw [drawFormat, modules_drawCells _ _ (hin.1.trans_le hside) (hin.2.trans_le hside), hbit, Option.getD_some]

end Drawn

/-- Settles O44: the tests in the rule's order, then `drawFormat_bit` and the frame of a redrawn symbol. -/
theorem mxfmtDrawsTheFormatWord : Obligations.MxfmtDrawsTheFormatWord := by
  intro s m hf hi
  rw [exec_mxfmt hf]
  refine ⟨fun hp => by rw [if_pos hp], fun hp hm => ?_, fun hp hm => ⟨(drawFormat s.mx m).modules, ?_, ?_, ?_, ?_⟩⟩
  · rw [if_neg (not_not_intro hp), if_pos (by rw [maskLegal, decide_eq_false (by omega)])]
  all_goals have hd : patternsDrawn s.mx.phase := .inr (.inl hp)
  · rw [if_neg (not_not_intro hp), if_neg (by rw [maskLegal, decide_eq_true hm]; decide), ← drawFormat_eq hi hd]
  · exact fun i hi15 c hc => drawFormat_bit hi hd m hi15 hc
  · have h := drawn_dark_cell (matrixInv_drawFormat hi hd m) (by rw [drawFormat, drawCells_phase]; exact hd)
    rwa [(redrawn_drawFormat hi hd m).size] at h
  · intro x y hbits hdark
    have hs21 : 21 ≤ s.mx.size.toNat := by
      have := drawn_sizes hi hd
      omega
    refine modules_drawCells_of_not_mem fun b hb => ?_
    rcases formatCells_cases hs21 hb with h | h
    · exact hbits h
    · cases h
      exact hdark rfl

end Sys2Proof.Proofs
end

section
/-! SUPPORT. Which cells each function pattern draws, and in which colour, as conditions on the coordinates
(spec/44_matrix_patterns.md R204 to R210, R217). -/

namespace Sys2Proof.Proofs

open Sys2Proof.Machine Sys2Proof.Safety Sys2Proof.Laws

theorem nat_bne_eq (a b : Nat) : (a != b) = decide (a ≠ b) := by
  by_cases h : a = b <;> simp [h]

theorem cheb_le_iff {dx dy : Int} {r : Nat} : cheb dx dy ≤ r ↔ dx.natAbs ≤ r ∧ dy.natAbs ≤ r := Nat.max_le

theorem mem_offsets {r : Nat} {d : Int} : d ∈ offsets r ↔ d.natAbs ≤ r := by
  simp only [offsets, List.mem_map, List.mem_range]
  constructor
  · rintro ⟨k, hk, rfl⟩
    omega
  · intro h
    exact ⟨(d + r).toNat, by omega, by omega⟩

/-! ### Timing and finder patterns -/

theorem mem_timingCells {size x y : Nat} {b : Bool} : (x, y, b) ∈ timingCells size ↔
    (x = 6 ∧ y < size ∧ b = decide (y % 2 = 0)) ∨ (y = 6 ∧ x < size ∧ b = decide (x % 2 = 0)) := by
  simp only [timingCells, List.mem_flatMap, List.mem_range, List.mem_cons, List.not_mem_nil, or_false, Prod.mk.injEq,
    beq_eq_decide]
  constructor
  · rintro ⟨i, hi, ⟨rfl, rfl, rfl⟩ | ⟨rfl, rfl, rfl⟩⟩
    · exact .inl ⟨rfl, hi, rfl⟩
    · exact .inr ⟨rfl, hi, rfl⟩
  · rintro (⟨rfl, hy, rfl⟩ | ⟨rfl, hx, rfl⟩)
    · exact ⟨y, hy, .inl ⟨rfl, rfl, rfl⟩⟩
    · exact ⟨x, hx, .inr ⟨rfl, rfl, rfl⟩⟩

/-- The colour of a finder's cell by its distance from the centre (R205). -/
def finderColour (d : Nat) : Bool := decide (d ≠ 2) && decide (d ≠ 4)

theorem mem_finderCells {size x y : Nat} {cx cy : Int} {b : Bool} : (x, y, b) ∈ finderCells size cx cy ↔
    x < size ∧ y < size ∧ cheb (x - cx) (y - cy) ≤ 4 ∧ b = finderColour (cheb (x - cx) (y - cy)) := by
  simp only [finderCells, List.mem_flatMap, List.mem_filterMap, mem_offsets, cheb_le_iff]
  constructor
  · rintro ⟨dy, hdy, dx, hdx, h⟩
    split at h
    · next hin =>
      simp only [inSymbol, Bool.and_eq_true, decide_eq_true_eq] at hin
      simp only [Option.some.injEq, Prod.mk.injEq] at h
      obtain ⟨hx, hy, hb⟩ := h
      obtain rfl : dx = x - cx := by omega
      obtain rfl : dy = y - cy := by omega
      refine ⟨by omega, by omega, ⟨hdx, hdy⟩, ?_⟩
      rw [← hb, finderColour, nat_bne_eq, nat_bne_eq]
    · cases h
  · rintro ⟨hx, hy, ⟨hdx, hdy⟩, rfl⟩
    refine ⟨y - cy, hdy, x - cx, hdx, ?_⟩
    rw [show cx + (x - cx) = (x : Int) by omega, show cy + (y - cy) = (y : Int) by omega]
    simp [inSymbol, hx, hy, finderColour, nat_bne_eq]

/-! ### Alignment patterns -/

theorem mem_alignmentCells {p q x y : Nat} {b : Bool} (hp : 2 ≤ p) (hq : 2 ≤ q) : (x, y, b) ∈ alignmentCells p q ↔
    cheb (x - p) (y - q) ≤ 2 ∧ b = decide (cheb (x - p) (y - q) ≠ 1) := by
  simp only [alignmentCells, List.mem_flatMap, List.mem_map, mem_offsets, cheb_le_iff, Prod.mk.injEq]
  constructor
  · rintro ⟨dy, hdy, dx, hdx, hx, hy, rfl⟩
    obtain rfl : dx = x - p := by omega
    obtain rfl : dy = y - q := by omega
    exact ⟨⟨hdx, hdy⟩, nat_bne_eq _ _⟩
  · rintro ⟨⟨hdx, hdy⟩, rfl⟩
    exact ⟨y - q, hdy, x - p, hdx, by omega, by omega, nat_bne_eq _ _⟩

/-- The positions of a version are even; the first is 6, the others at least 18 (R206, R207). -/
theorem alignPos_first : ∀ v, v ≤ 40 → 1 ≤ v → ∀ i, i < (alignPos v).length →
    (alignPos v).getD i 0 % 2 = 0 ∧ (i = 0 ∧ (alignPos v).getD i 0 = 6 ∨ 0 < i ∧ 18 ≤ (alignPos v).getD i 0) := by
  decide

/-- The last position of a version is `SIZE − 7`, the others are at least 12 below it (R206, R207). -/
theorem alignPos_last : ∀ v, v ≤ 40 → 1 ≤ v → ∀ i, i < (alignPos v).length →
    i + 1 = (alignPos v).length ∧ (alignPos v).getD i 0 = 4 * v + 10 ∨
      i + 1 < (alignPos v).length ∧ (alignPos v).getD i 0 + 12 ≤ 4 * v + 10 := by
  decide

/-- The positions of a version rise, by at least 12 each (R207). -/
theorem alignPos_rising : ∀ v, v ≤ 40 → 1 ≤ v → ∀ j, j < (alignPos v).length → ∀ i, i < j →
    (alignPos v).getD i 0 + 12 ≤ (alignPos v).getD j 0 := by
  decide

/-- Two positions of a version are the same entry or at least 12 apart (R207). -/
theorem alignPos_apart {v i j : Nat} (h1 : 1 ≤ v) (hv : v ≤ 40) (hi : i < (alignPos v).length)
    (hj : j < (alignPos v).length) :
    i = j ∨ (alignPos v).getD i 0 + 12 ≤ (alignPos v).getD j 0 ∨ (alignPos v).getD j 0 + 12 ≤ (alignPos v).getD i 0 := by
  rcases Nat.lt_trichotomy i j with h | h | h
  · exact .inr (.inl (alignPos_rising v hv h1 j hj i h))
  · exact .inl h
  · exact .inr (.inr (alignPos_rising v hv h1 i hi j h))

/-- An alignment pattern is drawn around column `p` and row `q` (R208). -/
def AlignmentCentre (v p q : Nat) : Prop :=
  ∃ i j, (i < (alignPos v).length ∧ j < (alignPos v).length) ∧ alignSkipped (alignPos v).length i j = false ∧
    (alignPos v).getD i 0 = p ∧ (alignPos v).getD j 0 = q

theorem alignSkipped_eq_false_iff {n i j : Nat} : alignSkipped n i j = false ↔
    ¬(i = 0 ∧ j = 0) ∧ ¬(i = 0 ∧ j = n - 1) ∧ ¬(i = n - 1 ∧ j = 0) := by
  simp [alignSkipped, and_assoc]

theorem getD_mem {l : List Nat} {i : Nat} (h : i < l.length) : l.getD i 0 ∈ l := by
  rw [List.getD_eq_getElem?_getD, List.getElem?_eq_getElem h]
  exact List.getElem_mem h

/-- A centre lies on a timing strip, at least 12 away from the finders, or to the right of and below both strips (R208). -/
theorem AlignmentCentre.bounds {v p q : Nat} (h : AlignmentCentre v p q) (h1 : 1 ≤ v) (hv : v ≤ 40) :
    p % 2 = 0 ∧ q % 2 = 0 ∧ p ≤ 4 * v + 10 ∧ q ≤ 4 * v + 10 ∧
      (p = 6 ∧ 18 ≤ q ∧ q + 12 ≤ 4 * v + 10 ∨ q = 6 ∧ 18 ≤ p ∧ p + 12 ≤ 4 * v + 10 ∨ 18 ≤ p ∧ 18 ≤ q) := by
  obtain ⟨i, j, ⟨hi, hj⟩, hs, rfl, rfl⟩ := h
  rw [alignSkipped_eq_false_iff] at hs
  have hp := alignPos_first v hv h1 i hi
  have hp' := alignPos_last v hv h1 i hi
  have hq := alignPos_first v hv h1 j hj
  have hq' := alignPos_last v hv h1 j hj
  omega

/-- The cells of the alignment patterns (R208). -/
theorem mem_alignmentsCells {v x y : Nat} {b : Bool} (h1 : 1 ≤ v) (hv : v ≤ 40) : (x, y, b) ∈ alignmentsCells v ↔
    ∃ p q, AlignmentCentre v p q ∧ cheb (x - p) (y - q) ≤ 2 ∧ b = decide (cheb (x - p) (y - q) ≠ 1) := by
  have hmem {i j : Nat} (hi : i < (alignPos v).length) (hj : j < (alignPos v).length) :=
    mem_alignmentCells (x := x) (y := y) (b := b)
      ((alignPos_bounds v hv h1 _ (getD_mem hi)).1.trans' (by decide))
      ((alignPos_bounds v hv h1 _ (getD_mem hj)).1.trans' (by decide))
  simp only [alignmentsCells, List.mem_flatMap, List.mem_range]
  constructor
  · rintro ⟨i, hi, j, hj, h⟩
    split at h
    · cases h
    · next hs => exact ⟨_, _, ⟨i, j, ⟨hi, hj⟩, by simpa using hs, rfl, rfl⟩, (hmem hi hj).mp h⟩
  · rintro ⟨p, q, ⟨i, j, ⟨hi, hj⟩, hs, rfl, rfl⟩, h⟩
    exact ⟨i, hi, j, hj, by rw [hs]; exact (hmem hi hj).mpr h⟩

/-! ### Format and version cells -/

/-- Where the format cells lie: in column 8 and row 8, beside the finders, and not on a timing strip (R217). -/
theorem formatCells_position_iff {size x y : Nat} (hs : 21 ≤ size) (w : Nat) : (∃ b, (x, y, b) ∈ formatCells size w) ↔
    (x = 8 ∧ y < size ∧ (y ≤ 8 ∨ size ≤ y + 8) ∧ y ≠ 6) ∨ (y = 8 ∧ x < size ∧ (x ≤ 8 ∨ size ≤ x + 8) ∧ x ≠ 6) := by
  simp only [formatCells, List.mem_append, List.mem_map, List.mem_range, List.mem_cons, List.not_mem_nil, or_false,
    Prod.mk.injEq]
  constructor
  · rintro ⟨b, ((((⟨k, hk, rfl, rfl, rfl⟩ | ⟨rfl, rfl, rfl⟩ | ⟨rfl, rfl, rfl⟩ | ⟨rfl, rfl, rfl⟩) | ⟨k, hk, rfl, rfl, rfl⟩) |
      ⟨k, hk, rfl, rfl, rfl⟩) | ⟨k, hk, rfl, rfl, rfl⟩) | ⟨rfl, rfl, rfl⟩⟩ <;> omega
  · rintro (⟨rfl, hy, hside, h6⟩ | ⟨rfl, hx, hside, h6⟩)
    · by_cases hlow : y < 6
      · exact ⟨_, .inl (.inl (.inl (.inl (.inl ⟨y, hlow, rfl, rfl, rfl⟩))))⟩
      by_cases h7 : y = 7
      · exact ⟨_, .inl (.inl (.inl (.inl (.inr (.inl ⟨rfl, h7, rfl⟩)))))⟩
      by_cases h8 : y = 8
      · exact ⟨_, .inl (.inl (.inl (.inl (.inr (.inr (.inl ⟨rfl, h8, rfl⟩))))))⟩
      by_cases hdark : y = size - 8
      · exact ⟨_, .inr ⟨rfl, hdark, rfl⟩⟩
      · exact ⟨_, .inl (.inr ⟨y + 7 - size, by omega, rfl, by omega, rfl⟩)⟩
    · by_cases hlow : x < 6
      · exact ⟨_, .inl (.inl (.inl (.inr ⟨5 - x, by omega, by omega, rfl, rfl⟩)))⟩
      by_cases h7 : x = 7
      · exact ⟨_, .inl (.inl (.inl (.inl (.inr (.inr (.inr ⟨h7, rfl, rfl⟩))))))⟩
      by_cases h8 : x = 8
      · exact ⟨_, .inl (.inl (.inl (.inl (.inr (.inr (.inl ⟨h8, rfl, rfl⟩))))))⟩
      · exact ⟨_, .inl (.inl (.inr ⟨size - 1 - x, by omega, by omega, rfl, rfl⟩))⟩

theorem mem_versionCells {size v x y : Nat} {b : Bool} : (x, y, b) ∈ versionCells size v ↔
    7 ≤ v ∧ ∃ i, i < 18 ∧ (x = size - 11 + i % 3 ∧ y = i / 3 ∨ x = i / 3 ∧ y = size - 11 + i % 3) ∧
      b = (versionWord v).testBit i := by
  rw [versionCells]
  split
  · next h => exact iff_of_false List.not_mem_nil (by omega)
  · next h =>
    simp only [List.mem_flatMap, List.mem_range, List.mem_cons, List.not_mem_nil, or_false, Prod.mk.injEq]
    constructor
    · rintro ⟨i, hi, ⟨hx, hy, hb⟩ | ⟨hx, hy, hb⟩⟩
      · exact ⟨by omega, i, hi, .inl ⟨hx, hy⟩, hb⟩
      · exact ⟨by omega, i, hi, .inr ⟨hx, hy⟩, hb⟩
    · rintro ⟨-, i, hi, ⟨hx, hy⟩ | ⟨hx, hy⟩, hb⟩
      · exact ⟨i, hi, .inl ⟨hx, hy, hb⟩⟩
      · exact ⟨i, hi, .inr ⟨hx, hy, hb⟩⟩

end Sys2Proof.Proofs
end

section
/-! SUPPORT. The function patterns as they stand after MXFUNC (spec/44_matrix_patterns.md R204 to R210, R217): what a pattern draws
is not drawn over in another colour. -/

namespace Sys2Proof.Proofs

open Sys2Proof.Machine Sys2Proof.Safety Sys2Proof.Laws

/-! ### Where a pattern's cells lie -/

section Bounds

variable {size v x y : Nat} {b : Bool}

theorem finderCells_bounds {cx cy : Int} (h : (x, y, b) ∈ finderCells size cx cy) :
    (x - cx).natAbs ≤ 4 ∧ (y - cy).natAbs ≤ 4 := by
  obtain ⟨-, -, hnear, -⟩ := mem_finderCells.mp h
  exact cheb_le_iff.mp hnear

theorem formatCells_bounds {w : Nat} (hs : 21 ≤ size) (h : (x, y, b) ∈ formatCells size w) :
    (x = 8 ∧ (y ≤ 8 ∨ size ≤ y + 8) ∧ y ≠ 6) ∨ (y = 8 ∧ (x ≤ 8 ∨ size ≤ x + 8) ∧ x ≠ 6) := by
  have := (formatCells_position_iff hs w).mp ⟨b, h⟩
  omega

theorem versionCells_bounds (hs : 21 ≤ size) (h : (x, y, b) ∈ versionCells size v) :
    7 ≤ v ∧ (size - 11 ≤ x ∧ x ≤ size - 9 ∧ y ≤ 5 ∨ x ≤ 5 ∧ size - 11 ≤ y ∧ y ≤ size - 9) := by
  obtain ⟨h7, i, hi, hxy, -⟩ := mem_versionCells.mp h
  omega

end Bounds

section Stands

variable {v l : Nat} (h1 : 1 ≤ v) (hv : v ≤ 40) (hl : l ≤ 3)
include h1 hv hl

/-- A cell stands in a colour if, from some point of the drawing on, it is drawn in that colour alone (R200). -/
theorem drawnSymbol_stands {x y : Nat} {b : Bool} {before rest : List CellWrite}
    (hsplit : functionCells (4 * v + 17) v l = before ++ rest) (hm : (x, y, b) ∈ rest)
    (hone : ∀ b', (x, y, b') ∈ rest → b' = b) :
    (drawnSymbol v l).isfunc.cell x y = true ∧ (drawnSymbol v l).modules.cell x y = b := by
  have hall : (x, y, b) ∈ functionCells (4 * v + 17) v l := by
    rw [hsplit]
    exact List.mem_append_right _ hm
  have hin := functionCells_inside h1 hv l _ hall
  have hside : 4 * v + 17 ≤ Config.maxSide := by
    simp only [Config.maxSide]
    omega
  refine ⟨(drawnSymbol_isfunc h1 hv hl x y).mpr ⟨b, hall⟩, ?_⟩
  rw [drawnSymbol_modules hv hl (hin.1.trans_le hside) (hin.2.trans_le hside), hsplit, lastWrite_append,
    lastWrite_eq_some hm hone]
  rfl

/-! ### Timing and finder patterns -/

/-- No finder, format or version cell lies on a timing strip between the finders, and an alignment pattern that crosses it
agrees with it (R204, R208). -/
theorem timing_stands {x y i : Nat} (h8 : 8 ≤ i) (h9 : i + 9 ≤ 4 * v + 17) (hxy : x = 6 ∧ y = i ∨ x = i ∧ y = 6) :
    (drawnSymbol v l).isfunc.cell x y = true ∧ (drawnSymbol v l).modules.cell x y = decide (i % 2 = 0) := by
  refine drawnSymbol_stands h1 hv hl (List.nil_append _).symm ?_ fun b h => ?_
  · have hm : (x, y, decide (i % 2 = 0)) ∈ timingCells (4 * v + 17) := by
      rw [mem_timingCells]
      rcases hxy with ⟨rfl, rfl⟩ | ⟨rfl, rfl⟩
      · exact .inl ⟨rfl, by omega, rfl⟩
      · exact .inr ⟨rfl, by omega, rfl⟩
    simp only [functionCells, List.mem_append, hm, true_or]
  · simp only [functionCells, List.mem_append] at h
    obtain (((((h | h) | h) | h) | h) | h) | h := h
    · rcases mem_timingCells.mp h with ⟨rfl, -, rfl⟩ | ⟨rfl, -, rfl⟩ <;> (rw [decide_eq_decide]; omega)
    · have := finderCells_bounds h
      omega
    · have := finderCells_bounds h
      omega
    · have := finderCells_bounds h
      omega
    · obtain ⟨p, q, hc, hnear, rfl⟩ := (mem_alignmentsCells h1 hv).mp h
      have hb := hc.bounds h1 hv
      rw [cheb_le_iff] at hnear
      rw [decide_eq_decide, cheb]
      rcases hxy with ⟨rfl, rfl⟩ | ⟨rfl, rfl⟩
      · obtain rfl : p = 6 := by omega
        omega
      · obtain rfl : q = 6 := by omega
        omega
    · have := formatCells_bounds (by omega) h
      omega
    · have := versionCells_bounds (by omega) h
      omega

/-- No pattern after the finders touches them, and they do not touch each other (R205). -/
theorem finder_stands {cx cy : Int} (hc : (cx = 3 ∧ cy = 3) ∨ (cx = 4 * v + 13 ∧ cy = 3) ∨ (cx = 3 ∧ cy = 4 * v + 13))
    {x y : Nat} (hx : x < 4 * v + 17) (hy : y < 4 * v + 17) (hnear : cheb (x - cx) (y - cy) ≤ 4) :
    (drawnSymbol v l).isfunc.cell x y = true ∧
      (drawnSymbol v l).modules.cell x y = finderColour (cheb (x - cx) (y - cy)) := by
  have hsize : ((4 * v + 17 : Nat) : Int) - 4 = 4 * v + 13 := by omega
  have hm : (x, y, finderColour (cheb (x - cx) (y - cy))) ∈ finderCells (4 * v + 17) cx cy :=
    mem_finderCells.mpr ⟨hx, hy, hnear, rfl⟩
  have hb := finderCells_bounds hm
  have hself {b : Bool} {cx' cy' : Int} (h : (x, y, b) ∈ finderCells (4 * v + 17) cx' cy') (hcx : cx' = cx)
      (hcy : cy' = cy) : b = finderColour (cheb (x - cx) (y - cy)) := by
    subst hcx hcy
    obtain ⟨-, -, -, hb⟩ := mem_finderCells.mp h
    exact hb
  refine drawnSymbol_stands h1 hv hl (before := timingCells (4 * v + 17))
    (rest := finderCells (4 * v + 17) 3 3 ++ finderCells (4 * v + 17) (4 * v + 13) 3 ++
      finderCells (4 * v + 17) 3 (4 * v + 13) ++ alignmentsCells v ++ formatCells (4 * v + 17) (formatWord l 0) ++
      versionCells (4 * v + 17) v) ?_ ?_ fun b h => ?_
  · simp only [functionCells, hsize, List.append_assoc]
  · rcases hc with ⟨rfl, rfl⟩ | ⟨rfl, rfl⟩ | ⟨rfl, rfl⟩ <;> simp only [List.mem_append, hm, true_or, or_true]
  · simp only [List.mem_append] at h
    obtain ((((h | h) | h) | h) | h) | h := h
    · have := finderCells_bounds h
      exact hself h (by omega) (by omega)
    · have := finderCells_bounds h
      exact hself h (by omega) (by omega)
    · have := finderCells_bounds h
      exact hself h (by omega) (by omega)
    · obtain ⟨p, q, hc', hnear', -⟩ := (mem_alignmentsCells h1 hv).mp h
      have := hc'.bounds h1 hv
      rw [cheb_le_iff] at hnear'
      rcases hc with ⟨rfl, rfl⟩ | ⟨rfl, rfl⟩ | ⟨rfl, rfl⟩ <;> omega
    · have := formatCells_bounds (by omega) h
      omega
    · have := versionCells_bounds (by omega) h
      omega

/-! ### Alignment, format and version cells -/

/-- Alignment patterns do not touch each other, and no format or version cell lies on them (R208). -/
theorem alignment_stands {p q : Nat} (hc : AlignmentCentre v p q) {x y : Nat} (hnear : cheb (x - p) (y - q) ≤ 2) :
    (drawnSymbol v l).isfunc.cell x y = true ∧
      (drawnSymbol v l).modules.cell x y = decide (cheb (x - p) (y - q) ≠ 1) := by
  have hm : (x, y, decide (cheb (x - p) (y - q) ≠ 1)) ∈ alignmentsCells v :=
    (mem_alignmentsCells h1 hv).mpr ⟨p, q, hc, hnear, rfl⟩
  have hbounds := hc.bounds h1 hv
  have hd := cheb_le_iff.mp hnear
  refine drawnSymbol_stands h1 hv hl
    (before := timingCells (4 * v + 17) ++ finderCells (4 * v + 17) 3 3 ++
      finderCells (4 * v + 17) ((4 * v + 17 : Nat) - 4) 3 ++ finderCells (4 * v + 17) 3 ((4 * v + 17 : Nat) - 4))
    (rest := alignmentsCells v ++ formatCells (4 * v + 17) (formatWord l 0) ++ versionCells (4 * v + 17) v) ?_ ?_
    fun b h => ?_
  · simp only [functionCells, List.append_assoc]
  · exact List.mem_append_left _ (List.mem_append_left _ hm)
  · simp only [List.mem_append] at h
    obtain (h | h) | h := h
    · obtain ⟨p', q', hc', hnear', rfl⟩ := (mem_alignmentsCells h1 hv).mp h
      have hd' := cheb_le_iff.mp hnear'
      obtain ⟨i, j, ⟨hi, hj⟩, -, rfl, rfl⟩ := hc
      obtain ⟨i', j', ⟨hi', hj'⟩, -, rfl, rfl⟩ := hc'
      have hp := alignPos_apart h1 hv hi hi'
      have hq := alignPos_apart h1 hv hj hj'
      obtain rfl : i = i' := by omega
      obtain rfl : j = j' := by omega
      rfl
    · have := formatCells_bounds (by omega) h
      omega
    · have := versionCells_bounds (by omega) h
      omega

/-- No version cell is a format cell, so a format cell keeps the last colour that DrawFormat gives it (R210, R217). -/
theorem format_stands {x y : Nat} {b : Bool}
    (h : lastWrite (formatCells (4 * v + 17) (formatWord l 0)) x y = some b) :
    (drawnSymbol v l).isfunc.cell x y = true ∧ (drawnSymbol v l).modules.cell x y = b := by
  have hm := mem_of_lastWrite h
  have hbounds := formatCells_bounds (by omega) hm
  obtain ⟨hx, hy⟩ : x < 4 * v + 17 ∧ y < 4 * v + 17 := formatCells_inside (by omega) _ _ hm
  have hside : 4 * v + 17 ≤ Config.maxSide := by
    simp only [Config.maxSide]
    omega
  refine ⟨(drawnSymbol_isfunc h1 hv hl x y).mpr ⟨b, ?_⟩, ?_⟩
  · simp only [functionCells, List.mem_append, hm, true_or, or_true]
  · rw [drawnSymbol_modules hv hl (hx.trans_le hside) (hy.trans_le hside), functionCells, lastWrite_append_of_not_mem,
      lastWrite_append, h]
    · rfl
    · intro b' h'
      have := versionCells_bounds (by omega) h'
      omega

/-- The version blocks are drawn last, each cell once (R210). -/
theorem version_stands (h7 : 7 ≤ v) {i : Nat} (hi : i < 18) {x y : Nat}
    (hxy : x = 4 * v + 6 + i % 3 ∧ y = i / 3 ∨ x = i / 3 ∧ y = 4 * v + 6 + i % 3) :
    (drawnSymbol v l).isfunc.cell x y = true ∧ (drawnSymbol v l).modules.cell x y = (versionWord v).testBit i := by
  refine drawnSymbol_stands h1 hv hl (rest := versionCells (4 * v + 17) v) rfl ?_ fun b h => ?_
  · exact mem_versionCells.mpr ⟨h7, i, hi, hxy, rfl⟩
  · obtain ⟨-, j, hj, hxy', rfl⟩ := mem_versionCells.mp h
    obtain rfl : j = i := by omega
    rfl

end Stands

/-! ### The statements -/

/-- Settles O39, by `timing_stands` and `finder_stands`. -/
theorem timingAndFinderPatternsStand : Obligations.TimingAndFinderPatternsStand := by
  intro v l h1 hv hl
  constructor
  · intro i h8 h9
    obtain ⟨hcolumn, hcolumn'⟩ := timing_stands h1 hv hl h8 h9 (.inl ⟨rfl, rfl⟩)
    obtain ⟨hrow, hrow'⟩ := timing_stands h1 hv hl h8 h9 (.inr ⟨rfl, rfl⟩)
    exact ⟨hcolumn', hrow', hcolumn, hrow⟩
  · intro c hc x y hx hy hnear
    refine finder_stands h1 hv hl ?_ hx hy hnear
    simpa [Prod.ext_iff] using hc

/-- Settles O40: the table by evaluation, the patterns by `alignment_stands`. -/
theorem alignmentPatternsStand : Obligations.AlignmentPatternsStand := by
  have table : ∀ v, v ≤ 40 → 1 ≤ v → alignPos v = alignmentTable.getD (v - 1) [] := by decide
  refine ⟨fun v h1 hv => table v hv h1, fun v l h1 hv hl i j hi hj h00 h0n hn0 x y hnear => ?_⟩
  exact alignment_stands h1 hv hl
    ⟨i, j, ⟨hi, hj⟩, alignSkipped_eq_false_iff.mpr ⟨h00, by omega, by omega⟩, rfl, rfl⟩ hnear

/-- Settles O41, by `format_stands` and `version_stands`. -/
theorem formatAndVersionCellsStand : Obligations.FormatAndVersionCellsStand := by
  intro v l h1 hv hl
  have hs : 21 ≤ 4 * v + 17 := by omega
  have hdark := format_stands h1 hv hl (lastWrite_formatCells_dark (4 * v + 17) (formatWord l 0))
  refine ⟨fun i hi c hc => ?_, hdark.2, hdark.1, fun h7 i hi c hc => ?_⟩
  · exact (format_stands h1 hv hl (lastWrite_formatCells_bit hs _ (formatCopies_getElem? hi hc))).symm
  · refine (version_stands h1 hv hl h7 hi ?_).symm
    simpa [Prod.ext_iff] using hc

end Sys2Proof.Proofs
end

section
/-! SUPPORT. The number of free cells (spec/44_matrix_patterns.md R213): the function cells of a drawn symbol fall into boxes that do
not meet, and the sides of the boxes are counted. -/

namespace Sys2Proof.Proofs

open Sys2Proof.Machine Sys2Proof.Safety Sys2Proof.Laws

/-! ### The bands of the alignment patterns -/

/-- The columns, or rows, within distance 2 of the `n` alignment positions after the first (R208). -/
def alignBand (v n : Nat) : List Nat := (List.range n).flatMap fun k => List.range' ((alignPos v).getD (k + 1) 0 - 2) 5

theorem alignPos_length {v : Nat} (h : v ≠ 1) : (alignPos v).length = v / 7 + 2 := by
  rw [alignPos, if_neg h, List.length_cons, List.length_map, List.length_range]

theorem length_alignBand (v n : Nat) : (alignBand v n).length = 5 * n := by
  simp [alignBand, List.length_flatMap, Nat.mul_comm]

section Band

variable {v n : Nat} (h1 : 1 ≤ v) (hv : v ≤ 40) (hn : n ≤ (alignPos v).length - 1)
include h1 hv hn

theorem mem_alignBand {x : Nat} :
    x ∈ alignBand v n ↔ ∃ k, k < n ∧ ((x : Int) - (alignPos v).getD (k + 1) 0).natAbs ≤ 2 := by
  simp only [alignBand, List.mem_flatMap, List.mem_range, List.mem_range'_1]
  refine exists_congr fun k => and_congr_right fun hk => ?_
  have := alignPos_first v hv h1 (k + 1) (by omega)
  omega

theorem nodup_alignBand : (alignBand v n).Nodup := by
  rw [alignBand, List.nodup_flatMap]
  refine ⟨fun k _ => List.nodup_range', List.pairwise_lt_range.imp_of_mem fun {a b} _ hb hab => ?_⟩
  rw [List.mem_range] at hb
  have := alignPos_rising v hv h1 (b + 1) (by omega) (a + 1) (by omega)
  simp only [Function.onFun, List.disjoint_left, List.mem_range'_1]
  omega

theorem alignBand_bounds {x : Nat} (h : x ∈ alignBand v n) :
    16 ≤ x ∧ x ≤ 4 * v + 12 ∧ (n ≤ (alignPos v).length - 2 → x ≤ 4 * v) := by
  obtain ⟨k, hk, hx⟩ := (mem_alignBand h1 hv hn).mp h
  have hfirst := alignPos_first v hv h1 (k + 1) (by omega)
  have hlast := alignPos_last v hv h1 (k + 1) (by omega)
  omega

end Band

section Boxes

variable {v : Nat} (h1 : 1 ≤ v) (hv : v ≤ 40)
include h1 hv

/-- The alignment patterns cover the crossings of the outer bands, and beside each timing strip the bands between the
finders (R208). -/
theorem exists_alignmentCentre_iff {x y : Nat} :
    (∃ p q, AlignmentCentre v p q ∧ cheb (x - p) (y - q) ≤ 2) ↔
      (x ∈ alignBand v ((alignPos v).length - 1) ∧ y ∈ alignBand v ((alignPos v).length - 1)) ∨
      ((4 ≤ x ∧ x ≤ 8) ∧ y ∈ alignBand v ((alignPos v).length - 2)) ∨
      (x ∈ alignBand v ((alignPos v).length - 2) ∧ 4 ≤ y ∧ y ≤ 8) := by
  have hedge : (alignPos v).length - 2 ≤ (alignPos v).length - 1 := by omega
  simp only [mem_alignBand h1 hv (Nat.le_refl _), mem_alignBand h1 hv hedge, cheb_le_iff]
  constructor
  · rintro ⟨_, _, ⟨i, j, ⟨hi, hj⟩, hs, rfl, rfl⟩, hx, hy⟩
    rw [alignSkipped_eq_false_iff] at hs
    have hfi := alignPos_first v hv h1 i hi
    have hfj := alignPos_first v hv h1 j hj
    rcases i with _ | i
    · rcases j with _ | j
      · omega
      · exact .inr (.inl ⟨by omega, j, by omega, hy⟩)
    · rcases j with _ | j
      · exact .inr (.inr ⟨⟨i, by omega, hx⟩, by omega⟩)
      · exact .inl ⟨⟨i, by omega, hx⟩, j, by omega, hy⟩
  · have centre {i j : Nat} (hi : i < (alignPos v).length) (hj : j < (alignPos v).length)
        (hs : ¬(i = 0 ∧ j = 0) ∧ ¬(i = 0 ∧ j = (alignPos v).length - 1) ∧ ¬(i = (alignPos v).length - 1 ∧ j = 0)) :
        AlignmentCentre v ((alignPos v).getD i 0) ((alignPos v).getD j 0) :=
      ⟨i, j, ⟨hi, hj⟩, alignSkipped_eq_false_iff.mpr hs, rfl, rfl⟩
    rintro (⟨⟨i, hi, hx⟩, j, hj, hy⟩ | ⟨hx, j, hj, hy⟩ | ⟨⟨i, hi, hx⟩, hy⟩)
    · exact ⟨_, _, centre (i := i + 1) (j := j + 1) (by omega) (by omega) (by omega), hx, hy⟩
    · have h0 := alignPos_first v hv h1 0 (by omega)
      exact ⟨_, _, centre (i := 0) (j := j + 1) (by omega) (by omega) (by omega), by omega, hy⟩
    · have h0 := alignPos_first v hv h1 0 (by omega)
      exact ⟨_, _, centre (i := i + 1) (j := 0) (by omega) (by omega) (by omega), hx, by omega⟩

end Boxes

/-! ### Boxes of function cells -/

/-- The columns and the rows of a box of cells. -/
abbrev Box := List Nat × List Nat

/-- The cells of a list of boxes. -/
def boxCells (bs : List Box) : List (Nat × Nat) := bs.flatMap fun b => b.1 ×ˢ b.2

@[simp] theorem mem_boxCells_nil {x y : Nat} : (x, y) ∈ boxCells [] ↔ False := by simp [boxCells]

@[simp] theorem mem_boxCells_cons {b : Box} {bs : List Box} {x y : Nat} :
    (x, y) ∈ boxCells (b :: bs) ↔ (x ∈ b.1 ∧ y ∈ b.2) ∨ (x, y) ∈ boxCells bs := by
  simp [boxCells]

theorem nodup_boxCells_singleton {b : Box} (hx : b.1.Nodup) (hy : b.2.Nodup) : (boxCells [b]).Nodup := by
  rw [boxCells, List.flatMap_singleton]
  exact hx.product hy

/-- A box that does not meet the others. -/
theorem nodup_boxCells_cons {b : Box} {bs : List Box} (hx : b.1.Nodup) (hy : b.2.Nodup) (hbs : (boxCells bs).Nodup)
    (hapart : ∀ x y, x ∈ b.1 → y ∈ b.2 → (x, y) ∉ boxCells bs) : (boxCells (b :: bs)).Nodup := by
  rw [boxCells, List.flatMap_cons, List.nodup_append']
  exact ⟨hx.product hy, hbs, fun ⟨x, y⟩ h => hapart x y (List.mem_product.mp h).1 (List.mem_product.mp h).2⟩

theorem length_boxCells_nil : (boxCells []).length = 0 := rfl

theorem length_boxCells_cons (b : Box) (bs : List Box) :
    (boxCells (b :: bs)).length = b.1.length * b.2.length + (boxCells bs).length := by
  rw [boxCells, List.flatMap_cons, List.length_append, List.length_product]
  rfl

/-- The corners with finder and format cells, and the timing strips between them (R204, R205, R217). -/
def frameBoxes (v : Nat) : List Box :=
  [(List.range 9, List.range 9), (List.range' (4 * v + 9) 8, List.range 9), (List.range 9, List.range' (4 * v + 9) 8),
    ([6], List.range' 9 (4 * v)), (List.range' 9 (4 * v), [6])]

/-- The crossings of the alignment bands, and the alignment patterns beside the timing strips (R208). -/
def alignmentBoxes (v : Nat) : List Box :=
  [(alignBand v ((alignPos v).length - 1), alignBand v ((alignPos v).length - 1)),
    ([4, 5, 7, 8], alignBand v ((alignPos v).length - 2)), (alignBand v ((alignPos v).length - 2), [4, 5, 7, 8])]

/-- The version blocks (R210). -/
def versionBoxes (v : Nat) : List Box :=
  if v < 7 then [] else [(List.range' (4 * v + 6) 3, List.range 6), (List.range 6, List.range' (4 * v + 6) 3)]

theorem mem_frameBoxes {v x y : Nat} : (x, y) ∈ boxCells (frameBoxes v) ↔
    x < 9 ∧ y < 9 ∨ (4 * v + 9 ≤ x ∧ x < 4 * v + 17) ∧ y < 9 ∨ x < 9 ∧ 4 * v + 9 ≤ y ∧ y < 4 * v + 17 ∨
      x = 6 ∧ 9 ≤ y ∧ y < 4 * v + 9 ∨ (9 ≤ x ∧ x < 4 * v + 9) ∧ y = 6 := by
  simp [frameBoxes, List.mem_range'_1, Nat.add_assoc, Nat.add_comm 9]

theorem mem_alignmentBoxes {v x y : Nat} : (x, y) ∈ boxCells (alignmentBoxes v) ↔
    (x ∈ alignBand v ((alignPos v).length - 1) ∧ y ∈ alignBand v ((alignPos v).length - 1)) ∨
      ((x = 4 ∨ x = 5 ∨ x = 7 ∨ x = 8) ∧ y ∈ alignBand v ((alignPos v).length - 2)) ∨
      (x ∈ alignBand v ((alignPos v).length - 2) ∧ (y = 4 ∨ y = 5 ∨ y = 7 ∨ y = 8)) := by
  simp [alignmentBoxes]

theorem mem_versionBoxes {v x y : Nat} : (x, y) ∈ boxCells (versionBoxes v) ↔
    7 ≤ v ∧ ((4 * v + 6 ≤ x ∧ x < 4 * v + 9) ∧ y < 6 ∨ x < 6 ∧ 4 * v + 6 ≤ y ∧ y < 4 * v + 9) := by
  by_cases h : v < 7
  · simp [versionBoxes, h]
  · simp [versionBoxes, h, List.mem_range'_1, Nat.not_lt.mp h]

theorem nodup_frameBoxes (v : Nat) : (boxCells (frameBoxes v)).Nodup := by
  have hlow : (List.range 9).Nodup := List.nodup_range
  have hhigh : (List.range' (4 * v + 9) 8).Nodup := List.nodup_range'
  have hmid : (List.range' 9 (4 * v)).Nodup := List.nodup_range'
  have hsix : [6].Nodup := List.nodup_singleton 6
  refine nodup_boxCells_cons hlow hlow (nodup_boxCells_cons hhigh hlow (nodup_boxCells_cons hlow hhigh
    (nodup_boxCells_cons hsix hmid (nodup_boxCells_singleton hmid hsix) ?_) ?_) ?_) ?_ <;>
  · intro x y hx hy h
    simp only [mem_boxCells_cons, mem_boxCells_nil, or_false, List.mem_range, List.mem_range'_1,
      List.mem_singleton] at hx hy h
    omega

theorem nodup_versionBoxes (v : Nat) : (boxCells (versionBoxes v)).Nodup := by
  rw [versionBoxes]
  split
  · exact List.nodup_nil
  · refine nodup_boxCells_cons List.nodup_range' List.nodup_range
      (nodup_boxCells_singleton List.nodup_range List.nodup_range') ?_
    intro x y hx hy h
    simp only [mem_boxCells_cons, mem_boxCells_nil, or_false, List.mem_range, List.mem_range'_1] at hx hy h
    omega

theorem length_frameBoxes (v : Nat) : (boxCells (frameBoxes v)).length = 225 + 8 * v := by
  simp only [frameBoxes, length_boxCells_cons, length_boxCells_nil, List.length_range, List.length_range',
    List.length_singleton]
  omega

theorem length_alignmentBoxes (v : Nat) : (boxCells (alignmentBoxes v)).length =
    25 * ((alignPos v).length - 1) * ((alignPos v).length - 1) + 40 * ((alignPos v).length - 2) := by
  simp only [alignmentBoxes, length_boxCells_cons, length_boxCells_nil, length_alignBand, List.length_cons, List.length_nil]
  ring

theorem length_versionBoxes (v : Nat) : (boxCells (versionBoxes v)).length = if v ≥ 7 then 36 else 0 := by
  rw [versionBoxes]
  by_cases h : v < 7
  · rw [if_pos h, if_neg (by omega), length_boxCells_nil]
  · rw [if_neg h, if_pos (by omega)]
    simp only [length_boxCells_cons, length_boxCells_nil, List.length_range, List.length_range']

section Symbol

variable {v : Nat} (h1 : 1 ≤ v) (hv : v ≤ 40)
include h1 hv

theorem outerBand_bounds {x : Nat} (h : x ∈ alignBand v ((alignPos v).length - 1)) : 16 ≤ x ∧ x ≤ 4 * v + 12 := by
  obtain ⟨h16, hle, -⟩ := alignBand_bounds h1 hv (Nat.le_refl _) h
  exact ⟨h16, hle⟩

theorem edgeBand_bounds {x : Nat} (h : x ∈ alignBand v ((alignPos v).length - 2)) : 16 ≤ x ∧ x ≤ 4 * v := by
  obtain ⟨h16, -, hle⟩ := alignBand_bounds h1 hv (by omega) h
  exact ⟨h16, hle (Nat.le_refl _)⟩

/-- The alignment boxes lie below the upper corners, to the right of the left ones, or between them beside a timing strip. -/
theorem alignmentBoxes_bounds {x y : Nat} (h : (x, y) ∈ boxCells (alignmentBoxes v)) :
    (16 ≤ x ∧ 16 ≤ y ∧ x ≤ 4 * v + 12 ∧ y ≤ 4 * v + 12) ∨ (4 ≤ x ∧ x ≤ 8 ∧ x ≠ 6 ∧ 16 ≤ y ∧ y ≤ 4 * v) ∨
      (16 ≤ x ∧ x ≤ 4 * v ∧ 4 ≤ y ∧ y ≤ 8 ∧ y ≠ 6) := by
  rcases mem_alignmentBoxes.mp h with ⟨hx, hy⟩ | ⟨hx, hy⟩ | ⟨hx, hy⟩
  · have := outerBand_bounds h1 hv hx
    have := outerBand_bounds h1 hv hy
    omega
  · have := edgeBand_bounds h1 hv hy
    omega
  · have := edgeBand_bounds h1 hv hx
    omega

theorem nodup_alignmentBoxes : (boxCells (alignmentBoxes v)).Nodup := by
  have houter := nodup_alignBand h1 hv (Nat.le_refl ((alignPos v).length - 1))
  have hedge := nodup_alignBand h1 hv (n := (alignPos v).length - 2) (by omega)
  have hbeside : [4, 5, 7, 8].Nodup := by decide
  refine nodup_boxCells_cons houter houter (nodup_boxCells_cons hbeside hedge (nodup_boxCells_singleton hedge hbeside) ?_) ?_
  · intro x y hx _ h
    simp only [mem_boxCells_cons, mem_boxCells_nil, or_false, List.mem_cons, List.not_mem_nil] at hx h
    have := edgeBand_bounds h1 hv h.1
    omega
  · intro x y hx hy h
    have := outerBand_bounds h1 hv hx
    have := outerBand_bounds h1 hv hy
    simp only [mem_boxCells_cons, mem_boxCells_nil, or_false, List.mem_cons, List.not_mem_nil] at h
    omega

end Symbol

/-- The function cells of a version (R203). -/
def functionRegion (v : Nat) : List (Nat × Nat) :=
  boxCells (frameBoxes v) ++ boxCells (alignmentBoxes v) ++ boxCells (versionBoxes v)

section Symbol

variable {v : Nat} (h1 : 1 ≤ v) (hv : v ≤ 40)
include h1 hv

theorem nodup_functionRegion : (functionRegion v).Nodup := by
  refine List.nodup_append'.mpr ⟨List.nodup_append'.mpr ⟨nodup_frameBoxes v, nodup_alignmentBoxes h1 hv, ?_⟩,
    nodup_versionBoxes v, ?_⟩
  · rintro ⟨x, y⟩ hf ha
    have := alignmentBoxes_bounds h1 hv ha
    rw [mem_frameBoxes] at hf
    omega
  · rintro ⟨x, y⟩ h hver
    rw [mem_versionBoxes] at hver
    rcases List.mem_append.mp h with hf | ha
    · rw [mem_frameBoxes] at hf
      omega
    · have := alignmentBoxes_bounds h1 hv ha
      omega

/-- The timing strips, the finders and the format cells fill the frame (R204, R205, R217). -/
theorem mem_frameBoxes_iff_drawn {x y w : Nat} : (x, y) ∈ boxCells (frameBoxes v) ↔
    ((((∃ b, (x, y, b) ∈ timingCells (4 * v + 17)) ∨ ∃ b, (x, y, b) ∈ finderCells (4 * v + 17) 3 3) ∨
      ∃ b, (x, y, b) ∈ finderCells (4 * v + 17) ((4 * v + 17 : Nat) - 4) 3) ∨
      ∃ b, (x, y, b) ∈ finderCells (4 * v + 17) 3 ((4 * v + 17 : Nat) - 4)) ∨
      ∃ b, (x, y, b) ∈ formatCells (4 * v + 17) w := by
  have htiming : (∃ b, (x, y, b) ∈ timingCells (4 * v + 17)) ↔ x = 6 ∧ y < 4 * v + 17 ∨ y = 6 ∧ x < 4 * v + 17 := by
    simp only [mem_timingCells, exists_or, exists_and_left, exists_eq, and_true]
  have hfinder {cx cy : Int} : (∃ b, (x, y, b) ∈ finderCells (4 * v + 17) cx cy) ↔
      x < 4 * v + 17 ∧ y < 4 * v + 17 ∧ ((x : Int) - cx).natAbs ≤ 4 ∧ ((y : Int) - cy).natAbs ≤ 4 := by
    simp only [mem_finderCells, cheb_le_iff, exists_and_left, exists_eq, and_true]
  rw [mem_frameBoxes, htiming, hfinder, hfinder, hfinder, formatCells_position_iff (by omega)]
  constructor
  · rintro (h | h | h | h | h) <;> omega
  · rintro (((((h | h) | h) | h) | h) | h | h) <;> omega

/-- The alignment patterns fill their boxes, and cross the timing strips (R208). -/
theorem exists_mem_alignmentsCells_iff {x y : Nat} : (∃ b, (x, y, b) ∈ alignmentsCells v) ↔
    (x, y) ∈ boxCells (alignmentBoxes v) ∨
      x = 6 ∧ y ∈ alignBand v ((alignPos v).length - 2) ∨ x ∈ alignBand v ((alignPos v).length - 2) ∧ y = 6 := by
  have hcentre : (∃ b, (x, y, b) ∈ alignmentsCells v) ↔ ∃ p q, AlignmentCentre v p q ∧ cheb (x - p) (y - q) ≤ 2 := by
    simp only [mem_alignmentsCells h1 hv]
    exact ⟨fun ⟨_, p, q, hc, hnear, _⟩ => ⟨p, q, hc, hnear⟩, fun ⟨p, q, hc, hnear⟩ => ⟨_, p, q, hc, hnear, rfl⟩⟩
  have hbeside (k : Nat) : 4 ≤ k ∧ k ≤ 8 ↔ (k = 4 ∨ k = 5 ∨ k = 7 ∨ k = 8) ∨ k = 6 := by omega
  rw [hcentre, exists_alignmentCentre_iff h1 hv, mem_alignmentBoxes, hbeside, hbeside, or_and_right, and_or_left]
  simp only [or_assoc, or_left_comm]

theorem mem_versionBoxes_iff_drawn {x y : Nat} :
    (x, y) ∈ boxCells (versionBoxes v) ↔ ∃ b, (x, y, b) ∈ versionCells (4 * v + 17) v := by
  simp only [mem_versionBoxes, mem_versionCells, exists_and_left]
  refine and_congr_right fun h7 => ⟨fun hxy => ?_, fun ⟨b, i, hi, hxy, _⟩ => by omega⟩
  rcases hxy with hxy | hxy
  · exact ⟨_, 3 * y + (x - (4 * v + 6)), by omega, by omega, rfl⟩
  · exact ⟨_, 3 * x + (y - (4 * v + 6)), by omega, by omega, rfl⟩

/-- The function cells of the drawn symbol are the cells of the boxes (R203). -/
theorem mem_functionRegion {l : Nat} (hl : l ≤ 3) {x y : Nat} :
    (x, y) ∈ functionRegion v ↔ (drawnSymbol v l).isfunc.cell x y = true := by
  have hcrossing (h : x = 6 ∧ y ∈ alignBand v ((alignPos v).length - 2) ∨
      x ∈ alignBand v ((alignPos v).length - 2) ∧ y = 6) : (x, y) ∈ boxCells (frameBoxes v) := by
    rw [mem_frameBoxes]
    rcases h with ⟨rfl, h⟩ | ⟨h, rfl⟩ <;>
    · have := edgeBand_bounds h1 hv h
      omega
  have hdrawn : (∃ b, (x, y, b) ∈ functionCells (4 * v + 17) v l) ↔ (x, y) ∈ boxCells (frameBoxes v) ∨
      (∃ b, (x, y, b) ∈ alignmentsCells v) ∨ ∃ b, (x, y, b) ∈ versionCells (4 * v + 17) v := by
    simp only [mem_frameBoxes_iff_drawn h1 hv (w := formatWord l 0), functionCells, List.mem_append, exists_or]
    exact (or_congr_left or_right_comm).trans or_assoc
  rw [drawnSymbol_isfunc h1 hv hl, hdrawn, exists_mem_alignmentsCells_iff h1 hv, ← mem_versionBoxes_iff_drawn h1 hv,
    functionRegion, List.mem_append, List.mem_append]
  constructor
  · rintro ((h | h) | h)
    · exact .inl h
    · exact .inr (.inl (.inl h))
    · exact .inr (.inr h)
  · rintro (h | (h | h) | h)
    · exact .inl (.inl h)
    · exact .inl (.inr h)
    · exact .inl (.inl (hcrossing h))
    · exact .inr h

end Symbol

theorem length_functionRegion (v : Nat) : (functionRegion v).length = 225 + 8 * v +
    (25 * ((alignPos v).length - 1) * ((alignPos v).length - 1) + 40 * ((alignPos v).length - 2)) +
    if v ≥ 7 then 36 else 0 := by
  rw [functionRegion, List.length_append, List.length_append, length_frameBoxes, length_alignmentBoxes, length_versionBoxes]

/-- The free cells and the function cells are all the cells of the symbol (R213). -/
theorem nfree_drawnSymbol_add_length {v l : Nat} (h1 : 1 ≤ v) (hv : v ≤ 40) (hl : l ≤ 3) :
    nfree (drawnSymbol v l) + (functionRegion v).length = (4 * v + 17) * (4 * v + 17) := by
  have hsize : (drawnSymbol v l).size.toNat = 4 * v + 17 := by
    rw [drawnSymbol_eq hv hl, drawCells_size, newSymbol_size_toNat hv]
  have hperm : (functionRegion v).Perm
      ((symbolCells (4 * v + 17)).filter fun c => (drawnSymbol v l).isfunc.cell c.1 c.2) := by
    rw [List.perm_ext_iff_of_nodup (nodup_functionRegion h1 hv) ((nodup_symbolCells _).filter _)]
    rintro ⟨x, y⟩
    rw [mem_functionRegion h1 hv hl, List.mem_filter, mem_symbolCells]
    refine (and_iff_right_of_imp fun hf => ?_).symm
    by_contra hout
    rw [(drawnSymbol_outside h1 hv hl (by omega)).2] at hf
    cases hf
  have hall : (symbolCells (4 * v + 17)).length = (4 * v + 17) * (4 * v + 17) := by
    simp [symbolCells, List.length_flatMap]
  rw [hperm.length_eq, nfree, hsize, ← hall, ← List.countP_eq_length_filter, Nat.add_comm]
  simpa using (List.length_eq_countP_add_countP fun c : Nat × Nat => (drawnSymbol v l).isfunc.cell c.1 c.2).symm

/-- Settles O43, from `nfree_drawnSymbol_add_length` and `length_functionRegion`. -/
theorem freeCellCountOfEveryVersion : Obligations.FreeCellCountOfEveryVersion := by
  intro v l h1 hv hl
  have hsum := nfree_drawnSymbol_add_length h1 hv hl
  rw [length_functionRegion] at hsum
  rw [nfreeClosedForm, Config.sizeOf]
  by_cases hv1 : v = 1
  · subst hv1
    have hlen : (alignPos 1).length = 0 := rfl
    rw [hlen, if_neg (by decide)] at hsum
    rw [if_neg (by decide), if_neg (by decide)]
    omega
  · rw [alignPos_length hv1] at hsum
    rw [if_pos (show v ≥ 2 by omega)]
    omega

end Sys2Proof.Proofs
end

section
/-! SUPPORT. Drawings drawn over and masks applied twice (spec/44_matrix_patterns.md R200, R217, spec/45_matrix_masking.md
R251), and what a trial (R266) makes of the cells of a symbol whose patterns are drawn. -/

namespace Sys2Proof.Proofs

open Sys2Proof.Machine Sys2Proof.Safety Sys2Proof.Laws

/-! ### Drawing over a drawing -/

theorem lastWrite_eq_none_iff {cells : List CellWrite} {x y : Nat} :
    lastWrite cells x y = none ↔ ∀ b, (x, y, b) ∉ cells := by
  constructor
  · intro h b hb
    simp only [lastWrite, Option.map_eq_none_iff, List.find?_eq_none, List.mem_reverse] at h
    exact h _ hb (by simp)
  · intro h
    refine lastWrite_eq_none ?_
    rintro ⟨x', y', b⟩ hc ⟨rfl, rfl⟩
    exact h b hc

/-- Of two drawings in turn the second alone stands, if it writes every cell that the first writes (R200). -/
theorem drawCells_drawCells {as bs : List CellWrite} (hover : ∀ x y b, (x, y, b) ∈ as → ∃ b', (x, y, b') ∈ bs) (mx : Matrix) :
    drawCells (drawCells mx as) bs = drawCells mx bs := by
  have hmod : (drawCells (drawCells mx as) bs).modules = (drawCells mx bs).modules := grid_ext fun x y hx hy => by
    simp only [modules_drawCells _ _ hx hy]
    cases hw : lastWrite bs x y with
    | some b => rfl
    | none =>
      have hnone : lastWrite as x y = none := lastWrite_eq_none_iff.mpr fun b hb =>
        (hover x y b hb).elim fun b' hb' => lastWrite_eq_none_iff.mp hw b' hb'
      rw [hnone, Option.getD_none]
  have hisf : (drawCells (drawCells mx as) bs).isfunc = (drawCells mx bs).isfunc := grid_ext fun x y hx hy => by
    have hany : as.any (fun c => c.1 == x && c.2.1 == y) = true → bs.any (fun c => c.1 == x && c.2.1 == y) = true := by
      simp only [List.any_eq_true, Bool.and_eq_true, beq_iff_eq]
      rintro ⟨⟨_, _, b⟩, hc, rfl, rfl⟩
      obtain ⟨b', hb'⟩ := hover _ _ b hc
      exact ⟨_, hb', rfl, rfl⟩
    simp only [isfunc_drawCells _ _ hx hy]
    cases hb : bs.any (fun c => c.1 == x && c.2.1 == y) with
    | true => simp only [Bool.or_true]
    | false => simp only [Bool.eq_false_iff.mpr (mt hany (Bool.eq_false_iff.mp hb)), Bool.or_false]
  rw [drawCells_frame bs, drawCells_frame bs mx, hmod, hisf, drawCells_frame as]

/-- A format word drawn over another leaves no trace of it (R217). -/
theorem drawFormat_drawFormat (mx : Matrix) (m k : Nat) : drawFormat (drawFormat mx m) k = drawFormat mx k := by
  have hframe : drawFormat (drawFormat mx m) k =
      drawCells (drawFormat mx m) (formatCells mx.size.toNat (formatWord mx.ecl.toNat k)) := by
    rw [drawFormat, drawFormat, drawCells_size, drawCells_ecl]
  rw [hframe, drawFormat, drawCells_drawCells (fun _ _ _ h => formatCells_position h _), drawFormat]

/-! ### Masks over masks -/

theorem maskFlips_eq_true_iff {mx : Matrix} {m x y : Nat} :
    maskFlips mx m x y = true ↔ inGrid mx x y ∧ mx.isfunc.cell x y = false ∧ maskPred m x y = true := by
  simp [maskFlips, inGrid, and_assoc]

theorem maskFlips_of_function {mx : Matrix} {x y : Nat} (m : Nat) (h : mx.isfunc.cell x y = true) :
    maskFlips mx m x y = false := by
  rw [maskFlips, h, Bool.not_true, Bool.and_false, Bool.false_and]

theorem maskFlips_of_free {mx : Matrix} {x y : Nat} (m : Nat) (hg : inGrid mx x y) (h : mx.isfunc.cell x y = false) :
    maskFlips mx m x y = maskPred m x y := by
  rw [maskFlips, ← Bool.decide_and, decide_eq_true hg, h, Bool.not_false, Bool.true_and, Bool.true_and]

/-- Two masks in turn: each flips the cells it would flip alone (R251). -/
theorem applyMask_applyMask (mx : Matrix) (m k : Nat) : applyMask (applyMask mx m) k =
    { mx with modules := Grid.build fun x y => mx.modules.cell x y ^^ (maskFlips mx m x y ^^ maskFlips mx k x y) } := by
  have hmod : (applyMask (applyMask mx m) k).modules =
      Grid.build fun x y => mx.modules.cell x y ^^ (maskFlips mx m x y ^^ maskFlips mx k x y) :=
    grid_ext fun x y hx hy => by
      simp only [applyMask, cell_build, decide_eq_true hx, decide_eq_true hy, Bool.true_and, Bool.xor_assoc]
      rfl
  exact congrArg (fun g => { mx with modules := g }) hmod

/-- ApplyMask twice restores the matrix (R251). -/
theorem applyMask_applyMask_self (mx : Matrix) (m : Nat) : applyMask (applyMask mx m) m = mx := by
  have hmod : (Grid.build fun x y => mx.modules.cell x y ^^ (maskFlips mx m x y ^^ maskFlips mx m x y)) = mx.modules :=
    grid_ext fun x y hx hy => by
      simp only [cell_build, decide_eq_true hx, decide_eq_true hy, Bool.true_and, Bool.xor_self, Bool.xor_false]
  rw [applyMask_applyMask, hmod]

theorem applyMask_comm (mx : Matrix) (m k : Nat) : applyMask (applyMask mx m) k = applyMask (applyMask mx k) m := by
  simp only [applyMask_applyMask, Bool.xor_comm (maskFlips mx m _ _)]

/-! ### The trials of MXSEL -/

/-- A round of MXSEL's loop leaves its format word in the grid and nothing of its mask (R266). -/
theorem trialRound_mx_eq_drawFormat (sel : Selection) (m : Nat) : (trialRound sel m).mx = drawFormat sel.mx m := by
  rw [trialRound_mx, trialGrid, applyMask_applyMask_self]

theorem drawFormat_foldl_trialRound (masks : List Nat) (sel : Selection) (k : Nat) :
    drawFormat (masks.foldl trialRound sel).mx k = drawFormat sel.mx k := by
  induction masks generalizing sel with
  | nil => rfl
  | cons m rest ih => rw [List.foldl_cons, ih, trialRound_mx_eq_drawFormat, drawFormat_drawFormat]

/-- A trial after MXSEL's choice is the trial before it (R266). -/
theorem trialGrid_chooseMask (mx : Matrix) (req : MaskRequest) (k : Nat) :
    trialGrid (chooseMask mx req).1 k = trialGrid mx k := by
  cases req with
  | auto => rw [chooseMask_auto, trialGrid, trialLoop, drawFormat_foldl_trialRound, trialGrid]
  | forced m => rfl

/-- The loop of trials leaves no trace in the finished symbol (R266). -/
theorem finishSymbol_chooseMask (mx : Matrix) (req : MaskRequest) (k : Nat) :
    finishSymbol (chooseMask mx req).1 k = finishSymbol mx k := by
  rw [finishSymbol, trialGrid_chooseMask, finishSymbol]

theorem finishSymbol_mask_toNat (mx : Matrix) {k : Nat} (hk : k ≤ 7) : (finishSymbol mx k).mask.toNat = k := by
  rw [finishSymbol_mask, BitVec.toNat_ofNat]
  omega

/-! ### A trial on drawn patterns -/

theorem Redrawn.trans {a b c : Matrix} (h : Redrawn a b) (h' : Redrawn b c) : Redrawn a c where
  version := h'.version.trans h.version
  size := h'.size.trans h.size
  ecl := h'.ecl.trans h.ecl
  isfunc := h'.isfunc.trans h.isfunc
  outside x y hxy := (h'.outside x y (by rwa [inGrid, h.size])).trans (h.outside x y hxy)
  functions x y hf hn := (h'.functions x y (by rwa [h.isfunc]) (by rwa [h.size])).trans (h.functions x y hf hn)

section Drawn

variable {mx : Matrix} (hi : MatrixInv mx) (hp : patternsDrawn mx.phase)
include hi hp

theorem drawn_size_le : mx.size.toNat ≤ Config.maxSide := by
  have := drawn_sizes hi hp
  simp only [Config.maxSide]
  omega

/-- DrawFormat leaves every free cell (R217, R274). -/
theorem drawFormat_cell_of_free (m : Nat) {x y : Nat} (hf : mx.isfunc.cell x y = false) :
    (drawFormat mx m).modules.cell x y = mx.modules.cell x y := by
  refine modules_drawCells_of_not_mem fun b hb => ?_
  rw [drawn_isfunc_formatCells hi hp hb] at hf
  cases hf

/-- A free cell of the symbol in a trial: flipped by the mask, once (R266). -/
theorem trialGrid_cell_of_free (m : Nat) {x y : Nat} (hg : inGrid mx x y) (hf : mx.isfunc.cell x y = false) :
    (trialGrid mx m).modules.cell x y = (mx.modules.cell x y ^^ maskPred m x y) := by
  have hd := redrawn_drawFormat hi hp m
  rw [trialGrid, modules_applyMask _ _ _ _ (by rw [hd.size]; exact drawn_size_le hi hp), drawFormat_cell_of_free hi hp m hf,
    maskFlips_congr hd.size hd.isfunc, maskFlips_of_free m hg hf]

/-- The cells of the two copies of the format word are function cells (R217). -/
theorem isfunc_formatBit {i : Nat} (h15 : i < 15) {c : Nat × Nat}
    (h : c ∈ [formatFirstCopy.getD i (0, 0), (formatSecondCopy mx.size.toNat).getD i (0, 0)]) :
    mx.isfunc.cell c.1 c.2 = true := by
  have hs21 : 21 ≤ mx.size.toNat := by
    have := drawn_sizes hi hp
    omega
  exact drawn_isfunc_formatCells hi hp (mem_of_lastWrite (lastWrite_formatCells_bit hs21 0 (formatCopies_getElem? h15 h)))

/-- A format-bit cell in a trial: its bit of the mask's word (R266). -/
theorem trialGrid_bit (m : Nat) {i : Nat} (h15 : i < 15) {c : Nat × Nat}
    (h : c ∈ [formatFirstCopy.getD i (0, 0), (formatSecondCopy mx.size.toNat).getD i (0, 0)]) :
    (trialGrid mx m).modules.cell c.1 c.2 = (formatWord mx.ecl.toNat m).testBit i := by
  have hd := redrawn_drawFormat hi hp m
  rw [trialGrid, modules_applyMask _ _ _ _ (by rw [hd.size]; exact drawn_size_le hi hp), drawFormat_bit hi hp m h15 h,
    maskFlips_congr hd.size hd.isfunc, maskFlips_of_function m (isfunc_formatBit hi hp h15 h), Bool.xor_false]

theorem redrawn_trialGrid (m : Nat) : Redrawn mx (trialGrid mx m) :=
  (redrawn_drawFormat hi hp m).trans
    (redrawn_applyMask (matrixInv_drawFormat hi hp m) (by rw [drawFormat, drawCells_phase]; exact hp) m)

end Drawn

end Sys2Proof.Proofs
end

section
/-! SUPPORT. ApplyMask and MXMASK (spec/45_matrix_masking.md R250 to R252), and what the commands of phase DATA leave of the
function cells and of the free cells (R274). -/

namespace Sys2Proof.Proofs

open Sys2Proof.Machine Sys2Proof.Safety Sys2Proof.Laws

/-! ### ApplyMask -/

/-- A cell after ApplyMask, as R251 has it. -/
theorem applyMask_cell {mx : Matrix} (hs : mx.size.toNat ≤ 177) (m x y : Nat) : (applyMask mx m).modules.cell x y =
    if inGrid mx x y ∧ mx.isfunc.cell x y = false ∧ maskPred m x y = true then !mx.modules.cell x y
    else mx.modules.cell x y := by
  rw [modules_applyMask _ _ _ _ hs]
  by_cases hflip : maskFlips mx m x y = true
  · rw [if_pos (maskFlips_eq_true_iff.mp hflip), hflip, Bool.xor_true]
  · rw [if_neg (mt maskFlips_eq_true_iff.mpr hflip), Bool.eq_false_iff.mpr hflip, Bool.xor_false]

/-- Settles O48: `applyMask_cell`, `applyMask_applyMask_self` and `applyMask_comm`. -/
theorem applyMaskIsAnInvolutionOnFreeCells : Obligations.ApplyMaskIsAnInvolutionOnFreeCells :=
  fun mx m k hs => ⟨applyMask_cell hs m, applyMask_applyMask_self mx m, applyMask_comm mx m k⟩

/-! ### MXMASK -/

theorem maskPred_iff_maskCondition {m : Nat} (hm : m ≤ 7) (x y : Nat) : maskPred m x y = true ↔ maskCondition m x y := by
  interval_cases m <;> exact beq_iff_eq

theorem maskPred_pictures : ∀ m < 8, ∀ x < 6, ∀ y < 6,
    (maskPred m x y = true ↔ (((maskCorners.getD m []).getD y "").toList).getD x ' ' = '1') := by
  decide +kernel

theorem toggledTrial_toNat (trial : BitVec 4) {m : Nat} (hm : m ≤ 7) :
    (toggledTrial trial m).toNat = if trial.toNat = m then 8 else m := by
  rw [toggledTrial]
  split
  · rfl
  · rw [BitVec.toNat_ofNat]
    omega

/-- MXMASK in phase DATA with a legal operand and no other trial mask (R252). -/
theorem exec_mxmask_of_legal {s : State} (hf : s.status.fatal = false) (hp : s.mx.phase = .data) {m : Nat} (hm : m ≤ 7)
    (htrial : s.mx.trial.toNat = 8 ∨ s.mx.trial.toNat = m) : exec (.mxmask m) s = .next (
      answered (BitVec.ofNat 32 (toggledTrial s.mx.trial m).toNat) { s with mx := toggleMask s.mx m }) := by
  rw [exec_mxmask hf, if_neg (not_not_intro hp), if_neg (by simp [maskLegal, hm]), if_neg (by omega), BitVec.ofNat_toNat]

/-- Settles O49: the tests in the rule's order, then `applyMask_cell` and `toggledTrial_toNat`. -/
theorem mxmaskTogglesTheTrialMask : Obligations.MxmaskTogglesTheTrialMask := by
  refine ⟨fun m x y hm => maskPred_iff_maskCondition hm x y,
    fun m x y hm hx hy => maskPred_pictures m (by omega) x (by omega) y (by omega), fun s m hf hi => ?_⟩
  refine ⟨fun hp => ?_, fun hp hm => ?_, fun hp hm h8 hne => ?_, fun hp hm htrial =>
    ⟨(applyMask s.mx m).modules, toggledTrial s.mx.trial m, toggledTrial_toNat _ hm, exec_mxmask_of_legal hf hp hm htrial,
      applyMask_cell (drawn_size_le hi (.inr (.inl hp))) m⟩⟩
  · rw [exec_mxmask hf, if_pos hp]
  · rw [exec_mxmask hf, if_neg (not_not_intro hp), if_pos (by simpa [maskLegal] using hm)]
  · rw [exec_mxmask hf, if_neg (not_not_intro hp), if_neg (by simp [maskLegal, hm]), if_pos ⟨h8, hne⟩]

/-! ### Free cells and function cells -/

/-- MXMASK leaves every cell with the trial mask taken off (R252, R274). -/
theorem unmaskedCell_toggleMask {mx : Matrix} (hs : mx.size.toNat ≤ Config.maxSide) {m : Nat} (hm : m ≤ 7)
    (htrial : mx.trial.toNat = 8 ∨ mx.trial.toNat = m) (x y : Nat) :
    unmaskedCell (toggleMask mx m) x y = unmaskedCell mx x y := by
  rw [unmaskedCell, unmaskedCell, toggleMask_modules, modules_applyMask _ _ _ _ hs, toggleMask_trial,
    toggledTrial_toNat _ hm, maskFlips_congr (toggleMask_size mx m) (toggleMask_isfunc mx m)]
  by_cases h : mx.trial.toNat = m
  · rw [if_pos h, h, decide_eq_false (by decide), decide_eq_true (by omega), Bool.false_and, Bool.xor_false, Bool.true_and]
  · rw [if_neg h, decide_eq_true (by omega), decide_eq_false (by omega), Bool.false_and, Bool.true_and, Bool.xor_assoc,
      Bool.xor_self]

/-- MXFMT leaves every free cell with the trial mask taken off (R214, R274). -/
theorem unmaskedCell_drawFormat {mx : Matrix} (hi : MatrixInv mx) (hp : patternsDrawn mx.phase) (m : Nat) {x y : Nat}
    (hf : mx.isfunc.cell x y = false) : unmaskedCell (drawFormat mx m) x y = unmaskedCell mx x y := by
  have hd := redrawn_drawFormat hi hp m
  have htrial : (drawFormat mx m).trial = mx.trial := drawCells_trial _ _
  rw [unmaskedCell, unmaskedCell, drawFormat_cell_of_free hi hp m hf, htrial, maskFlips_congr hd.size hd.isfunc]

theorem unmaskedCell_of_no_trial {mx : Matrix} (h : mx.trial.toNat = 8) (x y : Nat) :
    unmaskedCell mx x y = mx.modules.cell x y := by
  rw [unmaskedCell, h, decide_eq_false (by decide), Bool.false_and, Bool.xor_false]

/-- What a command does to the matrix of phase DATA, RESET and MXNEW aside (R42, R274): it redraws the format-bit cells or
masks the free cells with the phase kept, or MXSEL finishes the symbol with the mask that it answers. -/
theorem exec_data_cases {i : Instr} {s t : State} (hi : MatrixInv s.mx) (hp : s.mx.phase = .data) (h : exec i s = .next t)
    (hr : i ≠ .reset) (hn : ∀ v l, i ≠ .mxnew v l) :
    (Redrawn s.mx t.mx ∧ t.mx.phase = .data ∧
      ∀ x y, s.mx.isfunc.cell x y = false → unmaskedCell t.mx x y = unmaskedCell s.mx x y) ∨
    ∃ c, c ≤ 7 ∧ s.mx.trial.toNat = 8 ∧ resultOf t = some (BitVec.ofNat 32 c) ∧ t.mx = finishSymbol s.mx c := by
  have hd : patternsDrawn s.mx.phase := .inr (.inl hp)
  have hsame : Redrawn s.mx s.mx := ⟨rfl, rfl, rfl, rfl, fun _ _ _ => rfl, fun _ _ _ _ => rfl⟩
  rcases exec_mx_cases h with ht | ⟨rfl, -⟩ | ⟨v, l, rfl, -⟩ | ⟨-, ha, -⟩ | ⟨_, _, -, ha, -⟩ | ⟨m, -, -, -, ht, -⟩ |
    ⟨m, -, -, hm, htr, ht, -⟩ | ⟨-, -, ht, -⟩ | ⟨req, -, -, htr, hreq, ht⟩
  · rw [ht]
    exact .inl ⟨hsame, hp, fun _ _ _ => rfl⟩
  · exact absurd rfl hr
  · exact absurd rfl (hn v l)
  · exact absurd (hp.symm.trans ha) (by decide)
  · exact absurd (hp.symm.trans ha) (by decide)
  · rw [ht]
    exact .inl ⟨redrawn_drawFormat hi hd m, (drawCells_phase _ _).trans hp, fun _ _ hf => unmaskedCell_drawFormat hi hd m hf⟩
  · rw [ht]
    obtain ⟨_, _, _, _, houtside, hfunctions⟩ := redrawn_applyMask hi hd m
    exact .inl ⟨⟨rfl, rfl, rfl, rfl, houtside, hfunctions⟩, hp,
      fun x y _ => unmaskedCell_toggleMask (drawn_size_le hi hd) hm htr x y⟩
  · rw [ht]
    obtain ⟨_, _, _, _, houtside, hfunctions⟩ := hsame
    exact .inl ⟨⟨rfl, rfl, rfl, rfl, houtside, hfunctions⟩, hp, fun _ _ _ => rfl⟩
  · obtain ⟨-, -, hk⟩ := chooseMask_spec ⟨hi, hp, BitVec.eq_of_toNat_eq htr⟩ hreq
    exact .inr ⟨_, hk, htr, by rw [ht, resultOf_answered], by rw [ht, answered_mx, finishSymbol_chooseMask]⟩

/-- Settles O55, by `exec_data_cases` and the cells of a trial. -/
theorem maskingTouchesFreeCellsOnce : Obligations.MaskingTouchesFreeCellsOnce := by
  intro i s t hi hp h hr hn
  have hd : patternsDrawn s.mx.phase := .inr (.inl hp)
  rcases exec_data_cases hi hp h hr hn with ⟨hredrawn, hphase, hfree⟩ | ⟨c, hc, htrial, hresult, ht⟩
  · exact ⟨hredrawn.isfunc, hredrawn.functions, fun _ => hfree, fun hfinal => absurd (hphase.symm.trans hfinal) (by decide)⟩
  · have hredrawn := redrawn_trialGrid hi hd c
    rw [ht, finishSymbol_modules, finishSymbol_isfunc, finishSymbol_phase]
    refine ⟨hredrawn.isfunc, hredrawn.functions, fun hdata => absurd hdata (by decide), fun _ =>
      ⟨c, hc, hresult, finishSymbol_mask_toNat _ hc, fun x y hg hf => ?_, fun k hk p hcell => trialGrid_bit hi hd c hk hcell⟩⟩
    rw [unmaskedCell_of_no_trial htrial, trialGrid_cell_of_free hi hd c hg hf]

end Sys2Proof.Proofs
end

section
/-! SUPPORT. The penalty score (spec/45_matrix_masking.md R255 to R263): its four sums in the terms of the statements, and their
bounds. -/

namespace Sys2Proof.Proofs

open Sys2Proof.Machine Sys2Proof.Safety Sys2Proof.Laws

/-! ### Lines -/

theorem symbolLines_eq (g : Grid) (size : Nat) : symbolLines g size =
    (List.range size).map (fun k => (rowAndColumn g size k).1) ++ (List.range size).map (fun k => (rowAndColumn g size k).2) :=
  rfl

/-- A sum over the rows and the columns, taken one row and one column at a time. -/
theorem sum_symbolLines (g : Grid) (size : Nat) (f : List Bool → Nat) : ((symbolLines g size).map f).sum =
    ((List.range size).map fun k => f (rowAndColumn g size k).1 + f (rowAndColumn g size k).2).sum := by
  rw [symbolLines_eq, List.map_append, List.sum_append, List.map_map, List.map_map, List.sum_map_add]
  rfl

theorem length_of_mem_symbolLines {g : Grid} {size : Nat} {line : List Bool} (h : line ∈ symbolLines g size) :
    line.length = size := by
  rw [symbolLines_eq, List.mem_append, List.mem_map, List.mem_map] at h
  rcases h with ⟨k, -, rfl⟩ | ⟨k, -, rfl⟩ <;> simp [rowAndColumn]

theorem length_symbolLines (g : Grid) (size : Nat) : (symbolLines g size).length = 2 * size := by
  simp [symbolLines_eq, Nat.two_mul]

/-- A bound on every line bounds the sum over all of them. -/
theorem sum_symbolLines_le {g : Grid} {size bound : Nat} {f : List Bool → Nat}
    (h : ∀ line : List Bool, line.length = size → f line ≤ bound) :
    ((symbolLines g size).map f).sum ≤ 2 * size * bound := by
  have hle := List.sum_le_card_nsmul ((symbolLines g size).map f) bound (by
    simp only [List.mem_map]
    rintro _ ⟨line, hline, rfl⟩
    exact h line (length_of_mem_symbolLines hline))
  rwa [List.length_map, length_symbolLines, smul_eq_mul] at hle

/-! ### N1: runs -/

/-- The cell that makes a run one longer adds what the longer run contributes more (R256). -/
theorem runPenalty_succ (r : Nat) : runPenalty (r + 1) = runPenalty r + runAdds (r + 1) := by
  rw [runPenalty, runPenalty, runAdds]
  split_ifs <;> omega

/-- The rest of a line after a run of `group.length + 1` cells, on the model's side and on the splitting's (R256). -/
theorem runs_splitBy_loop (line : List Bool) (prev : Bool) (group : List Bool) (done : List (List Bool)) :
    ((List.splitBy.loop (fun a b => a == b) line prev group done).map fun run => runPenalty run.length).sum =
      (done.map fun run => runPenalty run.length).sum + runPenalty (group.length + 1) +
        n1From prev (group.length + 1) line := by
  induction line generalizing prev group done with
  | nil => simp [List.splitBy.loop, n1From, List.sum_reverse, Nat.add_comm]
  | cons c rest ih =>
    rw [List.splitBy.loop, n1From]
    by_cases hc : c = prev
    · subst hc
      simp only [beq_self_eq_true, if_true]
      rw [ih, List.length_cons, runPenalty_succ (group.length + 1)]
      omega
    · rw [if_neg hc, beq_eq_false_iff_ne.mpr (Ne.symm hc)]
      dsimp only
      rw [ih]
      simp [runPenalty, Nat.add_comm]

/-- R256's loop over a line finds what the maximal runs contribute. -/
theorem n1Line_eq_lineRuns (line : List Bool) : n1Line line = lineRuns line := by
  cases line with
  | nil => rfl
  | cons c rest =>
    rw [lineRuns, List.splitBy, runs_splitBy_loop]
    simp [n1Line, runPenalty]

theorem penaltyN1_eq (g : Grid) (size : Nat) : penaltyN1 g size = ((List.range size).map fun k =>
    lineRuns (rowAndColumn g size k).1 + lineRuns (rowAndColumn g size k).2).sum := by
  rw [penaltyN1, funext n1Line_eq_lineRuns, sum_symbolLines]

theorem n1From_add_runPenalty_le (line : List Bool) (prev : Bool) {run : Nat} (h : 1 ≤ run) :
    n1From prev run line + runPenalty run ≤ run + line.length - 2 := by
  induction line generalizing prev run with
  | nil =>
    rw [n1From, runPenalty, List.length_nil]
    split <;> omega
  | cons c rest ih =>
    rw [n1From, List.length_cons]
    split
    · have := ih prev (run := run + 1) (by omega)
      have := runPenalty_succ run
      omega
    · have hrest := ih c (run := 1) (by omega)
      have hrun : runPenalty run ≤ run - 2 := by
        rw [runPenalty]
        split <;> omega
      have hone : runPenalty 1 = 0 := rfl
      omega

theorem n1Line_le (line : List Bool) : n1Line line ≤ line.length - 2 := by
  cases line with
  | nil => exact Nat.le_refl 0
  | cons c rest =>
    have := n1From_add_runPenalty_le rest c (run := 1) (by omega)
    rw [n1Line, List.length_cons]
    omega

/-! ### N2 and N4: counts of cells -/

/-- The cells counted row by row. -/
theorem cellCount_eq_countP (side : Nat) (p : Nat → Nat → Bool) :
    cellCount side p = (symbolCells side).countP fun c => p c.1 c.2 := by
  have hcells : (Finset.range side ×ˢ Finset.range side).filter (fun c => p c.1 c.2 = true) =
      ((symbolCells side).filter fun c => p c.1 c.2).toFinset := by
    ext ⟨x, y⟩
    simp [mem_symbolCells]
  rw [cellCount, hcells, List.toFinset_card_of_nodup ((nodup_symbolCells side).filter _), List.countP_eq_length_filter]

theorem length_symbolCells (size : Nat) : (symbolCells size).length = size * size := by
  simp [symbolCells, List.length_flatMap]

theorem cellCount_le (side : Nat) (p : Nat → Nat → Bool) : cellCount side p ≤ side * side := by
  rw [cellCount_eq_countP, ← length_symbolCells]
  exact List.countP_le_length

theorem darkCount_eq_cellCount (g : Grid) (size : Nat) : darkCount g size = cellCount size g.cell :=
  (cellCount_eq_countP size g.cell).symm

theorem uniformBlock_eq_oneColour (g : Grid) (x y : Nat) : uniformBlock g x y = oneColour g x y := by
  simp [uniformBlock, oneColour, Bool.and_assoc]

theorem penaltyN2_eq (g : Grid) (size : Nat) : penaltyN2 g size = 3 * cellCount (size - 1) (oneColour g) := by
  rw [penaltyN2, cellCount_eq_countP, symbolCells, List.countP_flatMap]
  simp only [Function.comp_def, List.countP_map, uniformBlock_eq_oneColour]

/-- R259's least step: its band holds the ratio, and no smaller step's does. -/
theorem bandStep_spec {dark total : Nat} (h : dark ≤ total) : bandStep dark total ≤ 9 ∧
    inBand dark total (bandStep dark total) = true ∧ ∀ j, j < bandStep dark total → inBand dark total j = false := by
  have hlast : inBand dark total 9 = true := by
    rw [inBand, Bool.and_eq_true, decide_eq_true_iff, decide_eq_true_iff]
    omega
  obtain ⟨k, hk⟩ : ∃ k, (List.range 10).find? (inBand dark total) = some k :=
    Option.isSome_iff_exists.mp (List.find?_isSome.mpr ⟨9, by decide, hlast⟩)
  rw [bandStep, hk, Option.getD_some]
  obtain ⟨hin, hmem, hleast⟩ := List.find?_range_eq_some.mp hk
  exact ⟨Nat.le_of_lt_succ (List.mem_range.mp hmem), hin, fun j hj => by simpa using hleast j hj⟩

/-! ### N3: windows -/

theorem windowWord_append (w : List Bool) (c : Bool) : windowWord (w ++ [c]) = Nat.bit c (windowWord w) := by
  rw [windowWord, List.foldl_append, List.foldl_cons, List.foldl_nil, ← windowWord, Nat.bit_val,
    ← Nat.shiftLeft_add_eq_or_of_lt (by cases c <;> decide), Nat.shiftLeft_eq]
  cases c <;> simp [bit01, Nat.mul_comm]

/-- Windows of one length that read as one number are equal (R258). -/
theorem windowWord_inj {v w : List Bool} (hlen : v.length = w.length) (h : windowWord v = windowWord w) : v = w := by
  induction v using List.reverseRecOn generalizing w with
  | nil => exact (List.length_eq_zero_iff.mp hlen.symm).symm
  | append_singleton v b ih =>
    obtain ⟨w, c, rfl⟩ : ∃ w' c, w = w' ++ [c] := by
      rw [← List.dropLast_append_getLast (l := w) (by rintro rfl; simp at hlen)]
      exact ⟨_, _, rfl⟩
    rw [windowWord_append, windowWord_append] at h
    have hcell : b = c := by simpa only [Nat.bodd_bit] using congrArg Nat.bodd h
    have hrest : windowWord v = windowWord w := by simpa only [Nat.div2_bit] using congrArg Nat.div2 h
    rw [ih (by simpa using hlen) hrest, hcell]

theorem finderLike_eq {line : List Bool} {start : Nat} (h : start + 11 ≤ line.length) : finderLike line start =
    (decide ((line.drop start).take 11 = finderPatternA) || decide ((line.drop start).take 11 = finderPatternB)) := by
  have hlen : ((line.drop start).take 11).length = 11 := by
    rw [List.length_take, List.length_drop]
    omega
  have hword {pattern : List Bool} (hp : pattern.length = 11) :
      (windowWord ((line.drop start).take 11) == windowWord pattern) = decide ((line.drop start).take 11 = pattern) := by
    rw [Bool.eq_iff_iff, beq_iff_eq, decide_eq_true_iff]
    exact ⟨windowWord_inj (hlen.trans hp.symm), congrArg windowWord⟩
  exact congrArg₂ or (hword (pattern := finderPatternA) rfl) (hword (pattern := finderPatternB) rfl)

/-- The windows that lie wholly inside a line are those that start before its last ten cells (R258). -/
theorem countP_range_windows (n : Nat) (p : Nat → Bool) :
    (List.range n).countP (fun start => decide (start + 11 ≤ n) && p start) = (List.range (n - 10)).countP p := by
  have hsplit : List.range n = List.range (n - 10) ++ (List.range (n - (n - 10))).map (n - 10 + ·) := by
    rw [← List.range_add, Nat.add_sub_cancel' (Nat.sub_le n 10)]
  have houtside : ((List.range (n - (n - 10))).map (n - 10 + ·)).countP
      (fun start => decide (start + 11 ≤ n) && p start) = 0 := by
    rw [List.countP_eq_zero]
    simp only [List.mem_map]
    rintro _ ⟨j, -, rfl⟩
    rw [decide_eq_false (by omega), Bool.false_and]
    decide
  rw [hsplit, List.countP_append, houtside, Nat.add_zero]
  refine List.countP_congr fun start hstart => ?_
  rw [decide_eq_true (by have := List.mem_range.mp hstart; omega), Bool.true_and]

theorem lineWindows_eq_countP (line : List Bool) :
    lineWindows line = (List.range (line.length - 10)).countP (finderLike line) := by
  rw [lineWindows, countP_range_windows line.length fun start =>
    decide ((line.drop start).take 11 = finderPatternA) || decide ((line.drop start).take 11 = finderPatternB)]
  refine List.countP_congr fun start hstart => ?_
  rw [finderLike_eq (by have := List.mem_range.mp hstart; omega)]

theorem penaltyN3_eq (g : Grid) (size : Nat) : penaltyN3 g size = 40 * ((List.range size).map fun k =>
    lineWindows (rowAndColumn g size k).1 + lineWindows (rowAndColumn g size k).2).sum := by
  have hline : ∀ line ∈ symbolLines g size, n3Line size line = 40 * lineWindows line := fun line h => by
    rw [n3Line, lineWindows_eq_countP, length_of_mem_symbolLines h]
  rw [penaltyN3, List.map_congr_left hline, List.sum_map_mul_left, sum_symbolLines]

theorem n3Line_le (size : Nat) (line : List Bool) : n3Line size line ≤ 40 * (size - 10) := by
  have := List.countP_le_length (p := finderLike line) (l := List.range (size - 10))
  rw [List.length_range] at this
  rw [n3Line]
  omega

/-! ### The statement -/

/-- Settles O51, one equation for each component, and `bandStep_spec` for the step of N4. -/
theorem runsWindowsAndBalanceOfThePenalty : Obligations.RunsWindowsAndBalanceOfThePenalty := by
  intro g size
  obtain ⟨h9, hin, hleast⟩ := bandStep_spec (cellCount_le size g.cell)
  rw [inBand, Bool.and_eq_true, decide_eq_true_iff, decide_eq_true_iff] at hin
  refine ⟨penaltyN1_eq g size, penaltyN2_eq g size, penaltyN3_eq g size,
    bandStep (cellCount size g.cell) (size * size), h9, by rw [penaltyN4, darkCount_eq_cellCount], hin.1, hin.2, fun j hj => ?_⟩
  have hout := hleast j hj
  rw [inBand, Bool.and_eq_false_iff, decide_eq_false_iff_not, decide_eq_false_iff_not] at hout
  omega

/-! ### Bounds -/

/-- The bounds of R263. -/
theorem penalty_le (g : Grid) {size : Nat} (hs : size ≤ 177) :
    penaltyN1 g size ≤ 61950 ∧ penaltyN2 g size ≤ 92928 ∧ penaltyN3 g size ≤ 2364720 ∧ penaltyN4 g size ≤ 90 := by
  refine ⟨?_, ?_, ?_, ?_⟩
  · have hline (line : List Bool) (h : line.length = size) : n1Line line ≤ 175 :=
      (n1Line_le line).trans (by omega)
    have := sum_symbolLines_le (g := g) hline
    rw [penaltyN1]
    omega
  · have := cellCount_le (size - 1) (oneColour g)
    have : (size - 1) * (size - 1) ≤ 176 * 176 := Nat.mul_le_mul (by omega) (by omega)
    rw [penaltyN2_eq]
    omega
  · have hline (line : List Bool) (_ : line.length = size) : n3Line size line ≤ 6680 :=
      (n3Line_le size line).trans (by omega)
    have := sum_symbolLines_le (g := g) hline
    rw [penaltyN3]
    omega
  · have := (bandStep_spec (cellCount_le size g.cell)).1
    rw [penaltyN4, darkCount_eq_cellCount]
    omega

theorem penalty_total_lt (g : Grid) {size : Nat} (hs : size ≤ 177) : (penalty g size).total < 2 ^ 32 := by
  obtain ⟨h1, h2, h3, h4⟩ := penalty_le g hs
  simp only [Penalty.total, penalty]
  omega

/-- The penalty registers after scoring hold the components and their sum, none wrapped (R262, R263). -/
theorem scored_registers {mx : Matrix} (hs : mx.size.toNat ≤ 177) :
    (scored mx).penN1.toNat = penaltyN1 mx.modules mx.size.toNat ∧
    (scored mx).penN2.toNat = penaltyN2 mx.modules mx.size.toNat ∧
    (scored mx).penN3.toNat = penaltyN3 mx.modules mx.size.toNat ∧
    (scored mx).penN4.toNat = penaltyN4 mx.modules mx.size.toNat ∧
    (scored mx).penTotal.toNat =
      (scored mx).penN1.toNat + (scored mx).penN2.toNat + (scored mx).penN3.toNat + (scored mx).penN4.toNat := by
  obtain ⟨h1, h2, h3, h4⟩ := penalty_le mx.modules hs
  simp only [scored_penN1, scored_penN2, scored_penN3, scored_penN4, scored_penTotal, BitVec.toNat_ofNat,
    Penalty.total, penalty]
  omega

/-- MXPEN in the phases DATA and FINAL (R262). -/
theorem exec_mxpen_of_legal {s : State} (hf : s.status.fatal = false) (hp : s.mx.phase = .data ∨ s.mx.phase = .final) :
    exec .mxpen s = .next (answered (scored s.mx).penTotal { s with mx := scored s.mx }) := by
  rw [exec_mxpen hf, if_neg (by tauto)]

/-- Settles O50, by `penalty_le` and `scored_registers`. -/
theorem mxpenScoresTheGrid : Obligations.MxpenScoresTheGrid :=
  ⟨fun g _ hs => penalty_le g hs, fun _ hf hi => ⟨fun hdata hfinal => by rw [exec_mxpen hf, if_pos ⟨hdata, hfinal⟩],
    fun hp => ⟨_, _, _, _, _, exec_mxpen_of_legal hf hp, scored_registers (drawn_size_le hi (.inr hp))⟩⟩⟩

end Sys2Proof.Proofs
end

section
/-! SUPPORT. MXSEL (spec/45_matrix_masking.md R266), the trial loop by hand (R268), and the read-out (R270, R272). -/

namespace Sys2Proof.Proofs

open Sys2Proof.Machine Sys2Proof.Safety Sys2Proof.Laws

/-! ### MXSEL -/

@[simp] theorem trialGrid_size (mx : Matrix) (m : Nat) : (trialGrid mx m).size = mx.size := by
  rw [trialGrid, applyMask_size, drawFormat, drawCells_size]

@[simp] theorem trialGrid_trial (mx : Matrix) (m : Nat) : (trialGrid mx m).trial = mx.trial := by
  rw [trialGrid, applyMask_trial, drawFormat, drawCells_trial]

/-- MXSEL in phase DATA with no trial mask finishes the symbol with the mask chosen (R266). -/
theorem exec_mxsel_of_legal {s : State} (hf : s.status.fatal = false) (hp : s.mx.phase = .data) (htrial : s.mx.trial.toNat = 8)
    {req : MaskRequest} (hreq : requestLegal req = true) : exec (.mxsel req) s = .next (
      answered (BitVec.ofNat 32 (chooseMask s.mx req).2) { s with mx := finishSymbol s.mx (chooseMask s.mx req).2 }) := by
  rw [exec_mxsel hf, if_neg (by simp [hp, htrial]), if_neg (by simp [hreq]), finishSymbol_chooseMask]

/-- Settles O52: the tests in the rule's order, then the cells of a trial and `scored_registers`. -/
theorem mxselForcedFinishesTheSymbol : Obligations.MxselForcedFinishesTheSymbol := by
  intro s m hf hi
  refine ⟨fun hbad req => ?_, fun hp htrial hm => ?_, fun hp htrial hm => ?_⟩
  · rw [exec_mxsel hf, if_pos hbad]
  · rw [exec_mxsel hf, if_neg (by simp [hp, htrial]), if_pos (by simpa [requestLegal, maskLegal] using hm)]
  · have hd : patternsDrawn s.mx.phase := .inr (.inl hp)
    have hredrawn := redrawn_trialGrid hi hd m
    have hregisters := scored_registers (mx := trialGrid s.mx m) (by rw [trialGrid_size]; exact drawn_size_le hi hd)
    refine ⟨finishSymbol s.mx m, exec_mxsel_of_legal hf hp htrial (req := .forced m) (decide_eq_true hm), ?_⟩
    rw [finishSymbol_phase, finishSymbol_trial, trialGrid_trial, finishSymbol_version, finishSymbol_size, finishSymbol_ecl,
      finishSymbol_isfunc, finishSymbol_modules, finishSymbol_penN1, finishSymbol_penN2, finishSymbol_penN3,
      finishSymbol_penN4, finishSymbol_penTotal]
    exact ⟨rfl, finishSymbol_mask_toNat _ hm, rfl, hredrawn.version, hredrawn.size, hredrawn.ecl, hredrawn.isfunc,
      fun x y hg hfree => trialGrid_cell_of_free hi hd m hg hfree, fun i h15 c hc => trialGrid_bit hi hd m h15 hc,
      hredrawn.functions, hregisters⟩

/-! ### The lowest score -/

theorem trialScore_congr {a b : Matrix} {m : Nat} (h : drawFormat a m = drawFormat b m) : trialScore a m = trialScore b m := by
  have hsize : a.size = b.size := by
    rw [← drawCells_size _ a, ← drawFormat, h, drawFormat, drawCells_size]
  rw [trialScore, trialScore, trialGrid, trialGrid, h, hsize]

/-- A round of MXSEL's loop: the mask tried becomes the best, being the first or of a strictly lower score, or it does not
(R266). -/
theorem trialRound_cases (sel : Selection) (m : Nat) :
    ((m = 0 ∨ trialScore sel.mx m < sel.bestScore) ∧ (trialRound sel m).best = m ∧
      (trialRound sel m).bestScore = trialScore sel.mx m) ∨
    (m ≠ 0 ∧ sel.bestScore ≤ trialScore sel.mx m ∧ (trialRound sel m).best = sel.best ∧
      (trialRound sel m).bestScore = sel.bestScore) := by
  rw [trialRound, trialScore, trialGrid_size]
  split
  · next h => exact .inl ⟨h, rfl, rfl⟩
  · next h => exact .inr ⟨by omega, by omega, rfl, rfl⟩

/-- What the trials of the masks below `n` have found: the lowest score, and the lowest mask that has it (R266). -/
structure BestBelow (mx : Matrix) (n : Nat) (sel : Selection) : Prop where
  best : sel.best < n
  score : sel.bestScore = trialScore mx sel.best
  least : ∀ m, m < n → trialScore mx sel.best ≤ trialScore mx m
  first : ∀ m, m < sel.best → trialScore mx sel.best < trialScore mx m

/-- The first trial is the best of one. -/
theorem bestBelow_trialRound_zero (mx : Matrix) : BestBelow mx 1 (trialRound ⟨mx, 0, 0⟩ 0) := by
  rcases trialRound_cases ⟨mx, 0, 0⟩ 0 with ⟨-, hbest, hscore⟩ | ⟨h, -⟩
  · constructor
    case best => rw [hbest]; exact Nat.one_pos
    case score => rw [hscore, hbest]
    case least =>
      intro m hm
      rw [hbest, Nat.lt_one_iff.mp hm]
    case first =>
      intro m hm
      rw [hbest] at hm
      exact absurd hm (Nat.not_lt_zero m)
  · exact absurd rfl h

/-- A further trial keeps the best, if it scores what its mask scores on the symbol the loop began with. -/
theorem bestBelow_trialRound {mx : Matrix} {n : Nat} {sel : Selection} (h : BestBelow mx n sel)
    (htrial : trialScore sel.mx n = trialScore mx n) : BestBelow mx (n + 1) (trialRound sel n) := by
  obtain ⟨hlt, hbestScore, hleast, hfirst⟩ := h
  rcases trialRound_cases sel n with ⟨hlow, hbest, hscore⟩ | ⟨-, hhigh, hbest, hscore⟩
  · have hlower : trialScore mx n < trialScore mx sel.best := by omega
    constructor
    case best => omega
    case score => rw [hscore, hbest, htrial]
    case least =>
      intro m hm
      rw [hbest]
      rcases Nat.lt_succ_iff_lt_or_eq.mp hm with hm | rfl
      · exact (hlower.trans_le (hleast m hm)).le
      · exact Nat.le_refl _
    case first =>
      intro m hm
      rw [hbest] at hm ⊢
      exact hlower.trans_le (hleast m hm)
  · constructor
    case best => omega
    case score => rw [hscore, hbest, hbestScore]
    case least =>
      intro m hm
      rw [hbest]
      rcases Nat.lt_succ_iff_lt_or_eq.mp hm with hm | rfl
      · exact hleast m hm
      · omega
    case first =>
      rw [hbest]
      exact hfirst

theorem bestBelow_foldl (mx : Matrix) (n : Nat) :
    BestBelow mx (n + 1) ((List.range (n + 1)).foldl trialRound ⟨mx, 0, 0⟩) := by
  induction n with
  | zero => exact bestBelow_trialRound_zero mx
  | succ n ih =>
    rw [List.range_succ, List.foldl_append, List.foldl_cons, List.foldl_nil]
    exact bestBelow_trialRound ih (trialScore_congr (drawFormat_foldl_trialRound _ _ _))

theorem bestBelow_trialLoop (mx : Matrix) : BestBelow mx 8 (trialLoop mx) := by
  rw [trialLoop]
  exact bestBelow_foldl mx 7

/-- Settles O53, by `bestBelow_trialLoop`: the forced selection of the loop's best mask finishes the same symbol. -/
theorem mxselAutoPicksTheLowestScore : Obligations.MxselAutoPicksTheLowestScore := by
  intro s hf hp htrial
  have hauto := exec_mxsel_of_legal hf hp htrial (req := .auto) rfl
  have hloop := bestBelow_trialLoop s.mx
  simp only [chooseMask_auto] at hauto
  generalize trialLoop s.mx = sel at hauto hloop
  obtain ⟨hbest, -, hleast, hfirst⟩ := hloop
  have hc : sel.best ≤ 7 := Nat.le_of_lt_succ hbest
  exact ⟨sel.best, _, hc, hauto, exec_mxsel_of_legal hf hp htrial (req := .forced sel.best) (decide_eq_true hc),
    statusOf_answered _ _, fun m hm => hleast m (Nat.lt_succ_of_le hm), hfirst⟩

/-! ### The trial loop by hand -/

/-- What a drawing makes of the grids depends on the grids alone. -/
theorem drawCells_grids_congr (cells : List CellWrite) {a b : Matrix} (hmod : a.modules = b.modules)
    (hisf : a.isfunc = b.isfunc) :
    (drawCells a cells).modules = (drawCells b cells).modules ∧ (drawCells a cells).isfunc = (drawCells b cells).isfunc :=
  ⟨grid_ext fun x y hx hy => by rw [modules_drawCells _ _ hx hy, modules_drawCells _ _ hx hy, hmod],
    grid_ext fun x y hx hy => by rw [isfunc_drawCells _ _ hx hy, isfunc_drawCells _ _ hx hy, hisf]⟩

theorem applyMask_modules_congr {a b : Matrix} (hsize : a.size = b.size) (hmod : a.modules = b.modules)
    (hisf : a.isfunc = b.isfunc) (m : Nat) : (applyMask a m).modules = (applyMask b m).modules := by
  rw [applyMask_modules, applyMask_modules, hmod]
  simp only [maskFlips_congr hsize hisf]

/-- The score of a trial depends on the size, the level and the grids (R268). -/
theorem trialScore_congr_grids {a b : Matrix} (hsize : a.size = b.size) (hecl : a.ecl = b.ecl) (hmod : a.modules = b.modules)
    (hisf : a.isfunc = b.isfunc) (m : Nat) : trialScore a m = trialScore b m := by
  have hgrids := drawCells_grids_congr (formatCells b.size.toNat (formatWord b.ecl.toNat m)) hmod hisf
  have hdraw : (drawFormat a m).modules = (drawFormat b m).modules ∧ (drawFormat a m).isfunc = (drawFormat b m).isfunc := by
    rwa [drawFormat, drawFormat, hsize, hecl]
  have hdsize : (drawFormat a m).size = (drawFormat b m).size := by
    rw [drawFormat, drawFormat, drawCells_size, drawCells_size, hsize]
  rw [trialScore, trialScore, trialGrid, trialGrid, applyMask_modules_congr hdsize hdraw.1 hdraw.2, hsize]

/-- MXFMT in phase DATA with a legal operand (R214). -/
theorem exec_mxfmt_of_legal {s : State} (hf : s.status.fatal = false) (hp : s.mx.phase = .data) {m : Nat} (hm : m ≤ 7) :
    exec (.mxfmt m) s =
      .next (answered (BitVec.ofNat 32 (formatWord s.mx.ecl.toNat m)) { s with mx := drawFormat s.mx m }) := by
  rw [exec_mxfmt hf, if_neg (not_not_intro hp), if_neg (by simp [maskLegal, hm])]

/-- The matrix after MXFMT, MXMASK, MXPEN and MXMASK again with one mask: its later trials score what they scored before. -/
theorem trialScore_after_handLoop (mx : Matrix) (m k : Nat) :
    trialScore (toggleMask (scored (toggleMask (drawFormat mx m) m)) m) k = trialScore mx k := by
  have hmod : (applyMask (scored (toggleMask (drawFormat mx m) m)) m).modules = (drawFormat mx m).modules := by
    have hmasked : (scored (toggleMask (drawFormat mx m) m)).modules = (applyMask (drawFormat mx m) m).modules := by
      rw [scored_modules, toggleMask_modules]
    rw [applyMask_modules_congr (b := applyMask (drawFormat mx m) m) ?_ hmasked ?_ m, applyMask_applyMask_self]
    · rw [scored_size, toggleMask_size, applyMask_size]
    · rw [scored_isfunc, toggleMask_isfunc, applyMask_isfunc]
  rw [← trialScore_congr (drawFormat_drawFormat mx m k)]
  apply trialScore_congr_grids
  · rw [toggleMask_size, scored_size, toggleMask_size]
  · rw [toggleMask_ecl, scored_ecl, toggleMask_ecl]
  · rw [toggleMask_modules, hmod]
  · rw [toggleMask_isfunc, scored_isfunc, toggleMask_isfunc]

/-- Settles O54: the grid that the three commands score is the trial's; `trialScore_after_handLoop` for the later trials. -/
theorem handLoopGivesTheTrialScores : Obligations.HandLoopGivesTheTrialScores := by
  intro s m hf hi hp htrial hm
  have hphase : (drawFormat s.mx m).phase = .data := by rw [drawFormat, drawCells_phase, hp]
  have htoggled : (toggleMask (drawFormat s.mx m) m).trial.toNat = m := by
    rw [toggleMask_trial, toggledTrial_toNat _ hm, drawFormat, drawCells_trial, if_neg (by omega)]
  obtain ⟨s₁, hfmt, hf₁, hmx₁⟩ : ∃ t, exec (.mxfmt m) s = .next t ∧ t.status.fatal = false ∧ t.mx = drawFormat s.mx m :=
    ⟨_, exec_mxfmt_of_legal hf hp hm, hf, rfl⟩
  obtain ⟨s₂, hmask, hf₂, hmx₂⟩ : ∃ t, exec (.mxmask m) s₁ = .next t ∧ t.status.fatal = false ∧
      t.mx = toggleMask (drawFormat s.mx m) m :=
    ⟨_, exec_mxmask_of_legal hf₁ (by rw [hmx₁, hphase]) hm (.inl (by rw [hmx₁, drawFormat, drawCells_trial, htrial])), hf₁,
      by rw [answered_mx, hmx₁]⟩
  have hphase₂ : s₂.mx.phase = .data := by rw [hmx₂, toggleMask_phase, hphase]
  have hscore : (scored s₂.mx).penTotal = BitVec.ofNat 32 (trialScore s.mx m) := by
    rw [hmx₂, scored_penTotal, toggleMask_modules, ← trialGrid, toggleMask_size, drawFormat, drawCells_size, trialScore]
  obtain ⟨t, hpen, hf₃, hmx₃, hstatus, hresult⟩ : ∃ t, exec .mxpen s₂ = .next t ∧ t.status.fatal = false ∧
      t.mx = scored s₂.mx ∧ statusOf t = some 0 ∧ resultOf t = some (scored s₂.mx).penTotal :=
    ⟨_, exec_mxpen_of_legal hf₂ (.inl hphase₂), hf₂, rfl, rfl, rfl⟩
  have htrial₃ : t.mx.trial.toNat = m := by rw [hmx₃, scored_trial, hmx₂, htoggled]
  have hphase₃ : t.mx.phase = .data := by rw [hmx₃, scored_phase, hphase₂]
  refine ⟨t, _, by simp only [runAll, hfmt, hmask, hpen], hstatus, hresult.trans (congrArg some hscore),
    penalty_total_lt _ (drawn_size_le hi (.inr (.inl hp))), exec_mxmask_of_legal hf₃ hphase₃ hm (.inr htrial₃), rfl, hphase₃,
    ?_, fun k _ => ?_⟩
  · rw [answered_mx, toggleMask_trial, toggledTrial_toNat _ hm, if_pos htrial₃]
  · rw [answered_mx, hmx₃, hmx₂, trialScore_after_handLoop]

/-! ### Read-out -/

theorem inSymbol_and_iff {size : Nat} {x y : Int} :
    (inSymbol size x && inSymbol size y) = true ↔ (0 ≤ x ∧ x < size) ∧ 0 ≤ y ∧ y < size := by
  simp [inSymbol]

/-- Inside the symbol the two reads give the module, and the module with the flag above it (R270, R272). -/
theorem read_of_inside {mx : Matrix} {x y : Nat} (h : inGrid mx x y) :
    moduleAt mx x y = (mx.modules.cell x y).toNat ∧
      peekAt mx x y = (mx.modules.cell x y).toNat + 2 * (mx.isfunc.cell x y).toNat := by
  have hin : (inSymbol mx.size.toNat x && inSymbol mx.size.toNat y) = true := inSymbol_and_iff.mpr (by omega)
  rw [moduleAt, peekAt, if_pos hin, if_pos hin, Int.toNat_natCast, Int.toNat_natCast]
  cases mx.modules.cell x y <;> cases mx.isfunc.cell x y <;> decide

/-- Outside the symbol both reads give 0 (R270, R272). -/
theorem read_of_outside {mx : Matrix} {x y : Int}
    (h : x < 0 ∨ y < 0 ∨ (mx.size.toNat : Int) ≤ x ∨ (mx.size.toNat : Int) ≤ y) :
    moduleAt mx x y = 0 ∧ peekAt mx x y = 0 := by
  have hout : ¬(inSymbol mx.size.toNat x && inSymbol mx.size.toNat y) = true := mt inSymbol_and_iff.mp (by omega)
  exact ⟨if_neg hout, if_neg hout⟩

/-- Settles O56, by `read_of_inside` and `read_of_outside`. -/
theorem readOutOfTheGrids : Obligations.ReadOutOfTheGrids := by
  intro s x y hf
  rw [exec_mxrd hf, exec_mxpeek hf]
  refine ⟨fun hp => by rw [if_pos hp], fun hp => by rw [if_pos hp], ?_, fun hout => ?_⟩
  · rintro cx cy rfl rfl hin
    obtain ⟨hmodule, hpeek⟩ := read_of_inside hin
    exact ⟨fun hp => by rw [if_neg (not_not_intro hp), hmodule], fun hp => by rw [if_neg hp, hpeek]⟩
  · obtain ⟨hmodule, hpeek⟩ := read_of_outside hout
    exact ⟨fun hp => by rw [if_neg (not_not_intro hp), hmodule]; rfl, fun hp => by rw [if_neg hp, hpeek]; rfl⟩

end Sys2Proof.Proofs
end

section
/-! SUPPORT. The version search and the level boost of the host driver (spec/50_host_driver.md R309, R310). -/

namespace Sys2Proof.Proofs

open Sys2Proof.Machine

theorem mem_versionRange {vmin vmax u : Nat} : u ∈ List.range' vmin (vmax + 1 - vmin) ↔ vmin ≤ u ∧ u ≤ vmax := by
  rw [List.mem_range'_1]
  omega

/-- The answer of the search on what the scan of the range finds (R309). -/
theorem versionSearch_of_find {segments : List Segment} {ecl vmin vmax : Nat} {found : Option Nat}
    (h : (List.range' vmin (vmax + 1 - vmin)).find? (fitsVersion segments ecl) = found) :
    versionSearch segments ecl vmin vmax = found.elim (.error .dataTooLong) .ok := by
  rw [versionSearch, ← List.range'_eq_map_range, h]
  cases found <;> rfl

theorem versionSearch_eq_ok_iff_find {segments : List Segment} {ecl vmin vmax v : Nat} :
    versionSearch segments ecl vmin vmax = .ok v ↔
      (List.range' vmin (vmax + 1 - vmin)).find? (fitsVersion segments ecl) = some v := by
  cases h : (List.range' vmin (vmax + 1 - vmin)).find? (fitsVersion segments ecl) <;> simp [versionSearch_of_find h]

theorem versionSearch_eq_dataTooLong_iff_find {segments : List Segment} {ecl vmin vmax : Nat} :
    versionSearch segments ecl vmin vmax = .error .dataTooLong ↔
      (List.range' vmin (vmax + 1 - vmin)).find? (fitsVersion segments ecl) = none := by
  cases h : (List.range' vmin (vmax + 1 - vmin)).find? (fitsVersion segments ecl) <;> simp [versionSearch_of_find h]

/-- The search answers the first version of the range that fits (R309). -/
theorem versionSearch_eq_ok_iff {segments : List Segment} {ecl vmin vmax v : Nat} :
    versionSearch segments ecl vmin vmax = .ok v ↔ vmin ≤ v ∧ v ≤ vmax ∧ fitsVersion segments ecl v = true ∧
      ∀ u, vmin ≤ u → u < v → fitsVersion segments ecl u = false := by
  simp only [versionSearch_eq_ok_iff_find, List.find?_range'_eq_some, mem_versionRange, Bool.not_eq_true']
  tauto

/-- The search fails iff no version of the range fits (R309). -/
theorem versionSearch_eq_dataTooLong_iff {segments : List Segment} {ecl vmin vmax : Nat} :
    versionSearch segments ecl vmin vmax = .error .dataTooLong ↔
      ∀ u, vmin ≤ u → u ≤ vmax → fitsVersion segments ecl u = false := by
  simp only [versionSearch_eq_dataTooLong_iff_find, List.find?_eq_none, mem_versionRange, Bool.not_eq_true, and_imp]

/-- One round of the boost's loop: a stronger level that fits replaces the current one (R310). -/
def boostRound (segments : List Segment) (version cur new : Nat) : Nat :=
  if new > cur ∧ fitsVersion segments new version = true then new else cur

theorem boost_eq_foldl (segments : List Segment) (version ecl : Nat) :
    boost segments version ecl = [1, 2, 3].foldl (boostRound segments version) ecl := rfl

theorem boostRound_eq_or (segments : List Segment) (version cur new : Nat) :
    cur < new ∧ fitsVersion segments new version = true ∧ boostRound segments version cur new = new ∨
      (cur < new → fitsVersion segments new version = false) ∧ boostRound segments version cur new = cur := by
  rw [boostRound]
  split
  · next h => exact .inl ⟨h.1, h.2, rfl⟩
  · next h => exact .inr ⟨fun hlt => Bool.eq_false_iff.mpr fun hfit => h ⟨hlt, hfit⟩, rfl⟩

/-- The loop over any list of levels ends at the start or at a level of the list that fits, and no stronger level of the list
fits. -/
theorem boostRound_foldl (segments : List Segment) (version : Nat) (levels : List Nat) (cur : Nat) :
    cur ≤ levels.foldl (boostRound segments version) cur ∧
      (levels.foldl (boostRound segments version) cur = cur ∨
        levels.foldl (boostRound segments version) cur ∈ levels ∧
          fitsVersion segments (levels.foldl (boostRound segments version) cur) version = true) ∧
      ∀ l ∈ levels, levels.foldl (boostRound segments version) cur < l → fitsVersion segments l version = false := by
  induction levels generalizing cur with
  | nil => exact ⟨Nat.le_refl _, .inl rfl, nofun⟩
  | cons new rest ih =>
    obtain ⟨hle, hfrom, hbest⟩ := ih (boostRound segments version cur new)
    rw [List.foldl_cons]
    generalize rest.foldl (boostRound segments version) (boostRound segments version cur new) = last at *
    rcases boostRound_eq_or segments version cur new with ⟨hlt, hfit, hround⟩ | ⟨hnot, hround⟩ <;> rw [hround] at hle hfrom
    · refine ⟨by omega, .inr ?_, List.forall_mem_cons.mpr ⟨fun h => absurd h (by omega), hbest⟩⟩
      rcases hfrom with rfl | ⟨hmem, hfits⟩
      · exact ⟨List.mem_cons_self, hfit⟩
      · exact ⟨List.mem_cons_of_mem _ hmem, hfits⟩
    · exact ⟨hle, hfrom.imp_right (And.imp_left (List.mem_cons_of_mem _)),
        List.forall_mem_cons.mpr ⟨fun h => hnot (by omega), hbest⟩⟩

/-- Settles O59, by `versionSearch_eq_ok_iff`, `versionSearch_eq_dataTooLong_iff` and, for the boost, `boostRound_foldl`. -/
theorem versionSearchAndBoost : Obligations.VersionSearchAndBoost := by
  refine ⟨fun _ _ _ _ _ => versionSearch_eq_ok_iff, fun _ _ _ _ => versionSearch_eq_dataTooLong_iff,
    fun segments version ecl hecl => ?_⟩
  obtain ⟨hle, hfrom, hbest⟩ := boostRound_foldl segments version [1, 2, 3] ecl
  rw [← boost_eq_foldl] at hle hfrom hbest
  have hlevel {l : Nat} : l ∈ [1, 2, 3] ↔ 1 ≤ l ∧ l ≤ 3 := by
    simp only [List.mem_cons, List.not_mem_nil, or_false]
    omega
  refine ⟨hle, ?_, fun hne => (hfrom.resolve_left hne).2, fun l hl hl3 => hbest l (hlevel.mpr ⟨by omega, hl3⟩) hl⟩
  rcases hfrom with hstay | ⟨hmem, -⟩
  · rw [hstay]; exact hecl
  · exact (hlevel.mp hmem).2

end Sys2Proof.Proofs
end

section
/-! SUPPORT. What a refusal, the fatal state and a step come to (spec/60_exceptions.md R342 to R344). -/

namespace Sys2Proof.Proofs

open Sys2Proof.Machine Sys2Proof.Safety Sys2Proof.Laws

/-! ### Refusals -/

theorem execute_of_illegal {w : Cmd} (h : illegal w) (s : State) : execute w s = .next (refusedWith 4 s) :=
  illegalWordsAreRefused.2.1 w s h

/-- Settles O9: an illegal word by `execute_of_illegal`, a command by the four answers of `exec_answer_cases`. -/
theorem refusalChangesStatusAlone : Obligations.RefusalChangesStatusAlone := by
  refine ⟨fun _ s h => execute_of_illegal h s, fun i s t h => ?_⟩
  rcases exec_answer_cases h with ⟨rfl, rfl⟩ | ho | ⟨-, rfl⟩ | ⟨src, n, rfl, hf, hp, -, rfl⟩
  · exact .inl ⟨rfl, .inl rfl⟩
  · cases ho with
    | answered v u hu => exact .inl ⟨rfl, .inr hu⟩
    | refused c hc => exact .inr (.inl ⟨c, by simp only [List.mem_cons] at hc ⊢; tauto, rfl⟩)
  · exact .inr (.inl ⟨3, by decide, rfl⟩)
  · rcases finishCodewords_cases (placeBits s.mx (codewordBit s src) (8 * n)) n s with ⟨-, he⟩ | ⟨-, he⟩
    · exact .inl (by rw [he]; exact ⟨rfl, .inr rfl⟩)
    · exact .inr (.inr ⟨src, n, rfl, hf, hp, by rw [he]; rfl⟩)

/-- Settles O10: RESET and RDCR stand before the FATAL test, an illegal word is refused by the decoder, and `exec_fatal` is
the test. -/
theorem fatalStateStopsAllButResetAndRdcr : Obligations.FatalStateStopsAllButResetAndRdcr :=
  fun s hf => ⟨⟨_, exec_reset, rfl⟩, fun n hn => ⟨_, by rw [exec_rdcr, if_neg (by omega)]⟩,
    fun _ h => execute_of_illegal h s, exec_fatal hf⟩

/-! ### Steps -/

section Step

variable {s : State} {rest : List Input}

theorem step_of_command {w : Cmd} (h : s.port = .command w :: rest) : step s = execute w { s with port := rest } := by
  simp only [step, takeInput, h, runInput]

theorem step_of_hardReset (h : s.port = .hardReset :: rest) : step s = .next (hardReset { s with port := rest }) := by
  simp only [step, takeInput, h, runInput]

theorem step_of_idle (h : s.port = []) : step s = .next s := by
  simp only [step, takeInput, h]

theorem withFetchWord_toNat (w : Cmd) (s : State) : s.withFetchWord 64 w.toNat = present w s := by
  rw [State.withFetchWord, Nat.mod_eq_of_lt w.isLt, BitVec.ofNat_toNat, BitVec.setWidth_eq]

end Step

/-- Settles O6, one lemma for each kind of input. -/
theorem stepRunsTheNextInput : Obligations.StepRunsTheNextInput := by
  refine ⟨fun s w i rest hd hp => ?_, fun s w i hd => ?_, fun s w rest hi hp => ?_, fun s rest hp => step_of_hardReset hp,
    fun s hp => step_of_idle hp⟩
  · rw [step_of_command hp, execute_of_decode_ok hd]
  · rw [withFetchWord_toNat, step_of_command (present_port w s), execute_of_decode_ok hd]
    rfl
  · rw [step_of_command hp, execute_of_illegal hi]

end Sys2Proof.Proofs
end

section
/-! SUPPORT. The refusal table (spec/60_exceptions.md R356), one column after another in the order of R342: the first test of
the table that fails decides the code, and a command that no test fails is served. -/

namespace Sys2Proof.Proofs

open Sys2Proof.Machine Sys2Proof.Safety Sys2Proof.Laws

/-! ### The tests of the commands, in the terms of the table -/

theorem rangeFits_eq_false_iff (p n : Nat) : rangeFits p n = false ↔ p + n > 8192 := by
  rw [← Bool.not_eq_true, rangeFits_iff, Nat.not_le]

theorem maskLegal_eq_false_iff (m : Nat) : maskLegal m = false ↔ m > 7 := by
  rw [maskLegal, decide_eq_false_iff_not, Nat.not_le]

theorem argumentBad_bbapp_eq_false_iff (width : Nat) (value : Word) (s : State) :
    argumentBad (.bbapp width value) s = false ↔ width ≤ 32 ∧ value.toNat < 2 ^ width := by
  simp only [argumentBad, Bool.or_eq_false_iff, decide_eq_false_iff_not, Nat.not_lt, ge_iff_le, Nat.not_le]

theorem argumentBad_mxsel (req : MaskRequest) (s : State) : argumentBad (.mxsel req) s = !requestLegal req := by
  cases req with
  | auto => rfl
  | forced m => simp only [argumentBad, requestLegal, maskLegal, gt_iff_lt, ← Nat.not_le, decide_not]

variable {i : Instr} {s t : State}

/-! ### The columns -/

theorem exec_of_sequenceBad (hf : s.status.fatal = false) (h : sequenceBad i s = true) :
    exec i s = .next (refusedWith 5 s) := by
  cases i with
  | rsrdc k => exact (rsrdcReadsOneCoefficient s k hf).1 (of_decide_eq_true h)
  | rsrem src len dst => exact (rsremWritesTheRemainder s src len dst hf).1 (of_decide_eq_true h)
  | mxsel req => rw [exec_mxsel hf, if_pos (by simpa [sequenceBad, toNat_ne_eight_iff] using h)]
  | _ => exact exec_out_of_phase hf (by simpa [sequenceBad] using h)

/-- A command that passes the first column is in its phase (R42). -/
theorem phaseLegal_of_not_sequenceBad (h : sequenceBad i s = false) : phaseLegal i s.mx.phase = true := by
  cases i with
  | rsrdc k => rfl
  | rsrem src len dst => rfl
  | mxsel req => exact (by simpa [sequenceBad] using h : s.mx.phase = .data ∧ _).1 ▸ rfl
  | _ => exact (Bool.not_eq_false' ..).mp h

theorem exec_of_argumentBad (hf : s.status.fatal = false) (h5 : sequenceBad i s = false) (h : argumentBad i s = true) :
    exec i s = .next (refusedWith 1 s) := by
  have hl := phaseLegal_of_not_sequenceBad h5
  cases i with
  | rdcr n => rw [exec_rdcr, if_pos (Nat.succ_le_of_lt (of_decide_eq_true h))]
  | gfmul x y => rw [exec_gfmul hf, if_pos (by simpa [argumentBad] using h)]
  | rsinit d => rw [exec_rsinit hf, if_pos (by simpa [argumentBad] using h)]
  | rsrdc k => exact (rsrdcReadsOneCoefficient s k hf).2.1 (of_decide_eq_false h5) (of_decide_eq_true h)
  | bbapp w v => exact exec_bbapp_of_illegal hf (by simpa [argumentBad] using h)
  | mxnew v l =>
    rw [exec_mxnew hf]
    simp only [argumentBad, Bool.or_eq_true, decide_eq_true_eq] at h
    rcases h with h | h
    · rw [if_pos h]
    · rw [if_pos h, ite_self]
  | mxcw src n =>
    rw [exec_mxcw hf, if_neg (not_not_intro (of_decide_eq_true hl)), if_pos (by simpa [argumentBad] using h)]
  | mxfmt m =>
    rw [exec_mxfmt hf, if_neg (not_not_intro (of_decide_eq_true hl)),
      if_pos ((maskLegal_eq_false_iff m).mpr (of_decide_eq_true h))]
  | mxmask m =>
    rw [exec_mxmask hf, if_neg (not_not_intro (of_decide_eq_true hl)),
      if_pos ((maskLegal_eq_false_iff m).mpr (of_decide_eq_true h))]
  | mxsel req =>
    rw [exec_mxsel hf, if_neg (by simpa [sequenceBad, toNat_ne_eight_iff] using h5),
      if_pos (by simpa [argumentBad_mxsel] using h)]
  | _ => cases h

theorem exec_of_trialBad (hf : s.status.fatal = false) (h5 : sequenceBad i s = false) (h1 : argumentBad i s = false)
    (h : trialBad i s = true) : exec i s = .next (refusedWith 5 s) := by
  have hl := phaseLegal_of_not_sequenceBad h5
  cases i with
  | mxmask m =>
    rw [exec_mxmask hf, if_neg (not_not_intro (of_decide_eq_true hl)),
      if_neg (mt (maskLegal_eq_false_iff m).mp (of_decide_eq_false h1)),
      if_pos (by simpa [trialBad, toNat_ne_eight_iff] using h)]
  | _ => cases h

theorem exec_of_boundsBad (hf : s.status.fatal = false) (h5 : sequenceBad i s = false) (h1 : argumentBad i s = false)
    (h : boundsBad i s = true) : exec i s = .next (refusedWith 6 s) := by
  have hl := phaseLegal_of_not_sequenceBad h5
  cases i with
  | ldb a => exact exec_ldb_of_ge hf (of_decide_eq_true h)
  | stb a v => exact exec_stb_of_ge hf (of_decide_eq_true h) v
  | rsrem src len dst =>
    rw [exec_rsrem_of_generator hf (of_decide_eq_false h5), if_pos (by simpa [boundsBad] using h)]
  | bbapp w v =>
    obtain ⟨hw, hv⟩ := (argumentBad_bbapp_eq_false_iff w v s).mp h1
    exact exec_bbapp_of_full hf hw hv (of_decide_eq_true h)
  | bbappm src n => exact exec_bbappm_of_outside hf (by simpa [boundsBad] using h)
  | bbtob dst => exact exec_bbtob_of_outside hf (of_decide_eq_true h)
  | mxcw src n =>
    rw [exec_mxcw hf, if_neg (not_not_intro (of_decide_eq_true hl)), if_neg (by simpa [argumentBad] using h1),
      if_pos ((rangeFits_eq_false_iff src n).mpr (of_decide_eq_true h))]
  | _ => cases h

/-- MXCW comes to its last test if no test of the table fails. -/
theorem exec_mxcw_of_no_test {src n : Nat} (hf : s.status.fatal = false) (h5 : sequenceBad (.mxcw src n) s = false)
    (h1 : argumentBad (.mxcw src n) s = false) (h6 : boundsBad (.mxcw src n) s = false) :
    s.mx.phase = .patterns ∧ n = nfree s.mx / 8 ∧
      exec (.mxcw src n) s = .next (finishCodewords (placeBits s.mx (codewordBit s src) (8 * n)) n s) := by
  have hp : s.mx.phase = .patterns := of_decide_eq_true (phaseLegal_of_not_sequenceBad h5)
  have hn : n = nfree s.mx / 8 := by simpa [argumentBad] using h1
  refine ⟨hp, hn, ?_⟩
  rw [exec_mxcw hf, if_neg (not_not_intro hp), if_neg (not_not_intro hn),
    if_neg (mt (rangeFits_eq_false_iff src n).mp (of_decide_eq_false h6))]

/-- Every other command is served if no test of the table fails. -/
theorem exec_of_no_test (hf : s.status.fatal = false) (hc : ∀ src n, i ≠ .mxcw src n) (h5 : sequenceBad i s = false)
    (h1 : argumentBad i s = false) (h5' : trialBad i s = false) (h6 : boundsBad i s = false) :
    ∃ v u, exec i s = .next (answered v u) := by
  have hl := phaseLegal_of_not_sequenceBad h5
  cases i with
  | reset => exact ⟨_, _, exec_reset⟩
  | rdcr n => exact ⟨_, _, by rw [exec_rdcr, if_neg (mt Nat.lt_of_succ_le (of_decide_eq_false h1))]⟩
  | ldb a => exact ⟨_, _, by rw [exec_ldb hf, if_neg (of_decide_eq_false h6)]⟩
  | stb a v => exact ⟨_, _, by rw [exec_stb hf, if_neg (of_decide_eq_false h6)]⟩
  | gfmul x y => exact ⟨_, _, by rw [exec_gfmul hf, if_neg (by simpa [argumentBad] using h1)]⟩
  | rsinit d => exact ⟨_, _, by rw [exec_rsinit hf, if_neg (by simpa [argumentBad] using h1)]⟩
  | rsrdc k => exact ⟨_, _, (rsrdcReadsOneCoefficient s k hf).2.2 (Nat.not_le.mp (of_decide_eq_false h1))⟩
  | rsrem src len dst =>
    exact ⟨_, _, by rw [exec_rsrem_of_generator hf (of_decide_eq_false h5), if_neg (by simpa [boundsBad] using h6)]⟩
  | bbnew => exact ⟨_, _, exec_bbnew hf⟩
  | bblen => exact ⟨_, _, exec_bblen hf⟩
  | bbapp w v =>
    obtain ⟨hw, hv⟩ := (argumentBad_bbapp_eq_false_iff w v s).mp h1
    exact ⟨_, _, exec_bbapp_of_fits hf hw hv (Nat.not_lt.mp (of_decide_eq_false h6))⟩
  | bbappm src n =>
    obtain ⟨hr, hfit⟩ : src + (n + 7) / 8 ≤ 8192 ∧ s.bb.bblen.toNat + n ≤ 32768 := by simpa [boundsBad] using h6
    exact ⟨_, _, exec_bbappm_of_fits hf hr hfit⟩
  | bbtob dst => exact ⟨_, _, exec_bbtob_of_fits hf (by simpa [boundsBad] using h6)⟩
  | mxnew v l =>
    obtain ⟨hv, hlevel⟩ : ¬(v < 1 ∨ v > 40) ∧ ¬l > 3 := by simpa [argumentBad] using h1
    exact ⟨_, _, by rw [exec_mxnew hf, if_neg hv, if_neg hlevel]⟩
  | mxfunc => exact ⟨_, _, by rw [exec_mxfunc hf, if_neg (not_not_intro (of_decide_eq_true hl))]⟩
  | mxcw src n => exact absurd rfl (hc src n)
  | mxfmt m => exact ⟨_, _, exec_mxfmt_of_legal hf (of_decide_eq_true hl) (by simpa [argumentBad] using h1)⟩
  | mxmask m =>
    exact ⟨_, _, exec_mxmask_of_legal hf (of_decide_eq_true hl) (by simpa [argumentBad] using h1)
      (by simpa [trialBad, or_iff_not_imp_left, toNat_ne_eight_iff] using h5')⟩
  | mxpen => exact ⟨_, _, exec_mxpen_of_legal hf (by simpa [phaseLegal] using hl)⟩
  | mxsel req =>
    exact ⟨_, _, by rw [exec_mxsel hf, if_neg (by simpa [sequenceBad, toNat_ne_eight_iff] using h5),
      if_neg (by simpa [argumentBad_mxsel] using h1)]⟩
  | mxrd x y => exact ⟨_, _, by rw [exec_mxrd hf, if_neg (not_not_intro (of_decide_eq_true hl))]⟩
  | mxpeek x y => exact ⟨_, _, by rw [exec_mxpeek hf, if_neg (by simpa [phaseLegal] using hl)]⟩

/-! ### The code -/

/-- The columns tested in the order of R342. -/
theorem expectedCode_cases (i : Instr) (s : State) :
    (expectedCode i s = 5 ∧ sequenceBad i s = true) ∨
    (expectedCode i s = 1 ∧ sequenceBad i s = false ∧ argumentBad i s = true) ∨
    (expectedCode i s = 5 ∧ sequenceBad i s = false ∧ argumentBad i s = false ∧ trialBad i s = true) ∨
    (expectedCode i s = 6 ∧ sequenceBad i s = false ∧ argumentBad i s = false ∧ boundsBad i s = true) ∨
    (expectedCode i s = 0 ∧ sequenceBad i s = false ∧ argumentBad i s = false ∧ trialBad i s = false ∧
      boundsBad i s = false) := by
  unfold expectedCode
  split_ifs with h5 h1 h5' h6
  · exact .inl ⟨rfl, h5⟩
  · exact .inr (.inl ⟨rfl, eq_false_of_ne_true h5, h1⟩)
  · exact .inr (.inr (.inl ⟨rfl, eq_false_of_ne_true h5, eq_false_of_ne_true h1, h5'⟩))
  · exact .inr (.inr (.inr (.inl ⟨rfl, eq_false_of_ne_true h5, eq_false_of_ne_true h1, h6⟩)))
  · exact .inr (.inr (.inr (.inr ⟨rfl, eq_false_of_ne_true h5, eq_false_of_ne_true h1, eq_false_of_ne_true h5',
      eq_false_of_ne_true h6⟩)))

/-- A refusal leaves the code of every command: no test reads `STATUS` or the response. -/
theorem expectedCode_refusedWith (c : Byte) (i : Instr) (s : State) : expectedCode i (refusedWith c s) = expectedCode i s := by
  cases i <;> rfl

/-- The first test that fails refuses the command with its code (R342, R347). -/
theorem exec_of_code (hf : s.status.fatal = false) (h : expectedCode i s ≠ 0) :
    exec i s = .next (refusedWith (expectedCode i s) s) := by
  rcases expectedCode_cases i s with ⟨hc, h5⟩ | ⟨hc, h5, h1⟩ | ⟨hc, h5, h1, h5'⟩ | ⟨hc, h5, h1, h6⟩ | ⟨hc, -⟩
  · rw [hc, exec_of_sequenceBad hf h5]
  · rw [hc, exec_of_argumentBad hf h5 h1]
  · rw [hc, exec_of_trialBad hf h5 h1 h5']
  · rw [hc, exec_of_boundsBad hf h5 h1 h6]
  · exact absurd hc h

theorem no_test_of_code_zero (h0 : expectedCode i s = 0) :
    sequenceBad i s = false ∧ argumentBad i s = false ∧ trialBad i s = false ∧ boundsBad i s = false := by
  rcases expectedCode_cases i s with ⟨hc, -⟩ | ⟨hc, -⟩ | ⟨hc, -⟩ | ⟨hc, -⟩ | ⟨-, hall⟩
  on_goal 5 => exact hall
  all_goals exact absurd (hc.symm.trans h0) (by decide)

/-- With no test failed a command succeeds, or it is MXCW and comes to its last test. -/
theorem exec_of_code_zero (hf : s.status.fatal = false) (h0 : expectedCode i s = 0) (h : exec i s = .next t) :
    statusOf t = some 0 ∨ ∃ src n, i = .mxcw src n ∧ s.mx.phase = .patterns ∧ n = nfree s.mx / 8 ∧
      t = finishCodewords (placeBits s.mx (codewordBit s src) (8 * n)) n s := by
  obtain ⟨h5, h1, h5', h6⟩ := no_test_of_code_zero h0
  by_cases hcw : ∃ src n, i = .mxcw src n
  · obtain ⟨src, n, rfl⟩ := hcw
    obtain ⟨hp, hn, hexec⟩ := exec_mxcw_of_no_test hf h5 h1 h6
    rw [hexec] at h
    cases h
    exact .inr ⟨src, n, rfl, hp, hn, rfl⟩
  · obtain ⟨v, u, hexec⟩ := exec_of_no_test hf (fun src n e => hcw ⟨src, n, e⟩) h5 h1 h5' h6
    rw [hexec] at h
    cases h
    exact .inl rfl

/-- MXCW's last test passes for the count of its operand test, since the scan places all its bits (R225). -/
theorem statusOf_finishCodewords (hi : MatrixInv s.mx) (hp : s.mx.phase = .patterns) {n : Nat} (hn : n = nfree s.mx / 8)
    (bit : Nat → Bool) : statusOf (finishCodewords (placeBits s.mx bit (8 * n)) n s) = some 0 := by
  have hall := placeBits_count hi (.inl hp) bit (show 8 * n ≤ nfree s.mx by omega)
  rcases finishCodewords_cases (placeBits s.mx bit (8 * n)) n s with ⟨-, he⟩ | ⟨hne, -⟩
  · rw [he, statusOf_answered]
  · exact absurd hall hne

/-- Settles O12: a failed test by `exec_of_code`, none by `exec_of_code_zero` and `statusOf_finishCodewords`. -/
theorem refusalCodeOfEveryCommand : Obligations.RefusalCodeOfEveryCommand := by
  intro i s hf hi
  by_cases h0 : expectedCode i s = 0
  · obtain ⟨t, ht⟩ := exec_total i s
    refine ⟨t, ht, ?_⟩
    rw [h0]
    rcases exec_of_code_zero hf h0 ht with hok | ⟨src, n, -, hp, hn, rfl⟩
    · exact hok
    · exact statusOf_finishCodewords hi hp hn _
  · exact ⟨_, exec_of_code hf h0, rfl⟩

/-! ### A refused command reissued -/

/-- After a refusal with code 3 the block is in the fatal state (R344). -/
theorem exec_refusedWith_three (u : State) (hr : i ≠ .reset) (hn : ∀ n, i ≠ .rdcr n) :
    exec i (refusedWith 3 u) = .next (refusedWith 3 (refusedWith 3 u)) :=
  exec_fatal (by simp) i hr hn

/-- RDCR is refused for its operand alone (R122). -/
theorem exec_rdcr_refused {n : Nat} {c : Byte} (h : exec (.rdcr n) s = .next t) (hc : statusOf t = some c) (h0 : c ≠ 0)
    (u : State) : exec (.rdcr n) u = .next (refusedWith c u) := by
  rw [exec_rdcr] at h ⊢
  cases h
  split_ifs at hc ⊢
  · cases hc
    rfl
  · cases hc
    exact absurd rfl h0

/-- Outside the fatal state a refusal either has the code of the table or is MXCW's internal fault (R343, R344). -/
theorem exec_refused_cases {c : Byte} (hf : s.status.fatal = false) (h : exec i s = .next t) (hc : statusOf t = some c)
    (h0 : c ≠ 0) : (expectedCode i s = c ∧ t = refusedWith c s) ∨ ∃ u, t = refusedWith 3 u := by
  by_cases hz : expectedCode i s = 0
  · rcases exec_of_code_zero hf hz h with hok | ⟨src, n, -, -, -, rfl⟩
    · exact absurd (Option.some.inj (hc.symm.trans hok)) h0
    · rcases finishCodewords_cases (placeBits s.mx (codewordBit s src) (8 * n)) n s with ⟨-, he⟩ | ⟨-, he⟩
      · rw [he] at hc
        exact absurd (Option.some.inj hc).symm h0
      · exact .inr ⟨_, he⟩
  · rw [exec_of_code hf hz] at h
    cases h
    cases hc
    exact .inl ⟨rfl, rfl⟩

theorem expectedCode_ne_three (i : Instr) (s : State) : expectedCode i s ≠ 3 := by
  rcases expectedCode_cases i s with ⟨h, -⟩ | ⟨h, -⟩ | ⟨h, -⟩ | ⟨h, -⟩ | ⟨h, -⟩ <;> rw [h] <;> decide

/-- Settles O13: a refusal with code 3 leaves `FATAL` set, every other one leaves the command's code as it was. -/
theorem refusedCommandIsRefusedAgain : Obligations.RefusedCommandIsRefusedAgain := by
  intro i s t c h hc h0
  by_cases hn : ∃ n, i = .rdcr n
  · obtain ⟨n, rfl⟩ := hn
    exact ⟨_, exec_rdcr_refused h hc h0 t, rfl⟩
  have hn' : ∀ n, i ≠ .rdcr n := fun n e => hn ⟨n, e⟩
  have hr : i ≠ .reset := by
    rintro rfl
    cases h
    exact h0 (Option.some.inj hc).symm
  have fatal {u : State} (ht : t = refusedWith 3 u) : ∃ v, exec i t = .next v ∧ statusOf v = some c := by
    subst ht
    exact ⟨_, exec_refusedWith_three u hr hn', hc⟩
  rcases exec_fatal_or h hr hn' with ht | hf
  · exact fatal ht
  · rcases exec_refused_cases hf h hc h0 with ⟨rfl, ht⟩ | ⟨u, ht⟩
    · have hf' : t.status.fatal = false := by simpa [ht, hf] using expectedCode_ne_three i s
      have hsame : expectedCode i t = expectedCode i s := ht ▸ expectedCode_refusedWith _ i s
      exact ⟨_, exec_of_code hf' (hsame ▸ h0), congrArg some hsame⟩
    · exact fatal ht

end Sys2Proof.Proofs
end

section
/-! SUPPORT. The reset state seen through the commands (spec/70_reset_and_hazards.md R382). -/

namespace Sys2Proof.Proofs

open Sys2Proof.Machine Sys2Proof.Safety Sys2Proof.Laws

theorem refused_out_of_sequence_at_reset {i : Instr} (h : sequenceBad i State.reset = true) :
    exec i State.reset = .next (refusedWith 5 State.reset) :=
  exec_of_sequenceBad rfl h

theorem exec_rdcr_at_reset {n : Nat} {v : Word} (hn : n ≤ 9) (hv : BitVec.ofNat 32 (registerNumber State.reset n) = v) :
    exec (.rdcr n) State.reset = .next (answered v State.reset) :=
  hv ▸ ((controlRegistersReadTheState.1 State.reset n).1 hn).1

/-- Settles O8: RDCR by the registers' numbers, every refusal by the first column of R356's table. -/
theorem resetStateThroughTheCommands : Obligations.ResetStateThroughTheCommands := by
  refine ⟨fun p hp => exec_rdcr_at_reset ?_ ?_, exec_bblen rfl, fun _ => refused_out_of_sequence_at_reset rfl,
    fun _ _ _ => refused_out_of_sequence_at_reset rfl, refused_out_of_sequence_at_reset rfl,
    fun _ _ => refused_out_of_sequence_at_reset rfl, fun _ => refused_out_of_sequence_at_reset rfl,
    fun _ => refused_out_of_sequence_at_reset rfl, refused_out_of_sequence_at_reset rfl,
    fun _ => refused_out_of_sequence_at_reset rfl, fun _ _ => refused_out_of_sequence_at_reset rfl,
    fun _ _ => refused_out_of_sequence_at_reset rfl, fun _ h => ⟨_, exec_ldb_of_lt rfl h, ?_⟩⟩
  · revert p
    decide
  · revert p
    decide
  · rw [BitVec.ofNat_toNat, BitVec.toNat_setWidth_of_le (by decide)]
    exact BitVec.isLt _

end Sys2Proof.Proofs
end

section
/-! SUPPORT. What the commands of each part write (spec/70_reset_and_hazards.md R391). -/

namespace Sys2Proof.Proofs

open Sys2Proof.Machine Sys2Proof.Safety Sys2Proof.Laws

variable {i : Instr} {s t : State}

theorem exec_keeps_epoch_port (h : exec i s = .next t) (hr : i ≠ .reset) : t.epoch = s.epoch ∧ t.port = s.port := by
  by_cases hm : partOf i = .matrix
  · have hframe := exec_matrix_frame h hm
    exact ⟨hframe.epoch, hframe.port⟩
  · exact (exec_nonmatrix_frame h hm hr).2

theorem exec_keeps_bb (h : exec i s = .next t) (hr : i ≠ .reset) (hp : partOf i ≠ .builder) : t.bb = s.bb := by
  rcases exec_bb_cases h with hbb | ⟨rfl | rfl, -⟩ | ⟨_, _, rfl, -⟩ | ⟨_, _, rfl, -⟩
  · exact hbb
  · exact absurd rfl hr
  all_goals exact absurd rfl hp

theorem exec_keeps_rs (h : exec i s = .next t) (hr : i ≠ .reset) (hp : partOf i ≠ .reedSolomon) : t.rs = s.rs := by
  rcases exec_rs_cases h with hrs | ⟨rfl, -⟩ | ⟨_, rfl, -⟩
  · exact hrs
  · exact absurd rfl hr
  · exact absurd rfl hp

theorem exec_keeps_dmem (h : exec i s = .next t) (hp : partOf i = .matrix ∨ partOf i = .field) : t.dmem = s.dmem := by
  rcases exec_dmem_cases h with hd | ⟨rfl, -⟩ | ⟨_, _, rfl, -⟩ | ⟨_, _, _, rfl, -⟩ | ⟨_, rfl, -⟩
  · exact hd
  all_goals rcases hp with hp | hp <;> cases hp

/-- A byte outside the destination of STB, RSREM and BBTOB keeps its value. -/
theorem exec_keeps_byte (h : exec i s = .next t) (hr : i ≠ .reset) {a : Nat} (hstb : ∀ v, i ≠ .stb a v)
    (hrem : ∀ src len dst, i = .rsrem src len dst → a < dst ∨ dst + s.rs.rsdeg.toNat ≤ a)
    (htob : ∀ dst, i = .bbtob dst → a < dst ∨ dst + bytesFor s.bb.bblen.toNat ≤ a) : readByte t a = readByte s a := by
  have he := (exec_keeps_epoch_port h hr).1
  rcases exec_dmem_cases h with hd | ⟨rfl, -⟩ | ⟨b, v, rfl, -, hd⟩ | ⟨src, len, dst, rfl, -, hd⟩ | ⟨dst, rfl, -, hd⟩
  · exact readByte_congr hd he a
  · exact absurd rfl hr
  · have hab : a ≠ b := fun hab => hstb v (by rw [hab])
    rw [readByte_congr (t := writeByte s b v) hd he, readByte_writeByte, if_neg hab]
  · have hout := hrem src len dst rfl
    rw [readByte_congr hd (he.trans (writeRange_epoch ..).symm), readByte_writeRange, length_remainder,
      length_divCoefficients, if_neg (by omega)]
  · have hout := htob dst rfl
    rw [readByte_congr hd (he.trans (writeRange_epoch ..).symm), readByte_writeRange, length_builderBytes,
      if_neg (by omega)]

/-- Settles O57, one lemma for each part of the state. -/
theorem unitsWriteTheirOwnState : Obligations.UnitsWriteTheirOwnState := by
  intro i s t h hr
  obtain ⟨hepoch, hport⟩ := exec_keeps_epoch_port h hr
  exact ⟨hepoch, hport, exec_keeps_bb h hr, exec_keeps_rs h hr, fun hp => (exec_nonmatrix_frame h hp hr).1,
    exec_keeps_dmem h, fun _ => exec_keeps_byte h hr⟩

end Sys2Proof.Proofs
end

section
/-! SUPPORT. What the commands of each part read (spec/70_reset_and_hazards.md R391): two states that agree on a view of them
get answers that agree. -/

namespace Sys2Proof.Proofs

open Sys2Proof.Machine Sys2Proof.Safety Sys2Proof.Laws

/-! ### Answers that agree on a view -/

/-- Two answers with one response, of states that agree on the view. -/
inductive SameAnswer {α : Type} (view : State → α) : State → State → Prop where
  | answered (v : Word) {s t : State} (h : view s = view t) : SameAnswer view (answered v s) (answered v t)
  | refused (c : Byte) {s t : State} (h : view s = view t) : SameAnswer view (refusedWith c s) (refusedWith c t)

/-- The command is answered in both states, and the answers agree on the view. -/
def AgreesOn {α : Type} (view : State → α) (i : Instr) (s t : State) : Prop :=
  ∃ s' t', exec i s = .next s' ∧ exec i t = .next t' ∧ SameAnswer view s' t'

/-- The builder and the bytes of `DMEM`. -/
def builderView (s : State) : Builder × (Nat → Byte) := (s.bb, readByte s)

/-- The Reed-Solomon generator and the bytes of `DMEM`. -/
def generatorView (s : State) : RsGen × (Nat → Byte) := (s.rs, readByte s)

section Views

variable {α : Type} {view : State → α} {i : Instr} {s t s' t' : State}

theorem builderView_eq_iff : builderView s = builderView t ↔ s.bb = t.bb ∧ ∀ a, readByte s a = readByte t a :=
  Prod.ext_iff.trans (and_congr_right' funext_iff)

theorem generatorView_eq_iff : generatorView s = generatorView t ↔ s.rs = t.rs ∧ ∀ a, readByte s a = readByte t a :=
  Prod.ext_iff.trans (and_congr_right' funext_iff)

/-- One test made in both states. -/
theorem SameAnswer.ite {a b a' b' : State} {p : Prop} [Decidable p] (ha : SameAnswer view a a')
    (hb : SameAnswer view b b') : SameAnswer view (if p then a else b) (if p then a' else b') := by
  split
  · exact ha
  · exact hb

theorem SameAnswer.response_eq (h : SameAnswer view s t) : s.response = t.response := by
  cases h <;> rfl

/-- The new states agree on a view that neither `STATUS` nor the response is part of. -/
theorem SameAnswer.view_eq (hview : ∀ u st r, view { u with status := st, response := r } = view u)
    (h : SameAnswer view s t) : view s = view t := by
  cases h with
  | answered v h => exact (hview _ _ _).trans (h.trans (hview _ _ _).symm)
  | refused c h => exact (hview _ _ _).trans (h.trans (hview _ _ _).symm)

theorem AgreesOn.sameAnswer (h : AgreesOn view i s t) (hs : exec i s = .next s') (ht : exec i t = .next t') :
    SameAnswer view s' t' := by
  obtain ⟨u, v, hu, hv, hsame⟩ := h
  rw [hs] at hu
  rw [ht] at hv
  cases hu
  cases hv
  exact hsame

/-- In the fatal state every command of a unit gets one answer (R344), so only states outside it are left to compare. -/
theorem agreesOn_of_served {p : Part} (hp : partOf i = p) (hunit : p ≠ .system)
    (hfatal : s.status.fatal = t.status.fatal) (hview : view s = view t)
    (h : s.status.fatal = false → t.status.fatal = false → AgreesOn view i s t) : AgreesOn view i s t := by
  cases hf : s.status.fatal with
  | false => exact h hf (hfatal.symm.trans hf)
  | true =>
    have hr : i ≠ .reset := by
      rintro rfl
      exact hunit hp.symm
    have hn : ∀ n, i ≠ .rdcr n := by
      rintro n rfl
      exact hunit hp.symm
    exact ⟨_, _, exec_fatal hf i hr hn, exec_fatal (hfatal.symm.trans hf) i hr hn, .refused 3 hview⟩

/-! ### What reads `DMEM` -/

theorem payloadBits_congr (h : readByte s = readByte t) (src n : Nat) : payloadBits s src n = payloadBits t src n := by
  rw [payloadBits, payloadBits, h]

theorem codewordBit_congr (h : readByte s = readByte t) (src : Nat) : codewordBit s src = codewordBit t src := by
  funext k
  rw [codewordBit, codewordBit, h]

theorem readByte_writeRange_congr (h : readByte s = readByte t) (dst : Nat) (bytes : List Byte) :
    readByte (writeRange s dst bytes) = readByte (writeRange t dst bytes) := by
  funext a
  rw [readByte_writeRange, readByte_writeRange, h]

theorem sameAnswer_finishCodewords (hmx : s.mx = t.mx) (placed : Grid × Nat) (n : Nat) :
    SameAnswer State.mx (finishCodewords placed n s) (finishCodewords placed n t) := by
  rcases finishCodewords_cases placed n s with ⟨hall, hs⟩ | ⟨hall, hs⟩
  · have ht := (finishCodewords_cases placed n t).resolve_right fun h => h.1 hall
    rw [hs, ht.2, hmx]
    exact .answered _ rfl
  · have ht := (finishCodewords_cases placed n t).resolve_left fun h => hall h.1
    rw [hs, ht.2, hmx]
    exact .refused 3 rfl

/-! ### The parts -/

theorem field_agreesOn (hp : partOf i = .field) (hfatal : s.status.fatal = t.status.fatal) :
    AgreesOn (fun _ => ()) i s t := by
  refine agreesOn_of_served hp nofun hfatal rfl fun hs ht => ?_
  cases i with
  | gfmul x y => exact ⟨_, _, exec_gfmul hs x y, exec_gfmul ht x y, .ite (.refused 1 rfl) (.answered _ rfl)⟩
  | _ => cases hp

theorem matrix_agreesOn (hp : partOf i = .matrix) (hfatal : s.status.fatal = t.status.fatal) (hmx : s.mx = t.mx)
    (hread : ∀ src n, i = .mxcw src n → readByte s = readByte t) : AgreesOn State.mx i s t := by
  refine agreesOn_of_served hp nofun hfatal hmx fun hs ht => ?_
  cases i with
  | mxnew v l =>
    exact ⟨_, _, exec_mxnew hs v l, exec_mxnew ht v l, .ite (.refused 1 hmx) (.ite (.refused 1 hmx) (.answered _ rfl))⟩
  | mxfunc =>
    refine ⟨_, _, exec_mxfunc hs, exec_mxfunc ht, ?_⟩
    rw [hmx]
    exact .ite (.refused 5 hmx) (.answered _ rfl)
  | mxcw src n =>
    refine ⟨_, _, exec_mxcw hs src n, exec_mxcw ht src n, ?_⟩
    rw [hmx, codewordBit_congr (hread src n rfl)]
    exact .ite (.refused 5 hmx) (.ite (.refused 1 hmx) (.ite (.refused 6 hmx) (sameAnswer_finishCodewords hmx _ n)))
  | mxfmt m =>
    refine ⟨_, _, exec_mxfmt hs m, exec_mxfmt ht m, ?_⟩
    rw [hmx]
    exact .ite (.refused 5 hmx) (.ite (.refused 1 hmx) (.answered _ rfl))
  | mxmask m =>
    refine ⟨_, _, exec_mxmask hs m, exec_mxmask ht m, ?_⟩
    rw [hmx]
    exact .ite (.refused 5 hmx) (.ite (.refused 1 hmx) (.ite (.refused 5 hmx) (.answered _ rfl)))
  | mxpen =>
    refine ⟨_, _, exec_mxpen hs, exec_mxpen ht, ?_⟩
    rw [hmx]
    exact .ite (.refused 5 hmx) (.answered _ rfl)
  | mxsel req =>
    refine ⟨_, _, exec_mxsel hs req, exec_mxsel ht req, ?_⟩
    rw [hmx]
    exact .ite (.refused 5 hmx) (.ite (.refused 1 hmx) (.answered _ rfl))
  | mxrd x y =>
    refine ⟨_, _, exec_mxrd hs x y, exec_mxrd ht x y, ?_⟩
    rw [hmx]
    exact .ite (.refused 5 hmx) (.answered _ hmx)
  | mxpeek x y =>
    refine ⟨_, _, exec_mxpeek hs x y, exec_mxpeek ht x y, ?_⟩
    rw [hmx]
    exact .ite (.refused 5 hmx) (.answered _ hmx)
  | _ => cases hp

theorem builder_agreesOn (hp : partOf i = .builder) (hfatal : s.status.fatal = t.status.fatal)
    (hview : builderView s = builderView t) : AgreesOn builderView i s t := by
  refine agreesOn_of_served hp nofun hfatal hview fun hs ht => ?_
  obtain ⟨hbb, hread⟩ := Prod.mk.inj hview
  have hset (bb : Builder) : builderView { s with bb := bb } = builderView { t with bb := bb } := congrArg (bb, ·) hread
  cases i with
  | bbnew => exact ⟨_, _, exec_bbnew hs, exec_bbnew ht, .answered 0 (hset _)⟩
  | bblen =>
    refine ⟨_, _, exec_bblen hs, exec_bblen ht, ?_⟩
    rw [hbb]
    exact .answered _ hview
  | bbapp w v =>
    refine ⟨_, _, exec_bbapp hs w v, exec_bbapp ht w v, ?_⟩
    rw [hbb]
    exact .ite (.refused 1 hview) (.ite (.refused 6 hview) (.answered _ (hset _)))
  | bbappm src n =>
    refine ⟨_, _, exec_bbappm hs src n, exec_bbappm ht src n, ?_⟩
    rw [hbb, payloadBits_congr hread]
    exact .ite (.refused 6 hview) (.ite (.refused 6 hview) (.answered _ (hset _)))
  | bbtob dst =>
    have hwrite (bytes : List Byte) : builderView (writeRange s dst bytes) = builderView (writeRange t dst bytes) := by
      rw [builderView, builderView, writeRange_bb, writeRange_bb, hbb, readByte_writeRange_congr hread]
    refine ⟨_, _, exec_bbtob hs dst, exec_bbtob ht dst, ?_⟩
    rw [hbb]
    exact .ite (.refused 6 hview) (.answered _ (hwrite _))
  | _ => cases hp

theorem reedSolomon_agreesOn (hp : partOf i = .reedSolomon) (hfatal : s.status.fatal = t.status.fatal)
    (hview : generatorView s = generatorView t) : AgreesOn generatorView i s t := by
  refine agreesOn_of_served hp nofun hfatal hview fun hs ht => ?_
  obtain ⟨hrs, hread⟩ := Prod.mk.inj hview
  cases i with
  | rsinit d =>
    have hset : generatorView { s with rs := generator d } = generatorView { t with rs := generator d } :=
      congrArg (generator d, ·) hread
    exact ⟨_, _, exec_rsinit hs d, exec_rsinit ht d, .ite (.refused 1 hview) (.answered _ hset)⟩
  | rsrdc k =>
    refine ⟨_, _, exec_rsrdc hs k, exec_rsrdc ht k, ?_⟩
    rw [hrs]
    exact .ite (.refused 5 hview) (.ite (.refused 1 hview) (.answered _ hview))
  | rsrem src len dst =>
    have hwrite (bytes : List Byte) : generatorView (writeRange s dst bytes) = generatorView (writeRange t dst bytes) := by
      rw [generatorView, generatorView, writeRange_rs, writeRange_rs, hrs, readByte_writeRange_congr hread]
    refine ⟨_, _, exec_rsrem hs src len dst, exec_rsrem ht src len dst, ?_⟩
    rw [hrs, readRange_congr fun k _ => congrFun hread (src + k)]
    exact .ite (.refused 5 hview) (.ite (.refused 6 hview) (.ite (.refused 6 hview) (.answered _ (hwrite _))))
  | _ => cases hp

end Views

/-- Settles O58: the view of each part is its own state, with the bytes of `DMEM` for the builder and the generator; GFMUL
has none. -/
theorem unitsReadTheirOwnState : Obligations.UnitsReadTheirOwnState := by
  intro i s t s' t' hs ht hfatal
  refine ⟨fun hp => ?_, fun hp hmx hread => ?_, fun hread => ⟨fun hp hbb => ?_, fun hp hrs => ?_⟩⟩
  · exact ((field_agreesOn hp hfatal).sameAnswer hs ht).response_eq
  · have hsame := (matrix_agreesOn hp hfatal hmx fun src n he => funext (hread src n he)).sameAnswer hs ht
    exact ⟨hsame.response_eq, hsame.view_eq fun _ _ _ => rfl⟩
  · have hsame := (builder_agreesOn hp hfatal (builderView_eq_iff.mpr ⟨hbb, hread⟩)).sameAnswer hs ht
    exact ⟨hsame.response_eq, builderView_eq_iff.mp (hsame.view_eq fun _ _ _ => rfl)⟩
  · have hsame := (reedSolomon_agreesOn hp hfatal (generatorView_eq_iff.mpr ⟨hrs, hread⟩)).sameAnswer hs ht
    exact ⟨hsame.response_eq, generatorView_eq_iff.mp (hsame.view_eq fun _ _ _ => rfl)⟩

end Sys2Proof.Proofs
end
